-- ==== Sys2Proof/Word.lean ====
section
/-! DEFINITION. The widths of the block's values and the type of a bit string (spec 00_scope R4, R5, R8; notation of 00_scope §5).
The arithmetic and the bit-field helpers stand in Machine/Operands.lean. -/

namespace Sys2Proof

/-- A 32-bit register, count, command word or stream field (R5, R21). -/
abbrev Word := BitVec 32

/-- One symbol of the IN or OUT port (R4: WORD = 8 bits). -/
abbrev Byte := BitVec 8

/-- A 64-bit weight, bit count or RESULT (R8). -/
abbrev DWord := BitVec 64

/-- A bit string, first bit at the head of the list (00_scope §5: "first bit leftmost"). -/
abbrev Bits := List Bool

end Sys2Proof
end

