-- ==== Sys2Proof/Syntax.lean ====
section
/-! DEFINITION. The host commands: one constructor for each row of spec/opcode_table.json (R80, R81). Each carries the one-bit
argument A of the command word. -/

namespace Sys2Proof

/-- The header format PREPROCESS is asked for (R82): FMT = 0 explicit counts, FMT = 1 explicit tree. -/
inductive HeaderFormat where
  | counts
  | tree
  deriving DecidableEq, Repr

/-- The commands of R81.
The streams are no operands of the command word: the input is whatever the host presents at IN, the output is OUT. -/
inductive Instr where
  /-- PREPROCESS, A = FMT (R210). -/
  | preprocess (fmt : HeaderFormat)
  /-- COMPRESS, A = FORCE (R220). -/
  | compress (force : Bool)
  /-- DECOMPRESS (R240). Its A "must be 0" (R80): the field is kept, so that WellFormed can say so. -/
  | decompress (a : Bool)
  deriving DecidableEq, Repr

end Sys2Proof
end

