-- ==== Sys2Proof/WellFormed.lean ====
section
/-! DEFINITION. Which terms of Instr are commands of the block: the one operand check the encoding states (R80, R83). -/

namespace Sys2Proof

/-- R80: A "must be 0 for DECOMPRESS"; R83: a word with OP = 0x3 and A = 1 is illegal.
FMT and FORCE take both values (R81). -/
def Instr.wellFormed : Instr → Bool
  | .preprocess _ => true
  | .compress _   => true
  | .decompress a => !a

/-- The check as a proposition. -/
abbrev Instr.WellFormed (i : Instr) : Prop := i.wellFormed = true

end Sys2Proof
end

