-- ==== Sys2Proof/Decode.lean ====
section
/-! DEFINITION. The command word: decoder (total, refusing by name) and encoder (R80 to R83; the words of R86).
A command word is one 32-bit value written to CMD: it has no bytes in a memory, so no byte order applies to it (R75). -/

namespace Sys2Proof

/-- Why a word is no command (R83). Each makes the block end the command with ILLEGAL_COMMAND. -/
inductive IllegalWord where
  /-- RES ≠ 0. -/
  | reservedBits
  /-- OP is 0x0 or 0x4 to 0xF. -/
  | reservedOp
  /-- OP = 0x3 with A = 1. -/
  | argumentNotZero
  deriving DecidableEq, Repr

/-- OP, bits 3:0 (R80). -/
def fieldOP (w : Word) : BitVec 4 := w.extractLsb' 0 4

/-- A, bit 4 (R80). -/
def fieldA (w : Word) : Bool := w.getLsbD 4

/-- RES, bits 31:5 (R80). -/
def fieldRES (w : Word) : BitVec 27 := w.extractLsb' 5 27

/-- R82: FMT = A selects the header format, 0 explicit counts, 1 explicit tree. -/
def HeaderFormat.ofBit : Bool → HeaderFormat
  | false => .counts
  | true  => .tree

/-- The bit of a header format: the inverse of ofBit, and what PLAN.FMT reads as (R23, R26). -/
def HeaderFormat.bit : HeaderFormat → Bool
  | .counts => false
  | .tree   => true

/-- The decoder of R81 to R83, total on every word. -/
def decode (w : Word) : Except IllegalWord Instr :=
  if fieldRES w ≠ 0 then .error .reservedBits
  else if fieldOP w = 1 then .ok (.preprocess (HeaderFormat.ofBit (fieldA w)))
  else if fieldOP w = 2 then .ok (.compress (fieldA w))
  else if fieldOP w = 3 then
    if fieldA w then .error .argumentNotZero else .ok (.decompress false)
  else .error .reservedOp

/-- The word with RES = 0 and the given A and OP (R80). -/
def commandWord (a : Bool) (op : BitVec 4) : Word := 0#27 ++ BitVec.ofBool a ++ op

/-- The encoder: the words of R81 (and, for a DECOMPRESS that is not well-formed, the illegal word its field gives). -/
def encode : Instr → Word
  | .preprocess fmt => commandWord fmt.bit 1
  | .compress force => commandWord force 2
  | .decompress a   => commandWord a 3

/-- What the decoder reads from a word whose low nbits bits are given, the bits above them zero
(bit 0 the least significant bit of the one word). -/
def decodeTableWord (nbits w : Nat) : Option Instr :=
  match decode (BitVec.ofNat 32 (w % 2 ^ nbits)) with
  | .ok i    => some i
  | .error _ => none

end Sys2Proof
end

