-- ==== Sys2Proof/Config.lean ====
section
/-! DEFINITION. What one implementation fixes and the spec leaves open as a named parameter (R6, R61, 92_eei_decisions D2, D4, D5;
93_implementation_defined I1 to I3). None of them has a body a proof could use: a claim holds for every value.
State.params holds them (assumption log 1), so that a claim over all states is a claim over all parameter values. -/

namespace Sys2Proof

/-- The open parameters of the block, wired into it: the constants the three ID registers read (R6, R21) and the base
address of the register window on the host bus (R61). -/
structure Params where
  MAGIC_NUMBER : Word
  SEL_COUNTS   : Word
  SEL_TREE     : Word
  CORE_BASE    : Nat
  deriving DecidableEq, Repr

/-- R6: "the single constraint SEL_COUNTS ≠ SEL_TREE". -/
abbrev Params.Distinct (p : Params) : Prop := p.SEL_COUNTS ≠ p.SEL_TREE

/-- OPEN (D4): "fixed 32-bit constant", no value in any source. -/
opaque Config.MAGIC_NUMBER : Word

/-- OPEN (D5): no value in any source. -/
opaque Config.SEL_COUNTS : Word

/-- OPEN (D5): the tree selector before the constraint of R6 is applied. -/
opaque Config.selTreeFree : Word

/-- OPEN under the constraint of R6: every value other than SEL_COUNTS can be this one, and SEL_COUNTS cannot
(assumption log 2). -/
def Config.SEL_TREE : Word :=
  if Config.selTreeFree = Config.SEL_COUNTS then ~~~ Config.SEL_COUNTS else Config.selTreeFree

/-- OPEN (D2): where the platform maps the register window. -/
opaque Config.CORE_BASE : Nat

/-- The parameters of the block that State.reset describes. -/
def Config.params : Params where
  MAGIC_NUMBER := Config.MAGIC_NUMBER
  SEL_COUNTS   := Config.SEL_COUNTS
  SEL_TREE     := Config.SEL_TREE
  CORE_BASE    := Config.CORE_BASE

end Sys2Proof
end

