-- ==== Sys2Proof/Machine/State.lean ====
section
/-! DEFINITION. The state of the block and of what stands around it (spec 10_state.md, 20_memory.md), as plain data; the reasons a
step can stop; and the state after reset (R33, R300). INVENTORY.md lists every field with its rule. The block has no memory
(R60), so State has no memory field. -/

namespace Sys2Proof.Machine

/-! ### Values -/

/-- R3: the alphabet, byte values 0 to 255 and PSEUDO_EOF = 256. -/
abbrev Symbol := Fin 257

/-- R3: "This spec fixes PSEUDO_EOF = 256". -/
def pseudoEof : Symbol := 256

/-- A node of a node store (R28). The children are owned, so one value of this type is one tree with no sharing and no
cycle. Weights are 64 bits (R8); a tree read from an explicit-tree header has weights 0 (R176). -/
inductive Tree where
  | leaf (sym : Symbol) (w : DWord)
  | node (l r : Tree) (w : DWord)
  deriving DecidableEq, Repr

/-- FREQ[0..255], 32-bit unsigned counts (R26). -/
abbrev FreqTable := Vector Word 256

/-- CODE[0..256] (R26): none is ABSENT; some [] is the present empty code (90_conflicts C8). -/
abbrev CodeTable := Vector (Option Bits) 257

/-- How a stream ends (R62): END, the data is exhausted, or FAIL, the underlying reader failed. -/
inductive Terminator where
  | eos
  | fail
  deriving DecidableEq, Repr

/-- What of a stream the host has supplied and the block has not read (R62, R314).
term = none: the host has not yet supplied the terminator, so a read past the bytes waits. -/
structure Stream where
  bytes : List Byte
  term  : Option Terminator
  deriving DecidableEq, Repr

/-- A stream of which the host has supplied nothing yet. -/
def Stream.unsupplied : Stream := { bytes := [], term := none }

/-- The error codes of R270 that a raise can carry. Codes 9 to 15 are never produced (93 I21). -/
inductive Err where
  | streamReadFailure
  | formatMismatch
  | headerCorruption
  | truncatedStream
  | illegalCommand
  | noPlan
  | planMismatch
  | capacityExceeded
  deriving DecidableEq, Repr

/-! ### The parts of the state -/

/-- The plan (R26): the state PREPROCESS writes and COMPRESS reads. -/
structure Plan where
  valid    : Bool
  fmt      : HeaderFormat
  freq     : FreqTable
  origBits : DWord
  tree     : Tree
  code     : CodeTable
  hdr      : Bits
  projBits : DWord
  deriving DecidableEq, Repr

/-- The decoder state (R29), separate from the plan. -/
structure Decoder where
  tree : Tree
  node : Tree
  nsym : DWord
  deriving DecidableEq, Repr

/-- The bit writer (R30): BW.ACC and BW.NOUT. BW.K is the length of BW.ACC (BitWriter.k, assumption log 3). -/
structure BitWriter where
  acc  : Bits
  nout : DWord
  deriving DecidableEq, Repr

/-- The bit reader (R30): BR.CUR, the last byte fetched, and BR.K, how many of its bits are not yet consumed. -/
structure BitReader where
  cur : Byte
  k   : Nat
  deriving DecidableEq, Repr

/-- One internal node that the tree parser of R176 has met and not finished: its left child is still to come, or its left
child is done and its right child is to come. -/
inductive Frame where
  | left
  | right (l : Tree)
  deriving DecidableEq, Repr

/-- The variables of HDR_DEC_TREE (R176) with the open calls of PARSE as a stack, innermost first (R181: at most 257 calls).
T declared length, c serialization bits consumed, ni internal nodes met, seen leaf values met. -/
structure ParseState where
  T     : Nat
  c     : Nat
  ni    : Nat
  seen  : List Symbol
  stack : List Frame
  deriving DecidableEq, Repr

/-- Where a ReadBits (R64) returns its value: the line of R240, R175 or R176 that called it, with that line's variables. -/
inductive ReadCont where
  /-- R240 step 1. -/
  | magic
  /-- R240 step 2. -/
  | selector
  /-- R175: the count of symbol s, F the table read so far. -/
  | count (s : Fin 256) (F : FreqTable)
  /-- R176: the length field T. -/
  | treeLen
  /-- R176: the TAKE(1) of PARSE. -/
  | token (p : ParseState)
  /-- R176: the TAKE(9) of PARSE. -/
  | leafValue (p : ParseState)
  /-- R240 step 4: one DATA bit. -/
  | dataBit
  deriving DecidableEq, Repr

/-- What follows once a bit string has been written (R67). -/
inductive EmitCont where
  /-- R220: the symbol loop. -/
  | toSymbols
  /-- R220: Flush(), after the EOF code. -/
  | toFlush
  /-- R220: return BW.NOUT. -/
  | toReturn
  /-- R240 step 4: DEC.NSYM + 1, DEC.NODE <- DEC.TREE, and the loop again. -/
  | toWalk
  deriving DecidableEq, Repr

/-- R31: "the position reached in the pseudocode of the running command". -/
inductive Pos where
  /-- The first line of PREPROCESS(FMT) (R210). -/
  | preprocess (fmt : HeaderFormat)
  /-- The top of COUNT's loop (R110), n symbols counted. -/
  | count (fmt : HeaderFormat) (n : DWord)
  /-- The first line of COMPRESS(FORCE) (R220). -/
  | compress (force : Bool)
  /-- The top of COMPRESS's symbol loop (R220). -/
  | symbols
  /-- The first line of DECOMPRESS() (R240). -/
  | decompress
  /-- Inside a ReadBits (R64): n bits still to take, v the value of those taken. -/
  | read (n v : Nat) (k : ReadCont)
  /-- The top of the symbol decode loop (R240 step 4). -/
  | walk
  /-- Inside a WriteBits or WriteString (R67): rest is what is still to be appended. -/
  | emit (rest : Bits) (k : EmitCont)
  /-- At "return v": the completion of R85 is next. -/
  | ret (v : DWord)
  deriving DecidableEq, Repr

/-- PHASE (R31): IDLE, or BUSY at a position. -/
inductive Phase where
  | idle
  | busy (pos : Pos)
  deriving DecidableEq, Repr

/-- What the world outside the block does to it next (R20, R60, R300): a host access to the register window, by offset or by bus
address; the polling loop WAIT of R86; the host presenting the stream of the next command, or supplying more of one; the
platform's reset input; or nothing. Access sizes are in bytes. -/
inductive Event where
  | write (off size : Nat) (v : Word)
  | read (off size : Nat)
  | busWrite (addr size : Nat) (v : Word)
  | busRead (addr size : Nat)
  | wait
  | present (st : Stream)
  | supply (bytes : List Byte) (term : Option Terminator)
  | reset
  | pass
  deriving DecidableEq, Repr

/-- An event, and how many block steps are made after it before the next event lands (none: as many as the block can make).
R321: "no rule depends on it" (assumption log 6). -/
structure Timed where
  event : Event
  pace  : Option Nat
  deriving DecidableEq, Repr

/-! ### The reasons a step can stop -/

/-- The machine never stops with a fault: every word, every access and every stream has an outcome of the spec, and an error of
a command is a completion with ERRCODE set (R85, R279), so this type has no constructor. Safe: nothing is hidden by it. -/
inductive Fault where
  deriving DecidableEq, Repr

/-- The one refusal is the one the task fixes. -/
inductive Refusal where
  /-- Raised by no arm: every row of the opcode table has its meaning. It would be safe. -/
  | notModelled (mnemonic : String)
  deriving DecidableEq, Repr

/-! ### The state -/

/-- Everything the spec gives the block, the two ports, and the events still to come from outside. -/
structure State where
  /-- The open parameters (R6, R61), never written. -/
  params  : Params
  /-- PHASE (R31); STATUS.BUSY mirrors it. -/
  phase   : Phase
  /-- STATUS.DONE (R23). -/
  done    : Bool
  /-- STATUS.ERR (R23). -/
  err     : Bool
  /-- ERRCODE.CODE (R24). -/
  errcode : BitVec 4
  /-- RESULT_HI:RESULT_LO (R25). -/
  result  : DWord
  /-- PLAN, FREQ and CODE (R26). -/
  plan    : Plan
  /-- DEC (R29). -/
  dec     : Decoder
  /-- BW (R30). -/
  bw      : BitWriter
  /-- BR (R30). -/
  br      : BitReader
  /-- The unread rest of the running command's stream (R62, R66). -/
  inCur   : Stream
  /-- The stream the host presents for the next command (R62, R66). -/
  inNext  : Stream
  /-- Every byte delivered to the OUT port, oldest first (R69, R72). -/
  out     : List Byte
  /-- The model's own: what the host's last read returned (R61, R72). -/
  rdata   : Word
  /-- The model's own: what the outside does next, first event first (R31, R73). -/
  events  : List Timed
  /-- The model's own: block steps before the next event lands (R321). -/
  pace    : Option Nat
  deriving DecidableEq, Repr

/-! ### Reset -/

/-- The plan after reset: VALID = 0 (R33); the rest is unspecified and unobservable, and holds the values of assumption log 4. -/
def Plan.reset : Plan where
  valid    := false
  fmt      := .counts
  freq     := Vector.replicate 256 0
  origBits := 0
  tree     := .leaf pseudoEof 0
  code     := Vector.replicate 257 none
  hdr      := []
  projBits := 0

/-- The decoder after reset: unspecified, the values of assumption log 4. -/
def Decoder.reset : Decoder where
  tree := .leaf pseudoEof 0
  node := .leaf pseudoEof 0
  nsym := 0

/-- The bit writer after reset: unspecified, the values of assumption log 4. -/
def BitWriter.reset : BitWriter := { acc := [], nout := 0 }

/-- The bit reader after reset: unspecified, the values of assumption log 4. -/
def BitReader.reset : BitReader := { cur := 0, k := 0 }

/-- R33, R300: the block after reset, nothing presented on IN, nothing delivered on OUT and no event to come. -/
def State.reset : State where
  params  := Config.params
  phase   := .idle
  done    := false
  err     := false
  errcode := 0
  result  := 0
  plan    := Plan.reset
  dec     := Decoder.reset
  bw      := BitWriter.reset
  br      := BitReader.reset
  inCur   := Stream.unsupplied
  inNext  := Stream.unsupplied
  out     := []
  rdata   := 0
  events  := []
  pace    := none

end Sys2Proof.Machine
end

