-- ==== Sys2Proof/Machine/Operands.lean ====
section
/-! DEFINITION. Bit strings and their values (00_scope §5, R65), codes of errors (R270), and the decoding of an access into the
register window (R61). -/

namespace Sys2Proof.Machine

/-- bin_n(v): "the n-bit string of the unsigned integer v, most significant bit first". -/
def bin : Nat → Nat → Bits
  | 0, _     => []
  | n + 1, v => v.testBit n :: bin n v

/-- val(s): "the unsigned integer whose MSB-first string is s". -/
def val (s : Bits) : Nat := s.foldl (fun v b => 2 * v + b.toNat) 0

/-- R65: the bit string of a byte sequence; stream bit 8·j + i is bit (7 − i) of byte j. -/
def bitsOf (bs : List Byte) : Bits := bs.flatMap fun b => bin 8 b.toNat

/-- The numeric code of an error (R270). -/
def Err.code : Err → BitVec 4
  | .streamReadFailure => 1
  | .formatMismatch    => 2
  | .headerCorruption  => 3
  | .truncatedStream   => 4
  | .illegalCommand    => 5
  | .noPlan            => 6
  | .planMismatch      => 7
  | .capacityExceeded  => 8

/-- A byte of the IN port as a symbol (R3). -/
def Symbol.ofByte (b : Byte) : Symbol := ⟨b.toNat, Nat.lt_succ_of_lt b.isLt⟩

/-- The registers of the window (R21). -/
inductive Reg where
  | CMD
  | STATUS
  | ERRCODE
  | RESULT_LO
  | RESULT_HI
  | ID_MAGIC
  | ID_SEL_COUNTS
  | ID_SEL_TREE
  deriving DecidableEq, Repr

/-- R61: the register an access reaches. Only a 4-byte access at 0x00, 0x04, ..., 0x1C reaches one. -/
def regAt (off size : Nat) : Option Reg :=
  if size = 4 then
    match off with
    | 0x00 => some .CMD
    | 0x04 => some .STATUS
    | 0x08 => some .ERRCODE
    | 0x0C => some .RESULT_LO
    | 0x10 => some .RESULT_HI
    | 0x14 => some .ID_MAGIC
    | 0x18 => some .ID_SEL_COUNTS
    | 0x1C => some .ID_SEL_TREE
    | _    => none
  else none

/-- R60, R61: the window is the 32 bytes from CORE_BASE on; a bus address outside it does not reach the block. -/
def windowOffset (p : Params) (addr : Nat) : Option Nat :=
  if p.CORE_BASE ≤ addr ∧ addr < p.CORE_BASE + 32 then some (addr - p.CORE_BASE) else none

end Sys2Proof.Machine
end

