-- ==== Sys2Proof/Machine/Flags.lean ====
section
/-! DEFINITION. STATUS and the other readable registers (R21 to R25): views of the state, computed in one place. -/

namespace Sys2Proof.Machine

/-- STATUS.BUSY (R23, R31). -/
def State.busy (s : State) : Bool :=
  match s.phase with
  | .idle   => false
  | .busy _ => true

/-- STATUS.PLAN_FMT (R23): "PLAN.FMT when PLAN.VALID = 1; 0 when PLAN.VALID = 0". -/
def State.planFmt (s : State) : Bool := s.plan.valid && s.plan.fmt.bit

/-- STATUS (R23): bit 0 BUSY, 1 DONE, 2 ERR, 3 PLAN_VALID, 4 PLAN_FMT, 31:5 read as 0. -/
def State.status (s : State) : Word :=
  0#27 ++ BitVec.ofBool s.planFmt ++ BitVec.ofBool s.plan.valid ++ BitVec.ofBool s.err
    ++ BitVec.ofBool s.done ++ BitVec.ofBool s.busy

/-- The value a register reads as (R21 to R25). CMD "holds no value: a read returns 0". -/
def readReg (s : State) : Reg → Word
  | .CMD           => 0
  | .STATUS        => s.status
  | .ERRCODE       => s.errcode.setWidth 32
  | .RESULT_LO     => s.result.extractLsb' 0 32
  | .RESULT_HI     => s.result.extractLsb' 32 32
  | .ID_MAGIC      => s.params.MAGIC_NUMBER
  | .ID_SEL_COUNTS => s.params.SEL_COUNTS
  | .ID_SEL_TREE   => s.params.SEL_TREE

/-- A read of the window (R61): an access that reaches no register "returns 0". -/
def readWindow (s : State) (off size : Nat) : Word :=
  match regAt off size with
  | some r => readReg s r
  | none   => 0

end Sys2Proof.Machine
end

