-- ==== Sys2Proof/Machine/Ops.lean ====
section
/-! DEFINITION. The operations the commands share: acceptance (R84), completion (R85), the error entry (R279), and the port
primitives InByte, ReadBits, WriteBits and Flush (R63 to R68). Each ReadBits and each WriteBits is written bit by bit, as the
spec writes them, so that the position inside one is part of the state (R31). -/

namespace Sys2Proof.Machine

/-- The running command goes on at position p. -/
def State.goto (s : State) (p : Pos) : State := { s with phase := .busy p }

/-! ### Acceptance and completion -/

/-- R84: BUSY <- 1, DONE <- 0, ERR <- 0, ERRCODE.CODE <- 0, RESULT <- 0, and R66: BW.K <- 0, BW.ACC <- [], BW.NOUT <- 0,
BR.K <- 0. The IN port is not touched here (takeStream). -/
def accept (p : Pos) (s : State) : State :=
  { s with
    phase := .busy p, done := false, err := false, errcode := 0, result := 0
    bw := { acc := [], nout := 0 }
    br := { s.br with k := 0 } }

/-- R66: "the IN port is positioned before the first byte of the stream the host presents for that command". What the host
presents for the command after it is still to come (assumption log 8). -/
def takeStream (s : State) : State := { s with inCur := s.inNext, inNext := Stream.unsupplied }

/-- R85: a command completes with a code and a result. -/
def complete (code : BitVec 4) (v : DWord) (s : State) : State :=
  { s with phase := .idle, done := true, err := code != 0, errcode := code, result := v }

/-- R279, R70: raise E ends the command with the code of E and RESULT <- BW.NOUT; the bits pending in BW.ACC are discarded; every
effect made before stays. This is the block's one way of taking an error; there is no return from it (R281). -/
def raise (e : Err) (s : State) : State :=
  { complete e.code s.bw.nout s with bw := { s.bw with acc := [] } }

/-- R83: an illegal word is accepted and completes at once with ILLEGAL_COMMAND; "the plan, the IN port and the OUT port are
untouched" (assumption log 9). -/
def illegalCommand (s : State) : State := raise .illegalCommand (accept (.ret 0) s)

/-! ### The IN port -/

/-- What InByte() finds (R63), with the wait of R314. -/
inductive InResult where
  | byte (b : Byte) (s : State)
  | eos
  | fail
  | wait

/-- The unread bytes of the running command's stream become r. -/
def State.setBytes (s : State) (r : List Byte) : State := { s with inCur := { bytes := r, term := s.inCur.term } }

/-- InByte() (R63): the next unread byte, consumed by its fetch (R72). -/
def inByte (s : State) : InResult :=
  match s.inCur.bytes with
  | b :: rest => .byte b (s.setBytes rest)
  | [] =>
    match s.inCur.term with
    | some .eos  => .eos
    | some .fail => .fail
    | none       => .wait

/-- What the line that called ReadBits does on EOS: R240 steps 1 and 2, R175 and R176, R240 step 4. -/
def eosError : ReadCont → Err
  | .magic       => .formatMismatch
  | .selector    => .formatMismatch
  | .count _ _   => .headerCorruption
  | .treeLen     => .headerCorruption
  | .token _     => .headerCorruption
  | .leafValue _ => .headerCorruption
  | .dataBit     => .truncatedStream

/-- The two last lines of ReadBits's loop (R64): v <- 2*v + BR.CUR[BR.K - 1]; BR.K <- BR.K - 1. n bits are to come after. -/
def takeBit (n v : Nat) (k : ReadCont) (s : State) : State :=
  { s with
    br := { s.br with k := s.br.k - 1 }
    phase := .busy (.read n (2 * v + (s.br.cur.getLsbD (s.br.k - 1)).toNat) k) }

/-- One turn of ReadBits's loop (R64): a byte is fetched only when BR.K = 0; EOS and FAIL end the command; a byte that is neither
supplied nor replaced by a terminator is waited for (R314). -/
def readBit (n v : Nat) (k : ReadCont) (s : State) : State :=
  if s.br.k = 0 then
    match inByte s with
    | .byte b s' => takeBit n v k { s' with br := { cur := b, k := 8 } }
    | .eos       => raise (eosError k) s
    | .fail      => raise .streamReadFailure s
    | .wait      => s
  else takeBit n v k s

/-! ### The OUT port -/

/-- BW.K (R30): the number of pending bits. -/
def BitWriter.k (bw : BitWriter) : Nat := bw.acc.length

/-- EmitBit(b) (R67): the OUT port accepts the byte as soon as BW.K reaches 8 (R69). -/
def emitBit (b : Bool) (s : State) : State :=
  if s.bw.k + 1 = 8 then
    { s with
      out := s.out ++ [BitVec.ofNat 8 (val (s.bw.acc ++ [b]))]
      bw  := { acc := [], nout := s.bw.nout + 8 } }
  else { s with bw := { acc := s.bw.acc ++ [b], nout := s.bw.nout } }

/-- Flush() (R68): the zero bits it appends. -/
def flushBits (bw : BitWriter) : Bits := List.replicate ((8 - bw.k) % 8) false

end Sys2Proof.Machine
end

