-- ==== Sys2Proof/Machine/FrequencyCounter.lean ====
section
/-! DEFINITION. The Frequency Counter, COUNT (spec 41_frequency_counter.md). What follows the loop is in Compressor.lean. -/

namespace Sys2Proof.Machine

/-- R110: "for s in 0..255: FREQ[s] <- 0; n <- 0", and R210's "PLAN.VALID <- 0" before it. -/
def startCount (fmt : HeaderFormat) (s : State) : State :=
  { s with plan := { s.plan with valid := false, freq := Vector.replicate 256 0 }, phase := .busy (.count fmt 0) }

/-- FREQ[b] (R26). -/
def freqOf (F : FreqTable) (b : Byte) : Word := F[b.toNat]'b.isLt

/-- One byte of COUNT's loop (R110, R112): the count ceiling is tested before the increment. -/
def countByte (fmt : HeaderFormat) (n : DWord) (b : Byte) (s : State) : State :=
  if freqOf s.plan.freq b = BitVec.allOnes 32 then raise .capacityExceeded s
  else
    { s with
      plan := { s.plan with freq := s.plan.freq.set b.toNat (freqOf s.plan.freq b + 1) b.isLt }
      phase := .busy (.count fmt (n + 1)) }

end Sys2Proof.Machine
end

