-- ==== Sys2Proof/Machine/TreeBuilder.lean ====
section
/-! DEFINITION. The Tree Builder, BUILD (spec 42_tree_builder.md): a pure function of the 256 counts (R135). -/

namespace Sys2Proof.Machine

/-- weight(n) (00_scope §5). -/
def Tree.weight : Tree → DWord
  | .leaf _ w   => w
  | .node _ _ w => w

/-- Insert(n) (R131): after the entries before the first one of greater weight. -/
def insertNode (n : Tree) : List Tree → List Tree
  | []      => [n]
  | x :: wl => if x.weight ≤ n.weight then x :: insertNode n wl else n :: x :: wl

/-- The byte symbols in ascending value, each with its count. -/
def symbolCounts (F : FreqTable) : List (Fin 256 × Word) := (List.finRange 256).zip F.toList

/-- R132, the loop over the byte symbols: in ascending symbol value, those with F[s] > 0. -/
def insertLeaves (F : FreqTable) : List Tree :=
  (symbolCounts F).foldl
    (fun wl sc => if sc.2 = 0 then wl else insertNode (.leaf sc.1.castSucc (sc.2.setWidth 64)) wl) []

/-- R132: the worklist before the first merge; the pseudo-EOF leaf comes last. -/
def initialWorklist (F : FreqTable) : List Tree :=
  insertNode (.leaf pseudoEof 1) (insertLeaves F)

/-- R133: the first two nodes are removed, combined (the first removed is the left child) and reinserted, while there are two.
Each merge shortens the worklist by one, so as many turns as it has nodes are enough. -/
def mergeAll : Nat → List Tree → List Tree
  | 0, wl                 => wl
  | turns + 1, a :: b :: wl => mergeAll turns (insertNode (.node a b (a.weight + b.weight)) wl)
  | _ + 1, wl             => wl

/-- BUILD(F) (R134): the root. The worklist is never empty (R132); the other case of the match is never reached. -/
def build (F : FreqTable) : Tree :=
  let wl := initialWorklist F
  match mergeAll wl.length wl with
  | root :: _ => root
  | []        => .leaf pseudoEof 1

end Sys2Proof.Machine
end

