-- ==== Sys2Proof/Machine/CodeTable.lean ====
section
/-! DEFINITION. The Code Table Generator, GEN_CODES (spec 43_code_table.md). -/

namespace Sys2Proof.Machine

/-- GEN(n, p) (R150): at a leaf CODE[s] <- p; at an internal node left with 0 appended, then right with 1 appended. -/
def genInto : Tree → Bits → CodeTable → CodeTable
  | .leaf s _, p, code   => code.set s (some p)
  | .node l r _, p, code => genInto r (p ++ [true]) (genInto l (p ++ [false]) code)

/-- GEN_CODES(root) (R150): every code ABSENT first, then GEN(root, []). -/
def genCodes (root : Tree) : CodeTable := genInto root [] (Vector.replicate 257 none)

/-- The bits of CODE[s]. An ABSENT code has none: no command of a valid plan writes one (R154, assumption log 14). -/
def codeBits (code : CodeTable) (s : Symbol) : Bits := (code[s]).getD []

/-- The greatest length of a code of a table. -/
def longestCode (code : CodeTable) : Nat :=
  code.toList.foldl (fun m c => max m (c.getD []).length) 0

end Sys2Proof.Machine
end

