-- ==== Sys2Proof/Machine/HeaderCodec.lean ====
section
/-! DEFINITION. The Header Codec (spec 44_header_codec.md; formats of 30_encoding R92, R93): the two encoders, and the two decoders
as what follows each ReadBits of theirs. -/

namespace Sys2Proof.Machine

/-! ### Encoders -/

/-- Ser (R93): preorder; an internal node is 0, a leaf is 1 and its symbol in 9 bits. -/
def ser : Tree → Bits
  | .leaf s _   => true :: bin 9 s.val
  | .node l r _ => false :: (ser l ++ ser r)

/-- HDR_ENC_COUNTS (R170, R92). -/
def headerCounts (F : FreqTable) : Bits := F.toList.flatMap fun c => bin 32 c.toNat

/-- HDR_ENC_TREE (R171, R93). -/
def headerTree (root : Tree) : Bits := bin 32 (ser root).length ++ ser root

/-- PLAN.HDR for a header format (R210). -/
def headerOf (fmt : HeaderFormat) (F : FreqTable) (root : Tree) : Bits :=
  match fmt with
  | .counts => headerCounts F
  | .tree   => headerTree root

/-! ### Decoders -/

/-- R240: "DEC.NSYM <- 0; DEC.NODE <- DEC.TREE", once the header decoder has set DEC.TREE. -/
def startWalk (root : Tree) (s : State) : State :=
  { s with dec := { tree := root, node := root, nsym := 0 }, phase := .busy .walk }

/-- HDR_DEC_COUNTS (R175), the loop body after its ReadBits: F[s] <- v, then the next symbol, or BUILD. -/
def countRead (i : Fin 256) (F : FreqTable) (v : Nat) (s : State) : State :=
  let F' := F.set i (BitVec.ofNat 32 v)
  if h : i.val + 1 < 256 then s.goto (.read 32 0 (.count ⟨i.val + 1, h⟩ F'))
  else startWalk (build F') s

/-- TAKE(n) (R176) up to its read: the length bound is tested first (R178). -/
def takeField (n : Nat) (k : ParseState → ReadCont) (p : ParseState) (s : State) : State :=
  if p.c + n > p.T then raise .headerCorruption s else s.goto (.read n 0 (k p))

/-- HDR_DEC_TREE (R176), its first lines after T is read. -/
def treeLenRead (v : Nat) (s : State) : State :=
  takeField 1 .token { T := v, c := 0, ni := 0, seen := [], stack := [] } s

/-- PARSE's return of a subtree (R176): into the innermost open node, which either waits for its right child next, or is complete
with it and returned in turn. none: the outermost call has returned the whole tree. -/
def plug (t : Tree) : List Frame → Tree ⊕ List Frame
  | []             => .inl t
  | .left :: st    => .inr (.right t :: st)
  | .right l :: st => plug (.node l t 0) st

/-- HDR_DEC_TREE (R176), its last lines: DEC.TREE is the parsed tree; it must be exactly T bits long and hold PSEUDO_EOF. -/
def parseDone (root : Tree) (p : ParseState) (s : State) : State :=
  let s' := { s with dec := { s.dec with tree := root } }
  if p.c ≠ p.T then raise .headerCorruption s'
  else if pseudoEof ∉ p.seen then raise .headerCorruption s'
  else startWalk root s'

/-- PARSE (R176) after its TAKE(1): an INTERNAL token opens a node, a LEAF token is followed by TAKE(9). -/
def tokenRead (p : ParseState) (v : Nat) (s : State) : State :=
  let p' := { p with c := p.c + 1 }
  if v = 0 then
    if p.ni + 1 > 256 then raise .headerCorruption s
    else takeField 1 .token { p' with ni := p.ni + 1, stack := .left :: p.stack } s
  else takeField 9 .leafValue p' s

/-- PARSE (R176) after its TAKE(9): the leaf value must be at most 256 and new. -/
def leafValueRead (p : ParseState) (v : Nat) (s : State) : State :=
  let p' := { p with c := p.c + 9 }
  if h : v < 257 then
    let sym : Symbol := ⟨v, h⟩
    if sym ∈ p.seen then raise .headerCorruption s
    else
      let p'' := { p' with seen := sym :: p.seen }
      match plug (.leaf sym 0) p.stack with
      | .inl root => parseDone root p'' s
      | .inr st   => takeField 1 .token { p'' with stack := st } s
  else raise .headerCorruption s

end Sys2Proof.Machine
end

