-- ==== Sys2Proof/Machine/Compressor.lean ====
section
/-! DEFINITION. The Compressor (spec 45_compressor.md): the steps of PREPROCESS and COMPRESS between two port accesses. -/

namespace Sys2Proof.Machine

/-! ### PREPROCESS -/

/-- B rounded up to a multiple of 8 (R212): B + ((8 - (B mod 8)) mod 8). -/
def roundUp8 (n : Nat) : Nat := n + (8 - n % 8) % 8

/-- D of R212: the sum over the byte symbols of FREQ[s] * |CODE[s]|; ABSENT codes contribute 0. The two tables are read side by
side, and the shorter one, FREQ, ends the sum before PSEUDO_EOF. -/
def dataBits (F : FreqTable) (code : CodeTable) : Nat :=
  (List.zipWith (fun f c => f.toNat * (c.getD []).length) F.toList code.toList).sum

/-- PROJECTED() (R212), exact on natural numbers (R9). -/
def projected (F : FreqTable) (code : CodeTable) (hdr : Bits) : Nat :=
  roundUp8 (32 + 32 + hdr.length + dataBits F code + (codeBits code pseudoEof).length)

/-- The plan a PREPROCESS(fmt) makes of a table of counts and its number of symbols (R210, R111). -/
def planOf (fmt : HeaderFormat) (F : FreqTable) (n : DWord) : Plan :=
  let tree := build F
  let code := genCodes tree
  let hdr  := headerOf fmt F tree
  { valid := true, fmt := fmt, freq := F, origBits := 8 * n, tree := tree, code := code, hdr := hdr
    projBits := BitVec.ofNat 64 (projected F code hdr) }

/-- R210 from the end of COUNT to PLAN.VALID <- 1; the return value is the savings, PLAN.ORIG_BITS - PLAN.PROJ_BITS, in 64-bit two's
complement (R214). -/
def finishPlan (fmt : HeaderFormat) (n : DWord) (s : State) : State :=
  let plan := planOf fmt s.plan.freq n
  { s with plan := plan, phase := .busy (.ret (plan.origBits - plan.projBits)) }

/-- One turn of COUNT's loop (R110), and what follows its break (R210). -/
def countStep (fmt : HeaderFormat) (n : DWord) (s : State) : State :=
  match inByte s with
  | .byte b s' => countByte fmt n b s'
  | .eos       => finishPlan fmt n s
  | .fail      => raise .streamReadFailure s
  | .wait      => s

/-! ### COMPRESS -/

/-- The selector of a header format (R91). -/
def selectorOf (p : Params) : HeaderFormat → Word
  | .counts => p.SEL_COUNTS
  | .tree   => p.SEL_TREE

/-- R220, R90: the magic number, the selector and PLAN.HDR. -/
def streamHead (p : Params) (plan : Plan) : Bits :=
  bin 32 p.MAGIC_NUMBER.toNat ++ bin 32 (selectorOf p plan.fmt).toNat ++ plan.hdr

/-- R221: the force policy, on the plan alone. "Exceeds" is strict. -/
def skips (force : Bool) (plan : Plan) : Bool := decide (plan.projBits > plan.origBits) && !force

/-- The first lines of COMPRESS(FORCE) (R220): NO_PLAN (R223), then the skip (R221), then the stream is begun. -/
def startCompress (force : Bool) (s : State) : State :=
  if s.plan.valid = false then raise .noPlan s
  else if skips force s.plan then s.goto (.ret 0)
  else s.goto (.emit (streamHead s.params s.plan) .toSymbols)

/-- One byte of the symbol loop (R220): a byte whose FREQ is 0 has no code (R224). -/
def symbolByte (b : Byte) (s : State) : State :=
  if freqOf s.plan.freq b = 0 then raise .planMismatch s
  else s.goto (.emit (codeBits s.plan.code (Symbol.ofByte b)) .toSymbols)

/-- One turn of the symbol loop (R220), and the EOF code after its break. -/
def symbolStep (s : State) : State :=
  match inByte s with
  | .byte b s' => symbolByte b s'
  | .eos       => s.goto (.emit (codeBits s.plan.code pseudoEof) .toFlush)
  | .fail      => raise .streamReadFailure s
  | .wait      => s

end Sys2Proof.Machine
end

