-- ==== Sys2Proof/Machine/Decompressor.lean ====
section
/-! DEFINITION. The Decompressor (spec 46_decompressor.md): the steps of DECOMPRESS between two port accesses. -/

namespace Sys2Proof.Machine

/-- R240 step 1 (R241): the magic number must be MAGIC_NUMBER. -/
def magicRead (v : Nat) (s : State) : State :=
  if BitVec.ofNat 32 v ≠ s.params.MAGIC_NUMBER then raise .formatMismatch s
  else s.goto (.read 32 0 .selector)

/-- R240 steps 2 and 3 (R242, R243): the selector chooses the header decoder. -/
def selectorRead (v : Nat) (s : State) : State :=
  let f : Word := BitVec.ofNat 32 v
  if f = s.params.SEL_COUNTS then s.goto (.read 32 0 (.count 0 (Vector.replicate 256 0)))
  else if f = s.params.SEL_TREE then s.goto (.read 32 0 .treeLen)
  else raise .formatMismatch s

/-- R240 step 4, after a DATA bit: DEC.NODE <- (b = 0) ? l : r. A bit is read only at an internal node (R246), so the other case of
the match is never reached (assumption log 15). -/
def dataBitRead (v : Nat) (s : State) : State :=
  match s.dec.node with
  | .node l r _ => { s with dec := { s.dec with node := if v = 0 then l else r }, phase := .busy .walk }
  | .leaf _ _   => s.goto .walk

/-- The top of the symbol decode loop (R240 step 4; R244, R246, R247). -/
def walkStep (s : State) : State :=
  match s.dec.node with
  | .leaf sym _ =>
    if sym = pseudoEof then s.goto (.ret s.bw.nout)
    else s.goto (.emit (bin 8 sym.val) .toWalk)
  | .node _ _ _ => s.goto (.read 1 0 .dataBit)

/-- R240 step 4, after a symbol is written: DEC.NSYM <- DEC.NSYM + 1; DEC.NODE <- DEC.TREE. -/
def symbolWritten (s : State) : State :=
  { s with dec := { s.dec with nsym := s.dec.nsym + 1, node := s.dec.tree }, phase := .busy .walk }

end Sys2Proof.Machine
end

