-- ==== Sys2Proof/Machine/Block.lean ====
section
/-! DEFINITION. One step of the block at each position of the pseudocode (R31), and the block making several. A step ends at the
next port access, bit of a bit string or return (R321 leaves the number of steps open). -/

namespace Sys2Proof.Machine

/-- A ReadBits (R64) has its value v: the line that called it goes on. -/
def readDone (k : ReadCont) (v : Nat) (s : State) : State :=
  match k with
  | .magic       => magicRead v s
  | .selector    => selectorRead v s
  | .count i F   => countRead i F v s
  | .treeLen     => treeLenRead v s
  | .token p     => tokenRead p v s
  | .leafValue p => leafValueRead p v s
  | .dataBit     => dataBitRead v s

/-- A bit string is written (R67): what comes next in the pseudocode. -/
def emitDone (k : EmitCont) (s : State) : State :=
  match k with
  | .toSymbols => s.goto .symbols
  | .toFlush   => s.goto (.emit (flushBits s.bw) .toReturn)
  | .toReturn  => s.goto (.ret s.bw.nout)
  | .toWalk    => symbolWritten s

/-- One block step of the running command, at position p. -/
def posStep (p : Pos) (s : State) : State :=
  match p with
  | .preprocess fmt   => startCount fmt s
  | .count fmt n      => countStep fmt n s
  | .compress force   => startCompress force s
  | .symbols          => symbolStep s
  | .decompress       => s.goto (.read 32 0 .magic)
  | .read 0 v k       => readDone k v s
  | .read (n + 1) v k => readBit n v k s
  | .walk             => walkStep s
  | .emit [] k        => emitDone k s
  | .emit (b :: r) k  => (emitBit b s).goto (.emit r k)
  | .ret v            => complete 0 v s

/-- One block step. While IDLE the block waits for a command (R302). -/
def blockStep (s : State) : State :=
  match s.phase with
  | .idle   => s
  | .busy p => posStep p s

/-- Whether position p is at an InByte(), with the bit reader at k unconsumed bits. -/
def Pos.fetches (k : Nat) : Pos → Bool
  | .count _ _      => true
  | .symbols        => true
  | .read (_ + 1) _ _ => k = 0
  | _               => false

/-- IDLE, or waiting for a byte that is neither supplied nor replaced by a terminator (R314): no block step changes the state. -/
def State.quiescent (s : State) : Bool :=
  match s.phase with
  | .idle   => true
  | .busy p => p.fetches s.br.k && s.inCur.bytes.isEmpty && s.inCur.term.isNone

/-- Up to n block steps, stopping where the block is quiescent. -/
def run : Nat → State → State
  | 0, s     => s
  | n + 1, s => if s.quiescent then s else run n (blockStep s)

/-- The bits of the bit string being written that are still to come. -/
def State.pendingBits (s : State) : Nat :=
  match s.phase with
  | .busy (.emit rest _) => rest.length
  | _                    => 0

/-- More block steps than a command can make before it completes or waits (R320): 16 for each unread bit of the stream, one code for
each unread byte and two more, the header, and what is being written. -/
def horizon (s : State) : Nat :=
  16 * (8 * s.inCur.bytes.length + s.br.k)
    + (s.inCur.bytes.length + 2) * (longestCode s.plan.code + 4)
    + s.plan.hdr.length + s.pendingBits + 128

/-- The block's steps before the next event lands (R321): as many as the pace says, or until it is quiescent. -/
def progress (s : State) : State :=
  match s.pace with
  | some k => run k s
  | none   => run (horizon s) s

end Sys2Proof.Machine
end

