-- ==== Sys2Proof/Machine/Commands.lean ====
section
/-! DEFINITION. The meanings of the three commands (R210, R220, R240): a command word written to CMD while BUSY = 0 is accepted (R84)
and runs until it completes (R85) or waits for its stream (R314); written while BUSY = 1 it "is ignored and changes no state" (R22). -/

namespace Sys2Proof.Machine

/-- A legal command word written to CMD: R22, R84, R66, then the block's own steps from the first line p of its pseudocode. -/
def command (p : Pos) (s : State) : Host.Outcome State Fault Refusal :=
  if s.busy then .next s else .next (progress (takeStream (accept p s)))

/-- PREPROCESS(FMT) (R210). -/
def execPreprocess (fmt : HeaderFormat) (s : State) : Host.Outcome State Fault Refusal :=
  command (.preprocess fmt) s

/-- COMPRESS(FORCE) (R220). -/
def execCompress (force : Bool) (s : State) : Host.Outcome State Fault Refusal :=
  command (.compress force) s

/-- DECOMPRESS() (R240). With A = 1 the word is illegal (R83) and ends with ILLEGAL_COMMAND. -/
def execDecompress (a : Bool) (s : State) : Host.Outcome State Fault Refusal :=
  if a then (if s.busy then .next s else .next (illegalCommand s)) else command .decompress s

end Sys2Proof.Machine
end

