-- ==== Sys2Proof/Machine/Dispatch.lean ====
section
/-! DEFINITION. The meaning of each command: one arm per constructor of Instr. -/

namespace Sys2Proof.Machine

def exec (i : Instr) (s : State) : Host.Outcome State Fault Refusal :=
  match i with
  | .preprocess fmt => Sys2Proof.Machine.execPreprocess fmt s
  | .compress force => Sys2Proof.Machine.execCompress force s
  | .decompress a => Sys2Proof.Machine.execDecompress a s

end Sys2Proof.Machine
end

