-- ==== Sys2Proof/Machine/HostPort.lean ====
section
/-! DEFINITION. What the outside does to the block: register accesses (R21, R22, R61, R72), the polling loop (R86), the supply of IN
streams (R62, R314) and the reset input (R300, R301). -/

namespace Sys2Proof.Machine

/-- A word written to CMD (R22): decoded and run while BUSY = 0, ignored while BUSY = 1. An illegal word is accepted and completes
with ILLEGAL_COMMAND (R83). -/
def writeCmd (w : Word) (s : State) : Host.Outcome State Fault Refusal :=
  if s.busy then .next (progress s)
  else
    match decode w with
    | .ok i    => exec i s
    | .error _ => .next (illegalCommand s)

/-- A write to the window (R61, R72): only CMD takes it; every other register ignores it (R21, R23 to R25), and an access that reaches
no register has no effect. -/
def writeWindow (off size : Nat) (v : Word) (s : State) : Host.Outcome State Fault Refusal :=
  match regAt off size with
  | some .CMD => writeCmd v s
  | _         => .next (progress s)

/-- A read of the window (R61, R72): it has no effect but the value the host gets. -/
def hostRead (off size : Nat) (s : State) : State := { s with rdata := readWindow s off size }

/-- How many block steps WAIT lets pass before it reads STATUS again: as many as its pace says, and at least one, so that a host that
goes on polling lets the block go on (R321, weak fairness; assumption log 18). -/
def nextPoll (pace : Option Nat) : Option Nat := pace.map (max 1)

/-- One turn of WAIT (R86): t <- RD STATUS; if t[0] = 1 goto loop. -/
def waitTurn (s : State) : State :=
  let s' := { s with rdata := s.status }
  if s.busy then { s' with events := { event := .wait, pace := s.pace } :: s.events, pace := nextPoll s.pace } else s'

/-- More of a stream (R62, R314). A stream whose terminator is supplied takes no more (assumption log 10). -/
def Stream.supply (st : Stream) (bytes : List Byte) (term : Option Terminator) : Stream :=
  match st.term with
  | some _ => st
  | none   => { bytes := st.bytes ++ bytes, term := term }

/-- The host supplies more of the running command's stream. While IDLE there is none: "the block reads nothing after its command
completes" (R62), and the stream of the next command is presented whole or begun by an Event.present (assumption log 10). -/
def supplyMore (bytes : List Byte) (term : Option Terminator) (s : State) : State :=
  if s.busy then { s with inCur := s.inCur.supply bytes term } else s

/-- The reset input (R300, R301): the block's state becomes that of R33, a running command is abandoned without a completion, its
pending bits and the rest of its stream are dropped, and the plan is invalid. The bytes delivered stay delivered; the parameters
and what belongs to the outside stay. -/
def resetBlock (s : State) : State :=
  { State.reset with
    params := s.params, inNext := s.inNext, out := s.out, rdata := s.rdata, events := s.events, pace := s.pace }

/-- What an event does, and the block's steps before the next one. -/
def act (e : Event) (s : State) : Host.Outcome State Fault Refusal :=
  match e with
  | .write off size v => writeWindow off size v s
  | .read off size    => .next (progress (hostRead off size s))
  | .busWrite addr size v =>
    match windowOffset s.params addr with
    | some off => writeWindow off size v s
    | none     => .next (progress s)
  | .busRead addr size =>
    match windowOffset s.params addr with
    | some off => .next (progress (hostRead off size s))
    | none     => .next (progress s)
  | .wait             => .next (progress (waitTurn s))
  | .present st       => .next (progress { s with inNext := st })
  | .supply bs term   => .next (progress (supplyMore bs term s))
  | .reset            => .next (resetBlock s)
  | .pass             => .next (progress s)

/-- One step of the machine: the next event from outside, or, when there is none, the block alone (R73, R321). -/
def advance (s : State) : Host.Outcome State Fault Refusal :=
  match s.events with
  | []                => .next (run (horizon s) s)
  | t :: rest => act t.event { s with events := rest, pace := t.pace }

/-- A command word as the outside's next event: a 4-byte write to CMD (offset 0x00). -/
def commandEvent (w : Word) : Timed := { event := .write 0x00 4 w, pace := none }

end Sys2Proof.Machine
end

