-- ==== Sys2Proof/Machine/Step.lean ====
section
/-! DEFINITION. The machine's step, and the state in which the next step runs a given command word. -/

namespace Sys2Proof.Machine

/-- One step: the next event from outside acts on the block (R20, R73). -/
def step (s : State) : Host.Outcome State Fault Refusal := advance s

/-- The state whose very next step runs the command word w: the host's next access writes it to CMD, and the block is IDLE, since a
word written while BUSY is ignored (R22). The block fetches no instructions (R75); assumption log 7. -/
def State.withFetchWord (s : State) (nbits w : Nat) : State :=
  { s with phase := .idle, events := commandEvent (BitVec.ofNat 32 (w % 2 ^ nbits)) :: s.events }

end Sys2Proof.Machine
end

