-- ==== Sys2Proof/Safety.lean ====
section
/-! DEFINITION. The vocabulary of the claims: leaves and paths of a tree, the compressed stream of R90, the bits a command has not
read yet, and the invariant of the machine. -/

namespace Sys2Proof.Machine

/-! ### Trees -/

/-- The symbols of a tree's leaves, left to right. -/
def Tree.leaves : Tree → List Symbol
  | .leaf s _   => [s]
  | .node l r _ => l.leaves ++ r.leaves

/-- The number of internal nodes of a tree (R136). -/
def Tree.internals : Tree → Nat
  | .leaf _ _   => 0
  | .node l r _ => l.internals + r.internals + 1

/-- The number of edges from the root down to the deepest leaf (R136). -/
def Tree.depth : Tree → Nat
  | .leaf _ _   => 0
  | .node l r _ => max l.depth r.depth + 1

/-- The node a path leads to (00_scope §5: 0 left, 1 right). -/
def Tree.follow : Tree → Bits → Option Tree
  | t, []                  => some t
  | .leaf _ _, _ :: _      => none
  | .node l _ _, false :: p => l.follow p
  | .node _ r _, true :: p  => r.follow p

/-- The tree with every weight 0: what an explicit-tree header carries of it (R93, R176). -/
def Tree.unweighted : Tree → Tree
  | .leaf s _   => .leaf s 0
  | .node l r _ => .node l.unweighted r.unweighted 0

/-- Every internal node's weight is the sum of its children's, exactly: no weight wraps (R133, R138). -/
def Tree.WeightsExact : Tree → Prop
  | .leaf _ _   => True
  | .node l r w => l.WeightsExact ∧ r.WeightsExact ∧ w.toNat = l.weight.toNat + r.weight.toNat

/-- A worklist in non-decreasing order of weight (R130). -/
def Ordered (wl : List Tree) : Prop := wl.Pairwise fun a b => a.weight ≤ b.weight

/-- The sum of the 256 counts. -/
def total (F : FreqTable) : Nat := (F.toList.map BitVec.toNat).sum

/-- The byte symbols that occur, in ascending value (R132). -/
def occurring (F : FreqTable) : List Symbol :=
  ((symbolCounts F).filter fun sc => sc.2 ≠ 0).map fun sc => sc.1.castSucc

/-! ### The compressed stream -/

/-- R94: CODE[b1] ++ CODE[b2] ++ ... -/
def dataOf (plan : Plan) (bs : List Byte) : Bits := bs.flatMap fun b => codeBits plan.code (Symbol.ofByte b)

/-- R90: the stream before its padding. -/
def streamBits (p : Params) (plan : Plan) (bs : List Byte) : Bits :=
  streamHead p plan ++ dataOf plan bs ++ codeBits plan.code pseudoEof

/-- R90, R94: a bit string padded with 0 to 7 zero bits to a byte boundary. -/
def padded (s : Bits) : Bits := s ++ List.replicate ((8 - s.length % 8) % 8) false

/-! ### The running command -/

/-- The bits of the running command's stream that are not yet consumed (R64, R65): the BR.K low bits of BR.CUR, most significant
first, then those of the unread bytes. -/
def State.unread (s : State) : Bits := bin s.br.k s.br.cur.toNat ++ bitsOf s.inCur.bytes

/-- Every bit the OUT port and the bit writer have taken (R67). -/
def State.written (s : State) : Bits := bitsOf s.out ++ s.bw.acc

/-- The leaf values of the subtrees PARSE has finished inside the open nodes (R176). -/
def openLeaves : List Frame → List Symbol
  | []             => []
  | .left :: st    => openLeaves st
  | .right l :: st => l.leaves ++ openLeaves st

/-- What holds of PARSE's variables whenever it reads (R176, R177). -/
structure ParseOk (p : ParseState) : Prop where
  within    : p.c ≤ p.T
  internals : p.ni ≤ 256
  seen      : ∀ x, x ∈ p.seen ↔ x ∈ openLeaves p.stack

/-- A tree in which the walk from the root ends: PSEUDO_EOF is present (R177 f, R249). -/
def EofTree (t : Tree) : Prop := pseudoEof ∈ t.leaves

/-- What holds at each position of the pseudocode (R31). -/
def PosOk (s : State) : Pos → Prop
  | .preprocess _        => True
  | .count _ n           => s.plan.valid = false ∧ n = BitVec.ofNat 64 (total s.plan.freq)
  | .compress _          => True
  | .symbols             => s.plan.valid = true
  | .decompress          => True
  | .read _ _ .magic     => True
  | .read _ _ .selector  => True
  | .read _ _ (.count _ _) => True
  | .read _ _ .treeLen   => True
  | .read _ _ (.token p) => ParseOk p
  | .read _ _ (.leafValue p) => ParseOk p
  | .read _ _ .dataBit   => EofTree s.dec.tree ∧ s.dec.node.internals ≠ 0
  | .walk                => EofTree s.dec.tree
  | .emit _ .toSymbols   => s.plan.valid = true
  | .emit _ .toFlush     => s.plan.valid = true
  | .emit _ .toReturn    => s.plan.valid = true
  | .emit _ .toWalk      => EofTree s.dec.tree
  | .ret _               => True

/-- R23, R24, R25, R85: BUSY and DONE are never both 1; ERR is 1 exactly when ERRCODE.CODE ≠ 0; codes 9 to 15 are never produced; and
while a command runs ERRCODE and RESULT read 0. -/
structure StatusOk (s : State) : Prop where
  exclusive : s.busy = true → s.done = false
  err       : s.err = (s.errcode != 0)
  produced  : s.errcode.toNat ≤ 8
  running   : s.busy = true → s.errcode = 0 ∧ s.result = 0

/-- R30: BW.K is 0 to 7, BW.NOUT counts whole bytes. BR.K is 0 to 8 there; a block step that fetches a byte also takes its first
bit, so between two steps it is 0 to 7 (assumption log 12). -/
structure PortsOk (s : State) : Prop where
  acc  : s.bw.k < 8
  nout : s.bw.nout.toNat % 8 = 0
  br   : s.br.k < 8

/-- R26: while PLAN.VALID = 1 the rest of the plan is what a PREPROCESS makes of the counts it holds. -/
def PlanOk (p : Plan) : Prop := p.valid = true → p = planOf p.fmt p.freq (BitVec.ofNat 64 (total p.freq))

/-- The invariant of the machine. -/
structure State.Inv (s : State) : Prop where
  params : s.params.Distinct
  status : StatusOk s
  ports  : PortsOk s
  plan   : PlanOk s.plan
  pos    : ∀ p, s.phase = .busy p → PosOk s p

/-- A state in which the host may write a command and the command has the block to itself: invariant, IDLE, stream st presented (R62),
and no event landing while it runs (R321). -/
structure Ready (s : State) (st : Stream) : Prop where
  inv    : s.Inv
  idle   : s.phase = .idle
  alone  : s.pace = none
  stream : s.inNext = st

/-- The block between commands (R85, R31): PHASE = IDLE, DONE = 1, with the given error code and result. -/
structure Ended (s : State) (code : BitVec 4) (v : DWord) : Prop where
  idle    : s.phase = .idle
  done    : s.done = true
  err     : s.err = (code != 0)
  errcode : s.errcode = code
  result  : s.result = v
  pending : s.bw.acc = []

/-- R83: a word is illegal when RES ≠ 0, or OP is not 0x1, 0x2 or 0x3, or OP = 0x3 with A = 1, by the value of the word. -/
def Illegal (w : Word) : Prop :=
  w.toNat / 32 ≠ 0 ∨ (w.toNat % 16 ≠ 1 ∧ w.toNat % 16 ≠ 2 ∧ w.toNat % 16 ≠ 3) ∨
    (w.toNat % 16 = 3 ∧ w.toNat / 16 % 2 = 1)

/-! ### Commands and their streams -/

/-- What no command touches: the parameters, and what belongs to the host (R21, R72, R73). -/
structure OutsideKept (s t : State) : Prop where
  params : t.params = s.params
  rdata  : t.rdata = s.rdata
  events : t.events = s.events
  pace   : t.pace = s.pace

/-- No byte value occurs more than 2^32 − 1 times (R110, R112). -/
def CountsFit (bs : List Byte) : Prop := ∀ b, bs.count b < 2 ^ 32

/-- Every byte has a code in the plan (R224). -/
def Coded (plan : Plan) (bs : List Byte) : Prop := ∀ b ∈ bs, freqOf plan.freq b ≠ 0

/-- R177: the bits r begin with an explicit-tree header that the decoder accepts. -/
def ValidTreeHeader (r : Bits) : Prop :=
  ∃ (u : Tree) (rest : Bits), u.leaves.Nodup ∧ EofTree u ∧ r = headerTree u ++ rest

/-- t is the state after n steps of the machine from s, each of which answers a next state. -/
def Steps : Nat → State → State → Prop
  | 0, s, t     => s = t
  | n + 1, s, t => ∃ u, step s = .next u ∧ Steps n u t

/-- The selector and header h of a stream describe the tree a decoder rebuilds from them: a serialized tree with no symbol twice and
a PSEUDO_EOF leaf, whose weights are not carried (R93, R176), or the tree BUILD makes of the 256 counts (R92, R175). -/
def Describes (p : Params) (h : Bits) (tree : Tree) : Prop :=
  (∃ t : Tree, t.leaves.Nodup ∧ EofTree t ∧ h = bin 32 p.SEL_TREE.toNat ++ headerTree t ∧ tree = t.unweighted) ∨
  (∃ F : FreqTable, h = bin 32 p.SEL_COUNTS.toNat ++ headerCounts F ∧ tree = build F)

end Sys2Proof.Machine
end

