-- ==== Sys2Proof/Certificates/Slice0/Obligations.lean ====
section
/-! DEFINITION. The statements of this row, from the numbered rules of spec/. Ready, Ended, OutsideKept, CountsFit, Coded, Describes,
padded and the tree vocabulary are defined in Safety.lean. Where a clause is the model's own choice the docstring names the log entry. -/

open Sys2Proof Sys2Proof.Machine

/-! ### The command word -/

/-- R81, R86: the five command words and what each selects. -/
def Obligations.OpcodeMapWordsDecode : Prop :=
  decode 0x00000001 = .ok (.preprocess .counts) ∧ decode 0x00000011 = .ok (.preprocess .tree) ∧
  decode 0x00000002 = .ok (.compress false) ∧ decode 0x00000012 = .ok (.compress true) ∧
  decode 0x00000003 = .ok (.decompress false)

/-- R80 to R82: decoding the word of a well-formed instruction gives the instruction back, with its argument. -/
def Obligations.DecodeInvertsEncode : Prop :=
  ∀ i : Instr, i.WellFormed → decode (encode i) = .ok i

/-- R80 to R83: the decoder gives an instruction on exactly the words the encoder writes for well-formed instructions. -/
def Obligations.DecodesExactlyTheEncodedWords : Prop :=
  ∀ (w : Word) (i : Instr), decode w = .ok i ↔ i.WellFormed ∧ w = encode i

/-- R83: a word is rejected exactly when it is illegal; written while BUSY = 0 it is accepted and completes at once with
ILLEGAL_COMMAND (5) and RESULT 0, and the plan, the decoder, IN and OUT are untouched. The same holds of exec on the one instruction
that is not well-formed, DECOMPRESS with A = 1. That acceptance initialises the cursors (R84, R66) is log entry 9's reading. -/
def Obligations.IllegalWordsEndWithIllegalCommand : Prop :=
  (∀ w : Word, Illegal w ↔ ∃ e, decode w = .error e) ∧
  ∀ s : State, s.busy = false →
    ∀ o, ((∃ w, Illegal w ∧ o = writeWindow 0 4 w s) ∨ o = exec (.decompress true) s) →
      ∃ t, o = .next t ∧ Ended t 5 0 ∧ t.plan = s.plan ∧ t.dec = s.dec ∧ t.inCur = s.inCur ∧ t.inNext = s.inNext ∧
        t.out = s.out ∧ t.bw.nout = 0 ∧ t.br = { s.br with k := 0 } ∧ OutsideKept s t

/-! ### The register window and the step -/

/-- A step runs the decoded command (R22, R73, R75): when the next event from outside writes a word that decodes to i to CMD while the
block is IDLE, the step is exec i of the state with that event removed; withFetchWord makes it the next event; with no event left the
block makes its own steps (log entries 6 and 7). -/
def Obligations.StepRunsTheDecodedCommand : Prop :=
  (∀ (s : State) (w : Word) (i : Instr) (p : Option Nat) (rest : List Timed), s.phase = .idle → decode w = .ok i →
    step { s with events := { event := .write 0 4 w, pace := p } :: rest } = exec i { s with events := rest, pace := p }) ∧
  (∀ (s : State) (nbits w : Nat) (i : Instr), decodeTableWord nbits w = some i →
    step (s.withFetchWord nbits w) = exec i { s with phase := .idle, pace := none }) ∧
  (∀ s : State, s.events = [] → step s = .next (run (horizon s) s))

/-- R22: the command port. A 32-bit write to CMD while BUSY = 0 is decoded and run; while BUSY = 1 the step is the one that would be
made had nothing been written; a read returns 0; and the fields of the word. -/
def Obligations.CmdIsTheCommandPort : Prop :=
  (∀ (s : State) (w : Word) (i : Instr), s.busy = false → decode w = .ok i → act (.write 0x00 4 w) s = exec i s) ∧
  (∀ (s : State) (w : Word) (e : IllegalWord), s.busy = false → decode w = .error e →
    act (.write 0x00 4 w) s = .next (illegalCommand s)) ∧
  (∀ (s : State) (w : Word), s.busy = true → act (.write 0x00 4 w) s = act .pass s) ∧
  (∀ s : State, readWindow s 0x00 4 = 0) ∧
  (∀ w : Word, (fieldOP w).toNat = w.toNat % 16 ∧ (fieldA w = true ↔ w.toNat / 16 % 2 = 1) ∧
    (fieldRES w).toNat = w.toNat / 32)

/-- R61: only naturally aligned 32-bit accesses at 0x00 to 0x1C reach a register; any other has no effect and a read of it returns 0;
on the bus the window lies at CORE_BASE. -/
def Obligations.OtherAccessesHaveNoEffect : Prop :=
  (∀ (s : State) (off size : Nat) (v : Word), ¬ (size = 4 ∧ off % 4 = 0 ∧ off < 32) →
    act (.write off size v) s = act .pass s ∧ act (.read off size) s = act .pass { s with rdata := 0 }) ∧
  (∀ (s : State) (off size : Nat) (v : Word), off < 32 →
    act (.busWrite (s.params.CORE_BASE + off) size v) s = act (.write off size v) s ∧
    act (.busRead (s.params.CORE_BASE + off) size) s = act (.read off size) s)

/-- R21, R23 to R25: what the registers read as, field by field. -/
def Obligations.RegistersReadAsSpecified : Prop :=
  ∀ s : State,
    readWindow s 0x00 4 = 0 ∧
    (readWindow s 0x04 4).getLsbD 0 = s.busy ∧ (readWindow s 0x04 4).getLsbD 1 = s.done ∧
    (readWindow s 0x04 4).getLsbD 2 = s.err ∧ (readWindow s 0x04 4).getLsbD 3 = s.plan.valid ∧
    (readWindow s 0x04 4).getLsbD 4 = (s.plan.valid && s.plan.fmt.bit) ∧
    (∀ i, 5 ≤ i → (readWindow s 0x04 4).getLsbD i = false) ∧
    (readWindow s 0x08 4).toNat = s.errcode.toNat ∧
    readWindow s 0x10 4 ++ readWindow s 0x0C 4 = s.result ∧
    readWindow s 0x14 4 = s.params.MAGIC_NUMBER ∧ readWindow s 0x18 4 = s.params.SEL_COUNTS ∧
    readWindow s 0x1C 4 = s.params.SEL_TREE

/-- R72, R21, R23 to R25: a read has no side effect (the step differs from one without a read only in the value the host gets), and a
write has one only at CMD. -/
def Obligations.ReadsAndOtherWritesHaveNoSideEffect : Prop :=
  (∀ (s : State) (off size : Nat), ∃ t, act .pass s = .next t ∧
    act (.read off size) s = .next { t with rdata := readWindow s off size }) ∧
  (∀ (s : State) (off size : Nat) (v : Word), ¬ (off = 0 ∧ size = 4) → act (.write off size v) s = act .pass s)

/-- R86: WAIT polls STATUS, again while it reads BUSY = 1. R321: whatever the pace, a host that polls lets the block go on, so that a
WAIT for a command whose stream has its terminator ends, and the next event lands. WAIT is a polling event of the model's host, and that
at least one block step is made between two polls is its form of weak fairness (log entry 18). -/
def Obligations.WaitPollsUntilNotBusy : Prop :=
  (∀ (s : State) (p : Option Nat) (rest : List Timed),
    (s.busy = false → ∃ t, step { s with events := { event := .wait, pace := p } :: rest } = .next t ∧
      t.rdata = s.status ∧ t.events = rest) ∧
    (s.busy = true → ∃ t, step { s with events := { event := .wait, pace := p } :: rest } = .next t ∧
      t.rdata = s.status ∧ t.events = { event := .wait, pace := p } :: rest)) ∧
  ∀ (s : State) (p : Option Nat) (rest : List Timed), s.Inv → (s.busy = true → s.inCur.term ≠ none) →
    ∃ n t, Steps n { s with events := { event := .wait, pace := p } :: rest } t ∧ t.busy = false ∧ t.events = rest

/-- R84, R66: acceptance, in one step (no block step is made yet: pace 0): the status, the cursors, the stream, and the first line of
the command the word selects; nothing else changes. That the presented stream then counts as used up is log entry 8. -/
def Obligations.AcceptanceInitialises : Prop :=
  ∀ (s : State) (i : Instr), s.busy = false → s.pace = some 0 → i.WellFormed →
    ∃ t, exec i s = .next t ∧ t.busy = true ∧ t.done = false ∧ t.err = false ∧ t.errcode = 0 ∧ t.result = 0 ∧
      t.bw = { acc := [], nout := 0 } ∧ t.br.k = 0 ∧ t.inCur = s.inNext ∧ t.inNext = Stream.unsupplied ∧
      t.phase = .busy (match i with
        | .preprocess fmt => .preprocess fmt
        | .compress force => .compress force
        | .decompress _   => .decompress) ∧
      t.plan = s.plan ∧ t.dec = s.dec ∧ t.out = s.out ∧ OutsideKept s t

/-- R85, R24, R25: the normal completion of a command with result v, which changes nothing else. -/
def Obligations.NormalCompletion : Prop :=
  ∀ (s : State) (v : DWord), s.phase = .busy (.ret v) →
    ∃ t, run 1 s = t ∧ t.phase = .idle ∧ t.done = true ∧ t.err = false ∧ t.errcode = 0 ∧ t.result = v ∧
      t.plan = s.plan ∧ t.dec = s.dec ∧ t.bw = s.bw ∧ t.br = s.br ∧ t.out = s.out ∧ t.inCur = s.inCur ∧ t.inNext = s.inNext ∧
      OutsideKept s t

/-- R279, R70, R85: the error entry: the code of E, RESULT = BW.NOUT, the pending bits discarded, every effect made before kept. -/
def Obligations.ErrorEntry : Prop :=
  ∀ (s : State) (e : Err),
    Ended (raise e s) e.code s.bw.nout ∧ (raise e s).err = true ∧ (raise e s).bw.nout = s.bw.nout ∧
    (raise e s).out = s.out ∧ (raise e s).plan = s.plan ∧ (raise e s).dec = s.dec ∧ (raise e s).br = s.br ∧
    (raise e s).inCur = s.inCur ∧ (raise e s).inNext = s.inNext ∧ OutsideKept s (raise e s)

/-- R270: the numeric codes. -/
def Obligations.ErrorCodesOfTheTable : Prop :=
  Err.streamReadFailure.code = 1 ∧ Err.formatMismatch.code = 2 ∧ Err.headerCorruption.code = 3 ∧
  Err.truncatedStream.code = 4 ∧ Err.illegalCommand.code = 5 ∧ Err.noPlan.code = 6 ∧ Err.planMismatch.code = 7 ∧
  Err.capacityExceeded.code = 8

/-! ### The ports -/

/-- R271, R63: STREAM_READ_FAILURE is raised by a block step exactly when it is at a read (directly an InByte, or a ReadBits that
needs a byte), no byte remains, and the terminator is FAIL; the step then is the error entry and nothing else. -/
def Obligations.ReadFailureExactlyAtAFailTerminator : Prop :=
  ∀ (s : State) (p : Pos), s.Inv → s.phase = .busy p →
    ((p.fetches s.br.k = true ∧ s.inCur.bytes = [] ∧ s.inCur.term = some .fail) ↔
      run 1 s = raise .streamReadFailure s ∧ (run 1 s).errcode = 1) ∧
    ((run 1 s).errcode = 1 → run 1 s = raise .streamReadFailure s)

/-- R64, R65: ReadBits(n) takes the next n bits of the stream, most significant first, and gives their value; only the bit reader and
the unread bytes move. -/
def Obligations.ReadBitsTakesTheNextBits : Prop :=
  ∀ (s : State) (n : Nat) (k : ReadCont), PortsOk s → s.phase = .busy (.read n 0 k) → n ≤ s.unread.length →
    ∃ m br r, run m s = { s with
        phase := .busy (.read 0 (val (s.unread.take n)) k), br := br, inCur := { bytes := r, term := s.inCur.term } } ∧
      br.k < 8 ∧ bin br.k br.cur.toNat ++ bitsOf r = s.unread.drop n

/-- R64, R240, R175, R176, R271: a ReadBits(n) that finds the stream exhausted ends the command: with the error its caller names when
the terminator is END, with STREAM_READ_FAILURE when it is FAIL; nothing is written. -/
def Obligations.ShortReadsEndTheCommand : Prop :=
  ∀ (s : State) (n : Nat) (k : ReadCont) (x : Terminator), PortsOk s → s.phase = .busy (.read n 0 k) →
    s.unread.length < n → s.inCur.term = some x →
    ∃ m t, run m s = t ∧
      Ended t (match x with
        | .fail => 1
        | .eos  => match k with
          | .magic | .selector => 2
          | .count _ _ | .treeLen | .token _ | .leafValue _ => 3
          | .dataBit => 4) s.bw.nout ∧
      t.out = s.out ∧ t.plan = s.plan ∧ t.dec = s.dec ∧ t.inCur.bytes = [] ∧ OutsideKept s t

/-- R67, R69: the bits of a WriteBits or WriteString are appended in order; whole bytes are delivered to OUT at once and counted; at
most 7 bits stay pending; nothing else changes. -/
def Obligations.WrittenBitsReachOut : Prop :=
  ∀ (s : State) (bits : Bits) (k : EmitCont), PortsOk s → s.phase = .busy (.emit bits k) →
    ∃ m o bw, run m s = { s with phase := .busy (.emit [] k), out := s.out ++ o, bw := bw } ∧
      s.bw.acc ++ bits = bitsOf o ++ bw.acc ∧ bw.k < 8 ∧ bw.nout = s.bw.nout + BitVec.ofNat 64 (8 * o.length)

/-- R68: Flush appends (8 − BW.K) mod 8 zero bits, between 0 and 7, so that the last partial byte is delivered and BW.K = 0. -/
def Obligations.FlushPadsToAByte : Prop :=
  ∀ s : State, PortsOk s → s.phase = .busy (.emit [] .toFlush) →
    ∃ m o, run m s = { s with
        phase := .busy (.emit [] .toReturn), out := s.out ++ o
        bw := { acc := [], nout := s.bw.nout + BitVec.ofNat 64 (8 * o.length) } } ∧
      bitsOf o = s.bw.acc ++ List.replicate ((8 - s.bw.k) % 8) false ∧ (8 - s.bw.k) % 8 ≤ 7

/-! ### The Tree Builder -/

/-- R130: the worklist starts empty and is in non-decreasing order of weight at every point of BUILD: after every insertion into an
ordered worklist, before the first merge, and after any number of merges. -/
def Obligations.WorklistStaysOrdered : Prop :=
  Ordered [] ∧ (∀ n wl, Ordered wl → Ordered (insertNode n wl)) ∧
  ∀ (F : FreqTable) (k : Nat), Ordered (mergeAll k (initialWorklist F))

/-- R131: Insert places a node after every entry of smaller or equal weight and before every entry of greater weight, and leaves the
entries in their order. -/
def Obligations.InsertionPlacesAfterEquals : Prop :=
  ∀ n wl, Ordered wl →
    insertNode n wl = wl.filter (fun t => t.weight ≤ n.weight) ++ n :: wl.filter (fun t => n.weight < t.weight)

/-- R132, R134: the tree BUILD returns has a leaf for PSEUDO_EOF with weight 1, one for each byte symbol that occurs with its count as
weight, and no other; no symbol has two. -/
def Obligations.BuildCoversTheOccurringSymbols : Prop :=
  ∀ F : FreqTable,
    (build F).leaves.Nodup ∧
    (∃ p, (build F).follow p = some (.leaf pseudoEof 1)) ∧
    (∀ b : Byte, freqOf F b ≠ 0 → ∃ p, (build F).follow p = some (.leaf (Symbol.ofByte b) ((freqOf F b).setWidth 64))) ∧
    (∀ p s w, (build F).follow p = some (.leaf s w) →
      (s = pseudoEof ∧ w = 1) ∨ ∃ b : Byte, s = Symbol.ofByte b ∧ freqOf F b ≠ 0 ∧ w = (freqOf F b).setWidth 64)

/-- R136: with K byte symbols of non-zero count and L = K + 1: L leaves, 1 ≤ L ≤ 257, L − 1 internal nodes (one for each merge), so
2L − 1 nodes in all, at most 513, and no leaf deeper than L − 1 edges, at most 256. -/
def Obligations.BuiltTreeSizes : Prop :=
  ∀ F : FreqTable,
    let K := (F.toList.filter fun c => c ≠ 0).length
    (build F).leaves.length = K + 1 ∧ K + 1 ≤ 257 ∧ (build F).internals = K ∧
    (build F).leaves.length + (build F).internals = 2 * (K + 1) - 1 ∧ 2 * (K + 1) - 1 ≤ 513 ∧
    (build F).depth ≤ K ∧ K ≤ 256

/-- R138: the root's weight is 1 + Σ F[s], below 2^40, and no weight of the tree wraps: every internal node weighs exactly its two
children. -/
def Obligations.WeightsAreExact : Prop :=
  ∀ F : FreqTable,
    (build F).weight.toNat = 1 + total F ∧ 1 + total F < 2 ^ 40 ∧ (build F).WeightsExact

/-- R137: the tree and the codes when no byte symbol occurs, and when exactly one does. -/
def Obligations.SmallestTrees : Prop :=
  (∀ F : FreqTable, (∀ b, freqOf F b = 0) → build F = .leaf pseudoEof 1) ∧
  (∀ (F : FreqTable) (s : Byte), (∀ b, b ≠ s → freqOf F b = 0) →
    (freqOf F s = 1 →
      build F = .node (.leaf (Symbol.ofByte s) 1) (.leaf pseudoEof 1) 2 ∧
      (genCodes (build F))[Symbol.ofByte s] = some [false] ∧ (genCodes (build F))[pseudoEof] = some [true]) ∧
    (1 < (freqOf F s).toNat →
      build F = .node (.leaf pseudoEof 1) (.leaf (Symbol.ofByte s) ((freqOf F s).setWidth 64))
        ((freqOf F s).setWidth 64 + 1) ∧
      (genCodes (build F))[pseudoEof] = some [false] ∧ (genCodes (build F))[Symbol.ofByte s] = some [true]))

/-! ### The code table -/

/-- R154: a byte symbol with FREQ[s] = 0 has no leaf, and its code is ABSENT; CODE[s] is present exactly when FREQ[s] > 0 or
s = PSEUDO_EOF. -/
def Obligations.CodePresentExactlyWhenItOccurs : Prop :=
  ∀ F : FreqTable,
    ((genCodes (build F))[pseudoEof]).isSome = true ∧
    ∀ b : Byte, (((genCodes (build F))[Symbol.ofByte b]).isSome = true ↔ 0 < (freqOf F b).toNat) ∧
      (freqOf F b = 0 → Symbol.ofByte b ∉ (build F).leaves ∧ (genCodes (build F))[Symbol.ofByte b] = none)

/-- R151: the code of a symbol is the path of its leaf; every code is unique and no code is a prefix of another. -/
def Obligations.CodesArePrefixFreeLeafPaths : Prop :=
  ∀ F : FreqTable,
    (∀ (s : Symbol) (q : Bits), (genCodes (build F))[s] = some q ↔ ∃ w, (build F).follow q = some (.leaf s w)) ∧
    ∀ (s t : Symbol) (q r : Bits), s ≠ t → (genCodes (build F))[s] = some q → (genCodes (build F))[t] = some r →
      q ≠ r ∧ ¬ q <+: r

/-- R152: with L ≥ 2 leaves every present code has length 1 to L − 1, at most 256, and the sum over present codes of 2^(−length) is 1
(multiplied by 2^256, so that it is a sum of natural numbers). -/
def Obligations.CodesFillTheTree : Prop :=
  ∀ F : FreqTable, 2 ≤ (build F).leaves.length →
    (∀ (s : Symbol) (q : Bits), (genCodes (build F))[s] = some q →
      1 ≤ q.length ∧ q.length ≤ (build F).leaves.length - 1 ∧ q.length ≤ 256) ∧
    ((genCodes (build F)).toList.map fun c => match c with
      | some q => 2 ^ (256 - q.length)
      | none   => 0).sum = 2 ^ 256

/-- R153: when no byte occurs PSEUDO_EOF has the empty code and every other code is ABSENT; it is the only case with an empty code. -/
def Obligations.EmptyCodeOnlyForTheEmptyInput : Prop :=
  ∀ F : FreqTable,
    ((∀ b, freqOf F b = 0) →
      (genCodes (build F))[pseudoEof] = some [] ∧ ∀ s : Symbol, s ≠ pseudoEof → (genCodes (build F))[s] = none) ∧
    ∀ s : Symbol, (genCodes (build F))[s] = some [] → ∀ b, freqOf F b = 0

/-! ### The headers -/

/-- R172: a tree with L leaves serializes to 11·L − 1 bits: 10 for each leaf and one for each of its L − 1 internal nodes; for a tree
with no symbol twice 10 ≤ |S| ≤ 2826, |S| mod 11 = 10, and the explicit-tree header is 32 + 11·L − 1 bits. -/
def Obligations.TreeSerializationLength : Prop :=
  ∀ t : Tree,
    (ser t).length = 11 * t.leaves.length - 1 ∧ (ser t).length = 10 * t.leaves.length + t.internals ∧
    t.internals = t.leaves.length - 1 ∧
    (t.leaves.Nodup → 10 ≤ (ser t).length ∧ (ser t).length ≤ 2826) ∧ (ser t).length % 11 = 10 ∧
    (headerTree t).length = 32 + 11 * t.leaves.length - 1

/-- R92, R170: the explicit-counts header is 8192 bits, and the count of symbol s is stream bits 64 + 32·s to 95 + 32·s, that is bytes
8 + 4·s to 11 + 4·s. -/
def Obligations.CountsHeaderLayout : Prop :=
  ∀ (p : Params) (plan : Plan), plan.fmt = .counts → plan.hdr = headerOf plan.fmt plan.freq plan.tree →
    plan.hdr.length = 8192 ∧
    ∀ b : Byte,
      ((streamHead p plan).drop (64 + 32 * b.toNat)).take 32 = bin 32 (freqOf plan.freq b).toNat ∧
      ∀ bytes : List Byte, streamHead p plan <+: bitsOf bytes →
        bitsOf ((bytes.drop (8 + 4 * b.toNat)).take 4) = bin 32 (freqOf plan.freq b).toNat

/-- R93, R95, R180: a serialization tells its own end and its tree: no two trees that differ in more than weights have serializations
of which one begins the other. -/
def Obligations.TreeSerializationIsUniquelyDecodable : Prop :=
  ∀ (t u : Tree) (a b : Bits), ser t ++ a = ser u ++ b → t.unweighted = u.unweighted ∧ a = b

/-! ### PREPROCESS -/

/-- R210, R110, R111, R211, R212, R214: PREPROCESS on a stream that ends normally completes; it reads the whole stream, makes the plan of
its counts, and answers the exact savings; OUT, the decoder and everything outside stay. -/
def Obligations.PreprocessMakesThePlan : Prop :=
  ∀ (s : State) (fmt : HeaderFormat) (bs : List Byte), Ready s ⟨bs, some .eos⟩ → CountsFit bs →
    ∃ t v, exec (.preprocess fmt) s = .next t ∧ Ended t 0 v ∧
      t.plan.valid = true ∧ t.plan.fmt = fmt ∧ (∀ b, (freqOf t.plan.freq b).toNat = bs.count b) ∧
      t.plan.origBits.toNat = 8 * bs.length ∧
      t.plan.tree = build t.plan.freq ∧ t.plan.code = genCodes t.plan.tree ∧
      t.plan.hdr = headerOf fmt t.plan.freq t.plan.tree ∧
      t.plan.projBits.toNat = projected t.plan.freq t.plan.code t.plan.hdr ∧
      v.toInt = 8 * bs.length - projected t.plan.freq t.plan.code t.plan.hdr ∧
      t.inCur = ⟨[], some .eos⟩ ∧ t.bw = { acc := [], nout := 0 } ∧
      t.out = s.out ∧ t.dec = s.dec ∧ OutsideKept s t

/-- R215, R112, R278, R271: PREPROCESS ends in STREAM_READ_FAILURE at a FAIL terminator, and in CAPACITY_EXCEEDED at the (2^32)-th
occurrence of a byte value, before it reads further; PLAN.VALID is 0, RESULT is 0, nothing is written. -/
def Obligations.PreprocessErrorsLeaveNoPlan : Prop :=
  (∀ (s : State) (fmt : HeaderFormat) (bs : List Byte), Ready s ⟨bs, some .fail⟩ → CountsFit bs →
    ∃ t, exec (.preprocess fmt) s = .next t ∧ Ended t 1 0 ∧ t.plan.valid = false ∧ t.inCur = ⟨[], some .fail⟩ ∧
      t.out = s.out ∧ t.dec = s.dec ∧ OutsideKept s t) ∧
  (∀ (s : State) (fmt : HeaderFormat) (pre post : List Byte) (b : Byte) (term : Option Terminator),
    Ready s ⟨pre ++ b :: post, term⟩ → CountsFit pre → pre.count b = 2 ^ 32 - 1 →
    ∃ t, exec (.preprocess fmt) s = .next t ∧ Ended t 8 0 ∧ t.plan.valid = false ∧ t.inCur = ⟨post, term⟩ ∧
      t.out = s.out ∧ t.dec = s.dec ∧ OutsideKept s t)

/-- R213: PLAN.PROJ_BITS of a valid plan is a multiple of 8 and at least 64 + |PLAN.HDR|: at least 8256 for explicit counts and at
least 112 for explicit tree. -/
def Obligations.ProjectedSizeBounds : Prop :=
  ∀ s : State, s.Inv → s.plan.valid = true →
    s.plan.projBits.toNat % 8 = 0 ∧ 64 + s.plan.hdr.length ≤ s.plan.projBits.toNat ∧
    (s.plan.fmt = .counts → 8256 ≤ s.plan.projBits.toNat) ∧ (s.plan.fmt = .tree → 112 ≤ s.plan.projBits.toNat)

/-- R219: ORIG_BITS < 2^43, D ≤ 256 × Σ FREQ[s] < 2^51, PROJ_BITS < 2^52, and the savings as a signed 64-bit value are exact: no bit
count and no savings value overflows. -/
def Obligations.PlanWidthsNeverOverflow : Prop :=
  ∀ s : State, s.Inv → s.plan.valid = true →
    s.plan.origBits.toNat = 8 * total s.plan.freq ∧ s.plan.origBits.toNat < 2 ^ 43 ∧
    dataBits s.plan.freq s.plan.code ≤ 256 * total s.plan.freq ∧ 256 * total s.plan.freq < 2 ^ 51 ∧
    s.plan.projBits.toNat = projected s.plan.freq s.plan.code s.plan.hdr ∧ s.plan.projBits.toNat < 2 ^ 52 ∧
    (s.plan.origBits - s.plan.projBits).toInt = (s.plan.origBits.toNat : Int) - s.plan.projBits.toNat

/-! ### COMPRESS -/

/-- R223, R276: COMPRESS with PLAN.VALID = 0 ends in NO_PLAN with RESULT 0 before any port access: no byte of its stream is read and
none is written. -/
def Obligations.CompressWithoutPlan : Prop :=
  ∀ (s : State) (st : Stream) (force : Bool), Ready s st → s.plan.valid = false →
    ∃ t, exec (.compress force) s = .next t ∧ Ended t 6 0 ∧ t.inCur = st ∧ t.out = s.out ∧ t.plan = s.plan ∧
      t.dec = s.dec ∧ OutsideKept s t

/-- R221: COMPRESS is skipped exactly when the projected size exceeds the original size and FORCE = 0: then it reads no byte, writes no
byte and ends without error with RESULT 0; otherwise, on a stream it can code, it writes and RESULT is not 0. Equal sizes do not
skip. The bound on the stream keeps RESULT's 64 bits from wrapping. -/
def Obligations.ForcePolicy : Prop :=
  (∀ (s : State) (st : Stream) (force : Bool), Ready s st → s.plan.valid = true →
    (s.plan.origBits < s.plan.projBits ∧ force = false) →
    ∃ t, exec (.compress force) s = .next t ∧ Ended t 0 0 ∧ t.inCur = st ∧ t.out = s.out ∧ t.plan = s.plan ∧
      t.dec = s.dec ∧ OutsideKept s t) ∧
  (∀ (s : State) (bs : List Byte) (force : Bool), Ready s ⟨bs, some .eos⟩ → s.plan.valid = true → Coded s.plan bs →
    bs.length < 2 ^ 50 → (s.plan.projBits ≤ s.plan.origBits ∨ force = true) →
    ∃ t v, exec (.compress force) s = .next t ∧ Ended t 0 v ∧ v ≠ 0 ∧ s.out.length < t.out.length)

/-- R220, R90, R91, R94, R222: a COMPRESS that is not skipped, on bytes that all have codes, completes and delivers exactly the stream:
magic, selector, header, the code of each byte in input order, the EOF code, and zero bits to the byte boundary; RESULT is the number
of bits delivered; the plan, the decoder and everything outside stay. The bytes need not be those PREPROCESS read (R224). -/
def Obligations.CompressWritesTheStream : Prop :=
  ∀ (s : State) (bs : List Byte) (force : Bool), Ready s ⟨bs, some .eos⟩ → s.plan.valid = true → Coded s.plan bs →
    (s.plan.projBits ≤ s.plan.origBits ∨ force = true) →
    ∃ t w pad, exec (.compress force) s = .next t ∧ t.out = s.out ++ w ∧
      bitsOf w = bin 32 s.params.MAGIC_NUMBER.toNat
        ++ bin 32 (match s.plan.fmt with
            | .counts => s.params.SEL_COUNTS
            | .tree   => s.params.SEL_TREE).toNat
        ++ s.plan.hdr ++ (bs.flatMap fun b => codeBits s.plan.code (Symbol.ofByte b))
        ++ codeBits s.plan.code pseudoEof ++ List.replicate pad false ∧
      pad = (8 - (64 + s.plan.hdr.length + (dataOf s.plan bs).length + (codeBits s.plan.code pseudoEof).length) % 8) % 8 ∧
      Ended t 0 (BitVec.ofNat 64 (8 * w.length)) ∧ t.inCur = ⟨[], some .eos⟩ ∧
      t.plan = s.plan ∧ t.dec = s.dec ∧ OutsideKept s t

/-- R277, R224, R271, R279: COMPRESS reading a byte whose FREQ is 0 ends in PLAN_MISMATCH there, and a FAIL terminator ends it in
STREAM_READ_FAILURE: the whole bytes of magic, selector, header and the codes so far stay delivered, fewer than 8 pending bits are
lost, and RESULT is the number of bits delivered. -/
def Obligations.CompressErrorsKeepWhatWasDelivered : Prop :=
  ∀ (s : State) (pre : List Byte) (force : Bool) (st : Stream) (code : BitVec 4), Ready s st → s.plan.valid = true →
    Coded s.plan pre → (s.plan.projBits ≤ s.plan.origBits ∨ force = true) →
    ((∃ b post, st.bytes = pre ++ b :: post ∧ freqOf s.plan.freq b = 0 ∧ code = 7) ∨
      (st = ⟨pre, some .fail⟩ ∧ code = 1)) →
    ∃ t w pending, exec (.compress force) s = .next t ∧ t.out = s.out ++ w ∧
      bitsOf w ++ pending = streamHead s.params s.plan ++ dataOf s.plan pre ∧ pending.length < 8 ∧
      Ended t code (BitVec.ofNat 64 (8 * w.length)) ∧ t.plan = s.plan ∧ t.dec = s.dec ∧
      t.inCur.bytes = st.bytes.drop (pre.length + 1) ∧ OutsideKept s t

/-- R222, R212: COMPRESS on the bytes whose counts the plan holds answers PLAN.PROJ_BITS, so the savings are ORIG_BITS − RESULT. -/
def Obligations.CompressResultIsTheProjection : Prop :=
  ∀ (s : State) (bs : List Byte) (force : Bool), Ready s ⟨bs, some .eos⟩ → s.plan.valid = true →
    (∀ b, (freqOf s.plan.freq b).toNat = bs.count b) → (s.plan.projBits ≤ s.plan.origBits ∨ force = true) →
    ∃ t, exec (.compress force) s = .next t ∧ Ended t 0 s.plan.projBits ∧ t.plan = s.plan

/-! ### DECOMPRESS -/

/-- R240, R243 to R247, R249, R179: DECOMPRESS on magic, a header that describes a tree, the codes of bs in that tree and its EOF code
completes, whatever bits, bytes and terminator follow: each byte is delivered in order, RESULT = 8·|bs| = BW.NOUT = 8·DEC.NSYM, exactly
the bits up to the EOF code are consumed, and no byte after the one holding the last of them is fetched. The plan stays. -/
def Obligations.DecompressDecodes : Prop :=
  ∀ (s : State) (bytes bs : List Byte) (term : Option Terminator) (h rest : Bits) (tree : Tree) (code : Byte → Bits)
    (eof : Bits),
    Ready s ⟨bytes, term⟩ → Describes s.params h tree →
    (∀ b ∈ bs, ∃ w, tree.follow (code b) = some (.leaf (Symbol.ofByte b) w)) →
    (∃ w, tree.follow eof = some (.leaf pseudoEof w)) →
    bitsOf bytes = bin 32 s.params.MAGIC_NUMBER.toNat ++ h ++ bs.flatMap code ++ eof ++ rest →
    ∃ t, exec (.decompress false) s = .next t ∧ t.out = s.out ++ bs ∧ Ended t 0 (BitVec.ofNat 64 (8 * bs.length)) ∧
      t.bw.nout = BitVec.ofNat 64 (8 * bs.length) ∧ t.dec.tree = tree ∧ t.dec.nsym = BitVec.ofNat 64 bs.length ∧
      t.unread = rest ∧ t.br.k < 8 ∧ t.inCur.term = term ∧ t.plan = s.plan ∧ OutsideKept s t

/-- R241, R242, R272, R282: a magic number that does not match, then a selector that matches neither format, end DECOMPRESS in
FORMAT_MISMATCH before any header bit is read: after a wrong magic number the bytes from the fifth on are unread, after a wrong selector
those from the ninth on; a stream that ends inside either does too, and one that fails there ends in STREAM_READ_FAILURE, with no byte
left. Nothing is written and no tree is built. -/
def Obligations.DecompressChecksMagicAndSelector : Prop :=
  ∀ (s : State) (bytes left : List Byte) (term : Option Terminator) (code : BitVec 4), Ready s ⟨bytes, term⟩ →
    ((4 ≤ bytes.length ∧ val ((bitsOf bytes).take 32) ≠ s.params.MAGIC_NUMBER.toNat ∧ code = 2 ∧ left = bytes.drop 4) ∨
      (8 ≤ bytes.length ∧ val ((bitsOf bytes).take 32) = s.params.MAGIC_NUMBER.toNat ∧
        val (((bitsOf bytes).drop 32).take 32) ≠ s.params.SEL_COUNTS.toNat ∧
        val (((bitsOf bytes).drop 32).take 32) ≠ s.params.SEL_TREE.toNat ∧ code = 2 ∧ left = bytes.drop 8) ∨
      ((bytes.length < 4 ∨ (bytes.length < 8 ∧ val ((bitsOf bytes).take 32) = s.params.MAGIC_NUMBER.toNat)) ∧
        ((term = some .eos ∧ code = 2) ∨ (term = some .fail ∧ code = 1)) ∧ left = [])) →
    ∃ t, exec (.decompress false) s = .next t ∧ Ended t code 0 ∧ t.inCur = ⟨left, term⟩ ∧ t.unread = bitsOf left ∧
      t.out = s.out ∧ t.dec = s.dec ∧ t.plan = s.plan ∧ OutsideKept s t

/-- R177, R176, R178, R282: the explicit-tree header is accepted exactly when it is bin_32(|S|) ++ S for the serialization S of a tree
with no symbol twice and a PSEUDO_EOF leaf. (That such an S has at most 256 internal nodes and leaf values of at most 256 follows from
its being a serialization of a tree of Symbols without repeats.) A valid header never ends in HEADER_CORRUPTION, whatever the
terminator. Any other ends DECOMPRESS in HEADER_CORRUPTION with nothing written when the stream ends; and whatever the terminator when
the T bits it declares are there, with at most those T bits read. When the stream fails first it ends in STREAM_READ_FAILURE, with
everything read; so it does whenever it fails inside the length field or where a valid header could still go on. TAKE tests its bound
before its read: after the length field 0, after an INTERNAL token and after a LEAF token, a token or a leaf value that would pass T is
HEADER_CORRUPTION in that block step, whatever is on IN. -/
def Obligations.OnlyValidTreeHeadersAreAccepted : Prop :=
  (∀ (s : State) (bytes : List Byte) (term : Option Terminator) (r : Bits), Ready s ⟨bytes, term⟩ →
    bitsOf bytes = bin 32 s.params.MAGIC_NUMBER.toNat ++ bin 32 s.params.SEL_TREE.toNat ++ r →
    ∃ t, exec (.decompress false) s = .next t ∧ t.plan = s.plan ∧ OutsideKept s t ∧
      (ValidTreeHeader r → t.errcode ≠ 3) ∧
      (¬ ValidTreeHeader r → term = some .eos → Ended t 3 0 ∧ t.out = s.out) ∧
      (¬ ValidTreeHeader r → ∀ (T : Nat) (body rest : Bits), T < 2 ^ 32 → body.length = T → r = bin 32 T ++ body ++ rest →
        Ended t 3 0 ∧ t.out = s.out ∧ ∃ left, left <:+ body ∧ t.unread = left ++ rest) ∧
      (¬ ValidTreeHeader r → term = some .fail → t.out = s.out ∧
        ((Ended t 1 0 ∧ t.unread = []) ∨ Ended t 3 0) ∧
        (r.length < 32 ∨ (∃ y, ValidTreeHeader (r ++ y)) → Ended t 1 0))) ∧
  (∀ s : State, s.phase = .busy (.read 0 0 .treeLen) → run 1 s = raise .headerCorruption s) ∧
  (∀ (s : State) (p : ParseState), s.phase = .busy (.read 0 0 (.token p)) → p.T < p.c + 2 →
    run 1 s = raise .headerCorruption s) ∧
  (∀ (s : State) (v : Nat) (p : ParseState), s.phase = .busy (.read 0 v (.token p)) → v ≠ 0 → p.T < p.c + 10 →
    run 1 s = raise .headerCorruption s)

/-- R175, R273, R271: an explicit-counts header cut short ends DECOMPRESS in HEADER_CORRUPTION when the stream ends and in
STREAM_READ_FAILURE when it fails; nothing is written. -/
def Obligations.CountsHeaderCutShort : Prop :=
  ∀ (s : State) (bytes : List Byte) (r : Bits) (x : Terminator), Ready s ⟨bytes, some x⟩ →
    bitsOf bytes = bin 32 s.params.MAGIC_NUMBER.toNat ++ bin 32 s.params.SEL_COUNTS.toNat ++ r → r.length < 8192 →
    ∃ t, exec (.decompress false) s = .next t ∧
      Ended t (match x with
        | .eos  => 3
        | .fail => 1) 0 ∧
      t.out = s.out ∧ t.dec = s.dec ∧ t.plan = s.plan ∧ OutsideKept s t

/-- R248, R274, R271: when the stream is exhausted before the EOF code is completed, DECOMPRESS ends in TRUNCATED_STREAM (END) or
STREAM_READ_FAILURE (FAIL); the symbols decoded before are delivered and RESULT = 8 × DEC.NSYM. -/
def Obligations.TruncatedDataIsReported : Prop :=
  ∀ (s : State) (bytes bs : List Byte) (x : Terminator) (h tail : Bits) (tree : Tree) (code : Byte → Bits),
    Ready s ⟨bytes, some x⟩ → Describes s.params h tree →
    (∀ b ∈ bs, ∃ w, tree.follow (code b) = some (.leaf (Symbol.ofByte b) w)) →
    (∃ l r w, tree.follow tail = some (.node l r w)) →
    bitsOf bytes = bin 32 s.params.MAGIC_NUMBER.toNat ++ h ++ bs.flatMap code ++ tail →
    ∃ t, exec (.decompress false) s = .next t ∧ t.out = s.out ++ bs ∧
      Ended t (match x with
        | .eos  => 4
        | .fail => 1) (BitVec.ofNat 64 (8 * bs.length)) ∧
      t.dec.nsym = BitVec.ofNat 64 bs.length ∧ t.plan = s.plan ∧ OutsideKept s t

/-! ### The three commands together -/

/-- R251, R180: PREPROCESS on X in either format, COMPRESS FORCE on X, DECOMPRESS on the bytes COMPRESS wrote with END after them: each
completes, the last delivers exactly X with RESULT = 8·|X|, and the tree it rebuilt has the code table of the plan. -/
def Obligations.RoundTripReproducesTheInput : Prop :=
  ∀ (s : State) (fmt : HeaderFormat) (bs : List Byte), Ready s ⟨bs, some .eos⟩ → CountsFit bs →
    ∃ t1, exec (.preprocess fmt) s = .next t1 ∧
    ∃ t2 w, exec (.compress true) { t1 with inNext := ⟨bs, some .eos⟩ } = .next t2 ∧ t2.out = t1.out ++ w ∧
      t2.errcode = 0 ∧
    ∃ t3, exec (.decompress false) { t2 with inNext := ⟨w, some .eos⟩ } = .next t3 ∧ t3.out = t2.out ++ bs ∧
      Ended t3 0 (BitVec.ofNat 64 (8 * bs.length)) ∧ genCodes t3.dec.tree = t1.plan.code

/-- R66, R29, R27, R225: nothing carries over from one command to the next but the plan into COMPRESS: two states with the same
parameters and stream (and, for COMPRESS, the same plan) end a command with the same BUSY, DONE, ERR, code, result and delivered bytes,
whatever else they hold; and PREPROCESS makes the same plan in both when it makes one. -/
def Obligations.NothingCarriesOverButThePlan : Prop :=
  ∀ (i : Instr) (s s' : State) (st : Stream), i.WellFormed → Ready s st → Ready s' st → s.params = s'.params →
    ((∃ force, i = .compress force) → s.plan = s'.plan) →
    ∃ t t' w, exec i s = .next t ∧ exec i s' = .next t' ∧ t.out = s.out ++ w ∧ t'.out = s'.out ++ w ∧
      t.busy = t'.busy ∧ t.done = t'.done ∧ t.err = t'.err ∧ t.errcode = t'.errcode ∧ t.result = t'.result ∧
      t.inCur = t'.inCur ∧
      ((∃ fmt, i = .preprocess fmt) → t.plan.valid = t'.plan.valid ∧ (t.plan.valid = true → t.plan = t'.plan))

/-- R29, R66, R72, R211, R225: the frame of every command, whatever its outcome, in every state: what is outside stays, delivered bytes
stay; PREPROCESS changes neither OUT nor the decoder, COMPRESS neither the plan nor the decoder, DECOMPRESS not the plan; of the bit
reader the two that read bytes change BR.K only, at acceptance; while BUSY = 1 nothing changes at all (R22). That a stream presented
for the next command is used up by the acceptance of a well-formed command, and by no other, is log entry 8. -/
def Obligations.CommandFrames : Prop :=
  ∀ (i : Instr) (s : State), ∃ t, exec i s = .next t ∧ OutsideKept s t ∧ s.out <+: t.out ∧
    (s.busy = true → t = s) ∧
    (s.busy = false → t.inNext = if i.wellFormed then Stream.unsupplied else s.inNext) ∧
    match i with
    | .preprocess _ => t.dec = s.dec ∧ t.out = s.out ∧ t.br.cur = s.br.cur ∧ (s.busy = false → t.br.k = 0)
    | .compress _   => t.plan = s.plan ∧ t.dec = s.dec ∧ t.br.cur = s.br.cur ∧ (s.busy = false → t.br.k = 0)
    | .decompress _ => t.plan = s.plan

/-! ### The whole machine -/

/-- R33, R302: the state after reset, through the registers and inside. (The values of the unspecified elements are log entry 4's, and no
clause names one.) -/
def Obligations.ResetState : Prop :=
  State.reset.phase = .idle ∧ readWindow State.reset 0x04 4 = 0 ∧ readWindow State.reset 0x08 4 = 0 ∧
  readWindow State.reset 0x0C 4 = 0 ∧ readWindow State.reset 0x10 4 = 0 ∧ State.reset.plan.valid = false ∧
  readWindow State.reset 0x14 4 = Config.MAGIC_NUMBER ∧ readWindow State.reset 0x18 4 = Config.SEL_COUNTS ∧
  readWindow State.reset 0x1C 4 = Config.SEL_TREE

/-- R6: SEL_COUNTS ≠ SEL_TREE, and the rest of the invariant, hold after reset. Its clauses about BW and BR (R30: BW.K ≤ 7, BW.NOUT a
multiple of 8, BR.K ≤ 7) hold by the model's values of elements R33 leaves unspecified (log entry 4), and BR.K ≤ 7 is the model's
granularity (log entry 12). -/
def Obligations.ResetHasTheInvariant : Prop := State.reset.Inv

/-- Every step, whatever the next event, answers a next state, and keeps the invariant: BUSY and DONE are never both 1, ERR says whether
ERRCODE is 0, no code above 8 is produced, ERRCODE and RESULT read 0 while a command runs (R23 to R25, R84, R270); BW.K ≤ 7, BW.NOUT is
a multiple of 8 (R30), and BR.K ≤ 7 (log entry 12); a valid plan is what PREPROCESS makes of the counts it holds (R26);
SEL_COUNTS ≠ SEL_TREE (R6); and each position of the pseudocode has what it needs (R177, R249). For the reset event the clauses about BW
and BR hold by the model's values after reset (log entries 4 and 5). -/
def Obligations.EveryStepKeepsTheInvariant : Prop :=
  ∀ s : State, s.Inv → ∃ t, step s = .next t ∧ t.Inv

/-- R320, R85: every command whose stream is supplied up to its terminator completes: BUSY = 0 and DONE = 1. -/
def Obligations.EveryCommandCompletes : Prop :=
  ∀ (s : State) (i : Instr) (bytes : List Byte) (x : Terminator), Ready s ⟨bytes, some x⟩ →
    ∃ t, exec i s = .next t ∧ t.phase = .idle ∧ t.done = true

/-- R314: a command that has not completed waits only because its stream has run out of supplied bytes and no terminator stands there:
it stays BUSY without an error, and more block steps change nothing. -/
def Obligations.WaitsOnlyForItsStream : Prop :=
  ∀ (s t : State) (i : Instr) (st : Stream), Ready s st → exec i s = .next t → t.busy = true →
    st.term = none ∧ t.inCur = ⟨[], none⟩ ∧ t.err = false ∧ t.errcode = 0 ∧ ∀ n, run n t = t

/-- R314, R178, R247: a stream supplied in two parts is the stream supplied at once. A command that waits after the first part and is
then given the rest ends in the same state as one given all of it from the start; a command that ends within the first part ends the same
way whatever follows that part, bytes or terminator, which stay unread. -/
def Obligations.SplitSupplyIsTheSameAsWhole : Prop :=
  ∀ (s t : State) (i : Instr) (a b : List Byte) (term : Option Terminator), Ready s ⟨a, none⟩ → exec i s = .next t →
    (t.busy = true → act (.supply b term) t = exec i { s with inNext := ⟨a ++ b, term⟩ }) ∧
    (t.busy = false → i.WellFormed →
      exec i { s with inNext := ⟨a ++ b, term⟩ } = .next { t with inCur := ⟨t.inCur.bytes ++ b, term⟩ })

/-- R321, R73: the number of block steps made before the host's next access does not change what the command does: after any number of
them the block goes on to the same end. -/
def Obligations.PaceDoesNotMatter : Prop :=
  ∀ (s t : State) (i : Instr) (st : Stream) (k : Nat), Ready s st → exec i s = .next t →
    ∃ u, exec i { s with pace := some k } = .next u ∧ run (horizon u) u = { t with pace := some k }

/-- R73, R24, R25: no block step changes ERRCODE, RESULT, DONE or ERR unless it completes the command. -/
def Obligations.StatusChangesOnlyAtCompletion : Prop :=
  ∀ (s : State) (n : Nat), (run n s).busy = true →
    (run n s).errcode = s.errcode ∧ (run n s).result = s.result ∧ (run n s).done = s.done ∧ (run n s).err = s.err

/-- R301, R300: the reset input, at any moment: no completion happens (DONE is 0), the bytes delivered stay, the pending bits and the
rest of the stream are dropped, the plan is invalid, and STATUS, ERRCODE and RESULT read 0. That the stream presented for the next
command and the other things of the host stay, and that of the running command's stream nothing is kept, is log entry 5. -/
def Obligations.ResetAbandonsTheCommand : Prop :=
  ∀ (s : State) (p : Option Nat) (rest : List Timed),
    ∃ t, step { s with events := { event := .reset, pace := p } :: rest } = .next t ∧ t.phase = .idle ∧ t.done = false ∧
      t.status = 0 ∧ t.errcode = 0 ∧ t.result = 0 ∧ t.plan.valid = false ∧ t.out = s.out ∧ t.bw.acc = [] ∧
      t.inCur = Stream.unsupplied ∧ t.params = s.params ∧ t.inNext = s.inNext ∧ t.rdata = s.rdata ∧ t.events = rest

/-- R72, R69, R21: no step withdraws or changes a byte already delivered to OUT, or writes a parameter the ID registers read. -/
def Obligations.DeliveredBytesAndParametersStay : Prop :=
  ∀ s t : State, step s = .next t → s.out <+: t.out ∧ t.params = s.params

/-- R26, R217: the plan is changed only by PREPROCESS or by reset: a step that changes it has reset as its event, or writes a PREPROCESS
word to CMD while BUSY = 0, or finds a PREPROCESS running. -/
def Obligations.PlanChangesOnlyByPreprocessOrReset : Prop :=
  ∀ s t : State, step s = .next t → t.plan ≠ s.plan →
    (∃ e rest, s.events = e :: rest ∧ e.event = .reset) ∨
    (s.busy = false ∧ ∃ e rest off size w fmt, s.events = e :: rest ∧
      (e.event = .write off size w ∨ e.event = .busWrite (s.params.CORE_BASE + off) size w) ∧ off = 0 ∧ size = 4 ∧
      decode w = .ok (.preprocess fmt)) ∨
    (∃ fmt, s.phase = .busy (.preprocess fmt) ∨ ∃ n, s.phase = .busy (.count fmt n))
end

