-- ==== Sys2Proof/Laws/State.lean ====
section
/-! SUPPORT. One lemma per field of State for each operation of the machine that rewrites a state, so that no later proof
unfolds a record update; and BUSY after each of them. -/

namespace Sys2Proof.Machine

/-! ### State.goto -/

@[simp] theorem State.goto_params (s : State) (p : Pos) : (s.goto p).params = s.params := rfl
@[simp] theorem State.goto_phase (s : State) (p : Pos) : (s.goto p).phase = .busy p := rfl
@[simp] theorem State.goto_done (s : State) (p : Pos) : (s.goto p).done = s.done := rfl
@[simp] theorem State.goto_err (s : State) (p : Pos) : (s.goto p).err = s.err := rfl
@[simp] theorem State.goto_errcode (s : State) (p : Pos) : (s.goto p).errcode = s.errcode := rfl
@[simp] theorem State.goto_result (s : State) (p : Pos) : (s.goto p).result = s.result := rfl
@[simp] theorem State.goto_plan (s : State) (p : Pos) : (s.goto p).plan = s.plan := rfl
@[simp] theorem State.goto_dec (s : State) (p : Pos) : (s.goto p).dec = s.dec := rfl
@[simp] theorem State.goto_bw (s : State) (p : Pos) : (s.goto p).bw = s.bw := rfl
@[simp] theorem State.goto_br (s : State) (p : Pos) : (s.goto p).br = s.br := rfl
@[simp] theorem State.goto_inCur (s : State) (p : Pos) : (s.goto p).inCur = s.inCur := rfl
@[simp] theorem State.goto_inNext (s : State) (p : Pos) : (s.goto p).inNext = s.inNext := rfl
@[simp] theorem State.goto_out (s : State) (p : Pos) : (s.goto p).out = s.out := rfl
@[simp] theorem State.goto_rdata (s : State) (p : Pos) : (s.goto p).rdata = s.rdata := rfl
@[simp] theorem State.goto_events (s : State) (p : Pos) : (s.goto p).events = s.events := rfl
@[simp] theorem State.goto_pace (s : State) (p : Pos) : (s.goto p).pace = s.pace := rfl

/-! ### accept -/

@[simp] theorem accept_params (p : Pos) (s : State) : (accept p s).params = s.params := rfl
@[simp] theorem accept_phase (p : Pos) (s : State) : (accept p s).phase = .busy p := rfl
@[simp] theorem accept_done (p : Pos) (s : State) : (accept p s).done = false := rfl
@[simp] theorem accept_err (p : Pos) (s : State) : (accept p s).err = false := rfl
@[simp] theorem accept_errcode (p : Pos) (s : State) : (accept p s).errcode = 0 := rfl
@[simp] theorem accept_result (p : Pos) (s : State) : (accept p s).result = 0 := rfl
@[simp] theorem accept_plan (p : Pos) (s : State) : (accept p s).plan = s.plan := rfl
@[simp] theorem accept_dec (p : Pos) (s : State) : (accept p s).dec = s.dec := rfl
@[simp] theorem accept_bw (p : Pos) (s : State) : (accept p s).bw = { acc := [], nout := 0 } := rfl
@[simp] theorem accept_br (p : Pos) (s : State) : (accept p s).br = { s.br with k := 0 } := rfl
@[simp] theorem accept_inCur (p : Pos) (s : State) : (accept p s).inCur = s.inCur := rfl
@[simp] theorem accept_inNext (p : Pos) (s : State) : (accept p s).inNext = s.inNext := rfl
@[simp] theorem accept_out (p : Pos) (s : State) : (accept p s).out = s.out := rfl
@[simp] theorem accept_rdata (p : Pos) (s : State) : (accept p s).rdata = s.rdata := rfl
@[simp] theorem accept_events (p : Pos) (s : State) : (accept p s).events = s.events := rfl
@[simp] theorem accept_pace (p : Pos) (s : State) : (accept p s).pace = s.pace := rfl

/-! ### takeStream -/

@[simp] theorem takeStream_params (s : State) : (takeStream s).params = s.params := rfl
@[simp] theorem takeStream_phase (s : State) : (takeStream s).phase = s.phase := rfl
@[simp] theorem takeStream_done (s : State) : (takeStream s).done = s.done := rfl
@[simp] theorem takeStream_err (s : State) : (takeStream s).err = s.err := rfl
@[simp] theorem takeStream_errcode (s : State) : (takeStream s).errcode = s.errcode := rfl
@[simp] theorem takeStream_result (s : State) : (takeStream s).result = s.result := rfl
@[simp] theorem takeStream_plan (s : State) : (takeStream s).plan = s.plan := rfl
@[simp] theorem takeStream_dec (s : State) : (takeStream s).dec = s.dec := rfl
@[simp] theorem takeStream_bw (s : State) : (takeStream s).bw = s.bw := rfl
@[simp] theorem takeStream_br (s : State) : (takeStream s).br = s.br := rfl
@[simp] theorem takeStream_inCur (s : State) : (takeStream s).inCur = s.inNext := rfl
@[simp] theorem takeStream_inNext (s : State) : (takeStream s).inNext = Stream.unsupplied := rfl
@[simp] theorem takeStream_out (s : State) : (takeStream s).out = s.out := rfl
@[simp] theorem takeStream_rdata (s : State) : (takeStream s).rdata = s.rdata := rfl
@[simp] theorem takeStream_events (s : State) : (takeStream s).events = s.events := rfl
@[simp] theorem takeStream_pace (s : State) : (takeStream s).pace = s.pace := rfl

/-! ### State.setBytes -/

@[simp] theorem State.setBytes_params (s : State) (r : List Byte) : (s.setBytes r).params = s.params := rfl
@[simp] theorem State.setBytes_phase (s : State) (r : List Byte) : (s.setBytes r).phase = s.phase := rfl
@[simp] theorem State.setBytes_done (s : State) (r : List Byte) : (s.setBytes r).done = s.done := rfl
@[simp] theorem State.setBytes_err (s : State) (r : List Byte) : (s.setBytes r).err = s.err := rfl
@[simp] theorem State.setBytes_errcode (s : State) (r : List Byte) : (s.setBytes r).errcode = s.errcode := rfl
@[simp] theorem State.setBytes_result (s : State) (r : List Byte) : (s.setBytes r).result = s.result := rfl
@[simp] theorem State.setBytes_plan (s : State) (r : List Byte) : (s.setBytes r).plan = s.plan := rfl
@[simp] theorem State.setBytes_dec (s : State) (r : List Byte) : (s.setBytes r).dec = s.dec := rfl
@[simp] theorem State.setBytes_bw (s : State) (r : List Byte) : (s.setBytes r).bw = s.bw := rfl
@[simp] theorem State.setBytes_br (s : State) (r : List Byte) : (s.setBytes r).br = s.br := rfl
@[simp] theorem State.setBytes_inCur (s : State) (r : List Byte) : (s.setBytes r).inCur = { bytes := r, term := s.inCur.term } := rfl
@[simp] theorem State.setBytes_inNext (s : State) (r : List Byte) : (s.setBytes r).inNext = s.inNext := rfl
@[simp] theorem State.setBytes_out (s : State) (r : List Byte) : (s.setBytes r).out = s.out := rfl
@[simp] theorem State.setBytes_rdata (s : State) (r : List Byte) : (s.setBytes r).rdata = s.rdata := rfl
@[simp] theorem State.setBytes_events (s : State) (r : List Byte) : (s.setBytes r).events = s.events := rfl
@[simp] theorem State.setBytes_pace (s : State) (r : List Byte) : (s.setBytes r).pace = s.pace := rfl

/-! ### complete -/

@[simp] theorem complete_params (c : BitVec 4) (v : DWord) (s : State) : (complete c v s).params = s.params := rfl
@[simp] theorem complete_phase (c : BitVec 4) (v : DWord) (s : State) : (complete c v s).phase = .idle := rfl
@[simp] theorem complete_done (c : BitVec 4) (v : DWord) (s : State) : (complete c v s).done = true := rfl
@[simp] theorem complete_err (c : BitVec 4) (v : DWord) (s : State) : (complete c v s).err = (c != 0) := rfl
@[simp] theorem complete_errcode (c : BitVec 4) (v : DWord) (s : State) : (complete c v s).errcode = c := rfl
@[simp] theorem complete_result (c : BitVec 4) (v : DWord) (s : State) : (complete c v s).result = v := rfl
@[simp] theorem complete_plan (c : BitVec 4) (v : DWord) (s : State) : (complete c v s).plan = s.plan := rfl
@[simp] theorem complete_dec (c : BitVec 4) (v : DWord) (s : State) : (complete c v s).dec = s.dec := rfl
@[simp] theorem complete_bw (c : BitVec 4) (v : DWord) (s : State) : (complete c v s).bw = s.bw := rfl
@[simp] theorem complete_br (c : BitVec 4) (v : DWord) (s : State) : (complete c v s).br = s.br := rfl
@[simp] theorem complete_inCur (c : BitVec 4) (v : DWord) (s : State) : (complete c v s).inCur = s.inCur := rfl
@[simp] theorem complete_inNext (c : BitVec 4) (v : DWord) (s : State) : (complete c v s).inNext = s.inNext := rfl
@[simp] theorem complete_out (c : BitVec 4) (v : DWord) (s : State) : (complete c v s).out = s.out := rfl
@[simp] theorem complete_rdata (c : BitVec 4) (v : DWord) (s : State) : (complete c v s).rdata = s.rdata := rfl
@[simp] theorem complete_events (c : BitVec 4) (v : DWord) (s : State) : (complete c v s).events = s.events := rfl
@[simp] theorem complete_pace (c : BitVec 4) (v : DWord) (s : State) : (complete c v s).pace = s.pace := rfl

/-! ### raise -/

@[simp] theorem raise_params (e : Err) (s : State) : (raise e s).params = s.params := rfl
@[simp] theorem raise_phase (e : Err) (s : State) : (raise e s).phase = .idle := rfl
@[simp] theorem raise_done (e : Err) (s : State) : (raise e s).done = true := rfl
@[simp] theorem raise_err (e : Err) (s : State) : (raise e s).err = (e.code != 0) := rfl
@[simp] theorem raise_errcode (e : Err) (s : State) : (raise e s).errcode = e.code := rfl
@[simp] theorem raise_result (e : Err) (s : State) : (raise e s).result = s.bw.nout := rfl
@[simp] theorem raise_plan (e : Err) (s : State) : (raise e s).plan = s.plan := rfl
@[simp] theorem raise_dec (e : Err) (s : State) : (raise e s).dec = s.dec := rfl
@[simp] theorem raise_bw (e : Err) (s : State) : (raise e s).bw = { s.bw with acc := [] } := rfl
@[simp] theorem raise_br (e : Err) (s : State) : (raise e s).br = s.br := rfl
@[simp] theorem raise_inCur (e : Err) (s : State) : (raise e s).inCur = s.inCur := rfl
@[simp] theorem raise_inNext (e : Err) (s : State) : (raise e s).inNext = s.inNext := rfl
@[simp] theorem raise_out (e : Err) (s : State) : (raise e s).out = s.out := rfl
@[simp] theorem raise_rdata (e : Err) (s : State) : (raise e s).rdata = s.rdata := rfl
@[simp] theorem raise_events (e : Err) (s : State) : (raise e s).events = s.events := rfl
@[simp] theorem raise_pace (e : Err) (s : State) : (raise e s).pace = s.pace := rfl

/-! ### startCount -/

@[simp] theorem startCount_params (fmt : HeaderFormat) (s : State) : (startCount fmt s).params = s.params := rfl
@[simp] theorem startCount_phase (fmt : HeaderFormat) (s : State) : (startCount fmt s).phase = .busy (.count fmt 0) := rfl
@[simp] theorem startCount_done (fmt : HeaderFormat) (s : State) : (startCount fmt s).done = s.done := rfl
@[simp] theorem startCount_err (fmt : HeaderFormat) (s : State) : (startCount fmt s).err = s.err := rfl
@[simp] theorem startCount_errcode (fmt : HeaderFormat) (s : State) : (startCount fmt s).errcode = s.errcode := rfl
@[simp] theorem startCount_result (fmt : HeaderFormat) (s : State) : (startCount fmt s).result = s.result := rfl
@[simp] theorem startCount_plan (fmt : HeaderFormat) (s : State) : (startCount fmt s).plan = { s.plan with valid := false, freq := Vector.replicate 256 0 } := rfl
@[simp] theorem startCount_dec (fmt : HeaderFormat) (s : State) : (startCount fmt s).dec = s.dec := rfl
@[simp] theorem startCount_bw (fmt : HeaderFormat) (s : State) : (startCount fmt s).bw = s.bw := rfl
@[simp] theorem startCount_br (fmt : HeaderFormat) (s : State) : (startCount fmt s).br = s.br := rfl
@[simp] theorem startCount_inCur (fmt : HeaderFormat) (s : State) : (startCount fmt s).inCur = s.inCur := rfl
@[simp] theorem startCount_inNext (fmt : HeaderFormat) (s : State) : (startCount fmt s).inNext = s.inNext := rfl
@[simp] theorem startCount_out (fmt : HeaderFormat) (s : State) : (startCount fmt s).out = s.out := rfl
@[simp] theorem startCount_rdata (fmt : HeaderFormat) (s : State) : (startCount fmt s).rdata = s.rdata := rfl
@[simp] theorem startCount_events (fmt : HeaderFormat) (s : State) : (startCount fmt s).events = s.events := rfl
@[simp] theorem startCount_pace (fmt : HeaderFormat) (s : State) : (startCount fmt s).pace = s.pace := rfl

/-! ### finishPlan -/

@[simp] theorem finishPlan_params (fmt : HeaderFormat) (n : DWord) (s : State) : (finishPlan fmt n s).params = s.params := rfl
@[simp] theorem finishPlan_phase (fmt : HeaderFormat) (n : DWord) (s : State) : (finishPlan fmt n s).phase = .busy (.ret ((planOf fmt s.plan.freq n).origBits - (planOf fmt s.plan.freq n).projBits)) := rfl
@[simp] theorem finishPlan_done (fmt : HeaderFormat) (n : DWord) (s : State) : (finishPlan fmt n s).done = s.done := rfl
@[simp] theorem finishPlan_err (fmt : HeaderFormat) (n : DWord) (s : State) : (finishPlan fmt n s).err = s.err := rfl
@[simp] theorem finishPlan_errcode (fmt : HeaderFormat) (n : DWord) (s : State) : (finishPlan fmt n s).errcode = s.errcode := rfl
@[simp] theorem finishPlan_result (fmt : HeaderFormat) (n : DWord) (s : State) : (finishPlan fmt n s).result = s.result := rfl
@[simp] theorem finishPlan_plan (fmt : HeaderFormat) (n : DWord) (s : State) : (finishPlan fmt n s).plan = planOf fmt s.plan.freq n := rfl
@[simp] theorem finishPlan_dec (fmt : HeaderFormat) (n : DWord) (s : State) : (finishPlan fmt n s).dec = s.dec := rfl
@[simp] theorem finishPlan_bw (fmt : HeaderFormat) (n : DWord) (s : State) : (finishPlan fmt n s).bw = s.bw := rfl
@[simp] theorem finishPlan_br (fmt : HeaderFormat) (n : DWord) (s : State) : (finishPlan fmt n s).br = s.br := rfl
@[simp] theorem finishPlan_inCur (fmt : HeaderFormat) (n : DWord) (s : State) : (finishPlan fmt n s).inCur = s.inCur := rfl
@[simp] theorem finishPlan_inNext (fmt : HeaderFormat) (n : DWord) (s : State) : (finishPlan fmt n s).inNext = s.inNext := rfl
@[simp] theorem finishPlan_out (fmt : HeaderFormat) (n : DWord) (s : State) : (finishPlan fmt n s).out = s.out := rfl
@[simp] theorem finishPlan_rdata (fmt : HeaderFormat) (n : DWord) (s : State) : (finishPlan fmt n s).rdata = s.rdata := rfl
@[simp] theorem finishPlan_events (fmt : HeaderFormat) (n : DWord) (s : State) : (finishPlan fmt n s).events = s.events := rfl
@[simp] theorem finishPlan_pace (fmt : HeaderFormat) (n : DWord) (s : State) : (finishPlan fmt n s).pace = s.pace := rfl

/-! ### startWalk -/

@[simp] theorem startWalk_params (t : Tree) (s : State) : (startWalk t s).params = s.params := rfl
@[simp] theorem startWalk_phase (t : Tree) (s : State) : (startWalk t s).phase = .busy .walk := rfl
@[simp] theorem startWalk_done (t : Tree) (s : State) : (startWalk t s).done = s.done := rfl
@[simp] theorem startWalk_err (t : Tree) (s : State) : (startWalk t s).err = s.err := rfl
@[simp] theorem startWalk_errcode (t : Tree) (s : State) : (startWalk t s).errcode = s.errcode := rfl
@[simp] theorem startWalk_result (t : Tree) (s : State) : (startWalk t s).result = s.result := rfl
@[simp] theorem startWalk_plan (t : Tree) (s : State) : (startWalk t s).plan = s.plan := rfl
@[simp] theorem startWalk_dec (t : Tree) (s : State) : (startWalk t s).dec = { tree := t, node := t, nsym := 0 } := rfl
@[simp] theorem startWalk_bw (t : Tree) (s : State) : (startWalk t s).bw = s.bw := rfl
@[simp] theorem startWalk_br (t : Tree) (s : State) : (startWalk t s).br = s.br := rfl
@[simp] theorem startWalk_inCur (t : Tree) (s : State) : (startWalk t s).inCur = s.inCur := rfl
@[simp] theorem startWalk_inNext (t : Tree) (s : State) : (startWalk t s).inNext = s.inNext := rfl
@[simp] theorem startWalk_out (t : Tree) (s : State) : (startWalk t s).out = s.out := rfl
@[simp] theorem startWalk_rdata (t : Tree) (s : State) : (startWalk t s).rdata = s.rdata := rfl
@[simp] theorem startWalk_events (t : Tree) (s : State) : (startWalk t s).events = s.events := rfl
@[simp] theorem startWalk_pace (t : Tree) (s : State) : (startWalk t s).pace = s.pace := rfl

/-! ### symbolWritten -/

@[simp] theorem symbolWritten_params (s : State) : (symbolWritten s).params = s.params := rfl
@[simp] theorem symbolWritten_phase (s : State) : (symbolWritten s).phase = .busy .walk := rfl
@[simp] theorem symbolWritten_done (s : State) : (symbolWritten s).done = s.done := rfl
@[simp] theorem symbolWritten_err (s : State) : (symbolWritten s).err = s.err := rfl
@[simp] theorem symbolWritten_errcode (s : State) : (symbolWritten s).errcode = s.errcode := rfl
@[simp] theorem symbolWritten_result (s : State) : (symbolWritten s).result = s.result := rfl
@[simp] theorem symbolWritten_plan (s : State) : (symbolWritten s).plan = s.plan := rfl
@[simp] theorem symbolWritten_dec (s : State) : (symbolWritten s).dec = { s.dec with nsym := s.dec.nsym + 1, node := s.dec.tree } := rfl
@[simp] theorem symbolWritten_bw (s : State) : (symbolWritten s).bw = s.bw := rfl
@[simp] theorem symbolWritten_br (s : State) : (symbolWritten s).br = s.br := rfl
@[simp] theorem symbolWritten_inCur (s : State) : (symbolWritten s).inCur = s.inCur := rfl
@[simp] theorem symbolWritten_inNext (s : State) : (symbolWritten s).inNext = s.inNext := rfl
@[simp] theorem symbolWritten_out (s : State) : (symbolWritten s).out = s.out := rfl
@[simp] theorem symbolWritten_rdata (s : State) : (symbolWritten s).rdata = s.rdata := rfl
@[simp] theorem symbolWritten_events (s : State) : (symbolWritten s).events = s.events := rfl
@[simp] theorem symbolWritten_pace (s : State) : (symbolWritten s).pace = s.pace := rfl

/-! ### takeBit -/

@[simp] theorem takeBit_params (n v : Nat) (k : ReadCont) (s : State) : (takeBit n v k s).params = s.params := rfl
@[simp] theorem takeBit_phase (n v : Nat) (k : ReadCont) (s : State) : (takeBit n v k s).phase = .busy (.read n (2 * v + (s.br.cur.getLsbD (s.br.k - 1)).toNat) k) := rfl
@[simp] theorem takeBit_done (n v : Nat) (k : ReadCont) (s : State) : (takeBit n v k s).done = s.done := rfl
@[simp] theorem takeBit_err (n v : Nat) (k : ReadCont) (s : State) : (takeBit n v k s).err = s.err := rfl
@[simp] theorem takeBit_errcode (n v : Nat) (k : ReadCont) (s : State) : (takeBit n v k s).errcode = s.errcode := rfl
@[simp] theorem takeBit_result (n v : Nat) (k : ReadCont) (s : State) : (takeBit n v k s).result = s.result := rfl
@[simp] theorem takeBit_plan (n v : Nat) (k : ReadCont) (s : State) : (takeBit n v k s).plan = s.plan := rfl
@[simp] theorem takeBit_dec (n v : Nat) (k : ReadCont) (s : State) : (takeBit n v k s).dec = s.dec := rfl
@[simp] theorem takeBit_bw (n v : Nat) (k : ReadCont) (s : State) : (takeBit n v k s).bw = s.bw := rfl
@[simp] theorem takeBit_br (n v : Nat) (k : ReadCont) (s : State) : (takeBit n v k s).br = { s.br with k := s.br.k - 1 } := rfl
@[simp] theorem takeBit_inCur (n v : Nat) (k : ReadCont) (s : State) : (takeBit n v k s).inCur = s.inCur := rfl
@[simp] theorem takeBit_inNext (n v : Nat) (k : ReadCont) (s : State) : (takeBit n v k s).inNext = s.inNext := rfl
@[simp] theorem takeBit_out (n v : Nat) (k : ReadCont) (s : State) : (takeBit n v k s).out = s.out := rfl
@[simp] theorem takeBit_rdata (n v : Nat) (k : ReadCont) (s : State) : (takeBit n v k s).rdata = s.rdata := rfl
@[simp] theorem takeBit_events (n v : Nat) (k : ReadCont) (s : State) : (takeBit n v k s).events = s.events := rfl
@[simp] theorem takeBit_pace (n v : Nat) (k : ReadCont) (s : State) : (takeBit n v k s).pace = s.pace := rfl

/-! ### hostRead -/

@[simp] theorem hostRead_params (o z : Nat) (s : State) : (hostRead o z s).params = s.params := rfl
@[simp] theorem hostRead_phase (o z : Nat) (s : State) : (hostRead o z s).phase = s.phase := rfl
@[simp] theorem hostRead_done (o z : Nat) (s : State) : (hostRead o z s).done = s.done := rfl
@[simp] theorem hostRead_err (o z : Nat) (s : State) : (hostRead o z s).err = s.err := rfl
@[simp] theorem hostRead_errcode (o z : Nat) (s : State) : (hostRead o z s).errcode = s.errcode := rfl
@[simp] theorem hostRead_result (o z : Nat) (s : State) : (hostRead o z s).result = s.result := rfl
@[simp] theorem hostRead_plan (o z : Nat) (s : State) : (hostRead o z s).plan = s.plan := rfl
@[simp] theorem hostRead_dec (o z : Nat) (s : State) : (hostRead o z s).dec = s.dec := rfl
@[simp] theorem hostRead_bw (o z : Nat) (s : State) : (hostRead o z s).bw = s.bw := rfl
@[simp] theorem hostRead_br (o z : Nat) (s : State) : (hostRead o z s).br = s.br := rfl
@[simp] theorem hostRead_inCur (o z : Nat) (s : State) : (hostRead o z s).inCur = s.inCur := rfl
@[simp] theorem hostRead_inNext (o z : Nat) (s : State) : (hostRead o z s).inNext = s.inNext := rfl
@[simp] theorem hostRead_out (o z : Nat) (s : State) : (hostRead o z s).out = s.out := rfl
@[simp] theorem hostRead_rdata (o z : Nat) (s : State) : (hostRead o z s).rdata = readWindow s o z := rfl
@[simp] theorem hostRead_events (o z : Nat) (s : State) : (hostRead o z s).events = s.events := rfl
@[simp] theorem hostRead_pace (o z : Nat) (s : State) : (hostRead o z s).pace = s.pace := rfl

/-! ### resetBlock -/

@[simp] theorem resetBlock_params (s : State) : (resetBlock s).params = s.params := rfl
@[simp] theorem resetBlock_phase (s : State) : (resetBlock s).phase = .idle := rfl
@[simp] theorem resetBlock_done (s : State) : (resetBlock s).done = false := rfl
@[simp] theorem resetBlock_err (s : State) : (resetBlock s).err = false := rfl
@[simp] theorem resetBlock_errcode (s : State) : (resetBlock s).errcode = 0 := rfl
@[simp] theorem resetBlock_result (s : State) : (resetBlock s).result = 0 := rfl
@[simp] theorem resetBlock_plan (s : State) : (resetBlock s).plan = Plan.reset := rfl
@[simp] theorem resetBlock_dec (s : State) : (resetBlock s).dec = Decoder.reset := rfl
@[simp] theorem resetBlock_bw (s : State) : (resetBlock s).bw = BitWriter.reset := rfl
@[simp] theorem resetBlock_br (s : State) : (resetBlock s).br = BitReader.reset := rfl
@[simp] theorem resetBlock_inCur (s : State) : (resetBlock s).inCur = Stream.unsupplied := rfl
@[simp] theorem resetBlock_inNext (s : State) : (resetBlock s).inNext = s.inNext := rfl
@[simp] theorem resetBlock_out (s : State) : (resetBlock s).out = s.out := rfl
@[simp] theorem resetBlock_rdata (s : State) : (resetBlock s).rdata = s.rdata := rfl
@[simp] theorem resetBlock_events (s : State) : (resetBlock s).events = s.events := rfl
@[simp] theorem resetBlock_pace (s : State) : (resetBlock s).pace = s.pace := rfl

/-! ### BUSY -/

@[simp] theorem busy_of_idle {s : State} (h : s.phase = .idle) : s.busy = false := by simp [State.busy, h]
theorem busy_of_busy {s : State} {p : Pos} (h : s.phase = .busy p) : s.busy = true := by simp [State.busy, h]
theorem busy_eq_true {s : State} : s.busy = true ↔ ∃ p, s.phase = .busy p := by
  cases h : s.phase <;> simp [State.busy, h]
theorem busy_eq_false {s : State} : s.busy = false ↔ s.phase = .idle := by
  cases h : s.phase <;> simp [State.busy, h]
@[simp] theorem goto_busy (s : State) (p : Pos) : (s.goto p).busy = true := rfl
@[simp] theorem accept_busy (p : Pos) (s : State) : (accept p s).busy = true := rfl
@[simp] theorem takeStream_busy (s : State) : (takeStream s).busy = s.busy := rfl
@[simp] theorem State.setBytes_busy (s : State) (r : List Byte) : (s.setBytes r).busy = s.busy := rfl
@[simp] theorem complete_busy (c : BitVec 4) (v : DWord) (s : State) : (complete c v s).busy = false := rfl
@[simp] theorem raise_busy (e : Err) (s : State) : (raise e s).busy = false := rfl
@[simp] theorem err_code_ne_zero (e : Err) : (e.code != 0) = true := by cases e <;> rfl
theorem err_code_le (e : Err) : e.code.toNat ≤ 8 := by cases e <;> decide

end Sys2Proof.Machine
end

