-- ==== Sys2Proof/Laws/Bits.lean ====
section
/-! SUPPORT. Bit strings: bin and val are inverse (00_scope §5), the bits of a byte sequence (R65), and padding (R68, R94). -/

namespace Sys2Proof.Machine

@[simp] theorem bin_length (n v : Nat) : (bin n v).length = n := by
  induction n with
  | zero => rfl
  | succ n ih => simp [bin, ih]

theorem val_foldl (s : Bits) (a : Nat) :
    s.foldl (fun v b => 2 * v + b.toNat) a = a * 2 ^ s.length + val s := by
  induction s generalizing a with
  | nil => simp [val]
  | cons b s ih =>
    have h : val (b :: s) = b.toNat * 2 ^ s.length + val s := by
      show s.foldl _ (2 * 0 + b.toNat) = _
      rw [ih]; simp
    rw [h, List.foldl_cons, ih, List.length_cons, pow_succ]
    ring

theorem val_cons (b : Bool) (s : Bits) : val (b :: s) = b.toNat * 2 ^ s.length + val s := by
  show s.foldl _ (2 * 0 + b.toNat) = _
  rw [val_foldl]; simp

@[simp] theorem val_nil : val [] = 0 := rfl

theorem val_append (s t : Bits) : val (s ++ t) = val s * 2 ^ t.length + val t := by
  rw [val, List.foldl_append, val_foldl]; rfl

theorem val_lt (s : Bits) : val s < 2 ^ s.length := by
  induction s with
  | nil => simp
  | cons b s ih =>
    rw [val_cons, List.length_cons, pow_succ]
    cases b <;> simp <;> omega

theorem val_bin_mod (n v : Nat) : val (bin n v) = v % 2 ^ n := by
  induction n with
  | zero => simp [bin, Nat.mod_one]
  | succ n ih =>
    rw [bin, val_cons, ih, bin_length, pow_succ, Nat.mod_mul, Nat.testBit_eq_decide_div_mod_eq]
    rcases Nat.mod_two_eq_zero_or_one (v / 2 ^ n) with h | h <;> simp [h]
    omega

/-- val inverts bin on the values an n-bit field can hold. -/
theorem val_bin {n v : Nat} (h : v < 2 ^ n) : val (bin n v) = v := by
  rw [val_bin_mod, Nat.mod_eq_of_lt h]

/-- bin inverts val. -/
theorem bin_val (s : Bits) : bin s.length (val s) = s := by
  suffices h : ∀ (s : Bits) (a : Nat), bin s.length (a * 2 ^ s.length + val s) = s by
    simpa using h s 0
  intro s
  induction s with
  | nil => intro a; rfl
  | cons b s ih =>
    intro a
    have hv := val_lt s
    have e : a * 2 ^ (b :: s).length + val (b :: s) = (2 * a + b.toNat) * 2 ^ s.length + val s := by
      rw [val_cons, List.length_cons, pow_succ]; ring
    rw [e, List.length_cons, bin, ih]
    congr 1
    rw [Nat.testBit, Nat.shiftRight_eq_div_pow, Nat.add_comm, Nat.add_mul_div_right _ _ (Nat.two_pow_pos _),
      Nat.div_eq_of_lt hv, Nat.zero_add]
    cases b <;> simp [Nat.add_mod]

theorem bin_injective {n a b : Nat} (ha : a < 2 ^ n) (hb : b < 2 ^ n) (h : bin n a = bin n b) : a = b := by
  rw [← val_bin ha, h, val_bin hb]

/-! ### Byte sequences -/

@[simp] theorem bitsOf_nil : bitsOf [] = [] := rfl
theorem bitsOf_cons (b : Byte) (bs : List Byte) : bitsOf (b :: bs) = bin 8 b.toNat ++ bitsOf bs := rfl
@[simp] theorem bitsOf_append (a b : List Byte) : bitsOf (a ++ b) = bitsOf a ++ bitsOf b := by
  simp [bitsOf]
@[simp] theorem bitsOf_length (bs : List Byte) : (bitsOf bs).length = 8 * bs.length := by
  induction bs with
  | nil => rfl
  | cons b bs ih => rw [bitsOf_cons, List.length_append, bin_length, ih, List.length_cons]; omega

/-- A byte sequence is determined by its bits. -/
theorem bitsOf_injective {a b : List Byte} (h : bitsOf a = bitsOf b) : a = b := by
  induction a generalizing b with
  | nil =>
    have := congrArg List.length h
    cases b with
    | nil => rfl
    | cons _ _ => simp at this
  | cons x a ih =>
    cases b with
    | nil => have := congrArg List.length h; simp at this
    | cons y b =>
      rw [bitsOf_cons, bitsOf_cons] at h
      obtain ⟨h1, h2⟩ := List.append_inj h (by simp)
      rw [ih h2, BitVec.eq_of_toNat_eq (bin_injective x.isLt y.isLt h1)]

/-- Eight bits are the bits of the byte they make (R67). -/
theorem bitsOf_byte {s : Bits} (h : s.length = 8) : bitsOf [BitVec.ofNat 8 (val s)] = s := by
  have hv := val_lt s
  rw [h] at hv
  rw [bitsOf_cons, BitVec.toNat_ofNat, Nat.mod_eq_of_lt hv, bitsOf_nil, List.append_nil]
  have := bin_val s
  rwa [h] at this

/-- The bits from a byte on are those of the bytes from it on. -/
theorem bitsOf_drop (bs : List Byte) (n : Nat) : bitsOf (bs.drop n) = (bitsOf bs).drop (8 * n) := by
  by_cases h : n ≤ bs.length
  · conv_rhs => rw [← List.take_append_drop n bs, bitsOf_append]
    rw [List.drop_left' (by rw [bitsOf_length, List.length_take, Nat.min_eq_left h])]
  · rw [List.drop_eq_nil_of_le (by omega), List.drop_eq_nil_of_le (by rw [bitsOf_length]; omega), bitsOf_nil]

theorem padded_length_mod (s : Bits) : (padded s).length % 8 = 0 := by
  simp [padded]; omega

/-- Every bit string of whole bytes is that of a byte sequence. -/
theorem exists_bitsOf {s : Bits} (h : s.length % 8 = 0) : ∃ bs, bitsOf bs = s := by
  obtain ⟨n, hn⟩ : ∃ n, s.length = 8 * n := ⟨s.length / 8, by omega⟩
  clear h
  induction n generalizing s with
  | zero => exact ⟨[], by simp at hn; simp [hn]⟩
  | succ n ih =>
    obtain ⟨bs, hbs⟩ := ih (s := s.drop 8) (by simp [hn]; omega)
    refine ⟨BitVec.ofNat 8 (val (s.take 8)) :: bs, ?_⟩
    have h8 : (s.take 8).length = 8 := by simp [hn]
    have := bitsOf_byte h8
    rw [show (BitVec.ofNat 8 (val (s.take 8)) :: bs) = [BitVec.ofNat 8 (val (s.take 8))] ++ bs from rfl,
      bitsOf_append, this, hbs, List.take_append_drop]

end Sys2Proof.Machine
end

