-- ==== Sys2Proof/Laws/Tree.lean ====
section
/-! SUPPORT. The Tree Builder: what Insert, the merges and BUILD keep (R130 to R138). -/

namespace Sys2Proof.Machine

theorem symbolCounts_eq (F : FreqTable) :
    symbolCounts F = (List.finRange 256).map fun s => (s, F[s]) := by
  apply List.ext_getElem
  · simp [symbolCounts]
  · intro i h1 h2
    simp [symbolCounts]

theorem insertNode_perm (n : Tree) (wl : List Tree) : (insertNode n wl).Perm (n :: wl) := by
  induction wl with
  | nil => exact .refl _
  | cons x wl ih =>
    rw [insertNode]
    split
    · exact (ih.cons x).trans (.swap n x wl)
    · exact .refl _

@[simp] theorem insertNode_length (n : Tree) (wl : List Tree) : (insertNode n wl).length = wl.length + 1 := by
  simpa using (insertNode_perm n wl).length_eq

theorem mem_insertNode {n t : Tree} {wl : List Tree} : t ∈ insertNode n wl ↔ t = n ∨ t ∈ wl := by
  simpa using (insertNode_perm n wl).mem_iff (a := t)

/-! ### What the merges keep -/

/-- The leaves of a worklist, in its order. -/
def worklistLeaves (wl : List Tree) : List Symbol := wl.flatMap Tree.leaves

/-- The internal nodes of a worklist. -/
def worklistInternals (wl : List Tree) : Nat := (wl.map Tree.internals).sum

/-- The sum of the weights of a worklist, exact. -/
def worklistWeight (wl : List Tree) : Nat := (wl.map fun t => t.weight.toNat).sum

theorem worklistLeaves_insertNode (n : Tree) (wl : List Tree) :
    (worklistLeaves (insertNode n wl)).Perm (n.leaves ++ worklistLeaves wl) :=
  (insertNode_perm n wl).flatMap_right _

theorem worklistInternals_insertNode (n : Tree) (wl : List Tree) :
    worklistInternals (insertNode n wl) = n.internals + worklistInternals wl :=
  ((insertNode_perm n wl).map _).sum_eq

theorem worklistWeight_insertNode (n : Tree) (wl : List Tree) :
    worklistWeight (insertNode n wl) = n.weight.toNat + worklistWeight wl :=
  ((insertNode_perm n wl).map _).sum_eq

/-- The merges end with one node (R133, R134). -/
theorem mergeAll_single {k : Nat} {wl : List Tree} (h : wl.length ≤ k + 1) (ne : wl ≠ []) :
    ∃ t, mergeAll k wl = [t] := by
  induction k generalizing wl with
  | zero =>
    match wl, ne, h with
    | [t], _, _ => exact ⟨t, rfl⟩
    | _ :: _ :: _, _, h => simp at h
  | succ k ih =>
    match wl, ne, h with
    | [t], _, _ => exact ⟨t, rfl⟩
    | a :: b :: wl, _, h =>
      rw [mergeAll]
      refine ih (by simp at h ⊢; omega) ?_
      intro e
      simpa using congrArg List.length e

/-- A property of worklists that every merge keeps holds after all of them. -/
theorem mergeAll_keeps {P : List Tree → Prop}
    (h : ∀ a b wl, P (a :: b :: wl) → P (insertNode (.node a b (a.weight + b.weight)) wl))
    (k : Nat) {wl : List Tree} (p : P wl) : P (mergeAll k wl) := by
  induction k generalizing wl with
  | zero => exact p
  | succ k ih =>
    match wl, p with
    | [], p => exact p
    | [_], p => exact p
    | a :: b :: wl, p => exact ih (h a b wl p)

/-- What holds of the initial worklist and is kept by every merge holds of the tree BUILD returns. -/
theorem build_keeps {P : List Tree → Prop} {F : FreqTable} (init : P (initialWorklist F))
    (h : ∀ a b wl, P (a :: b :: wl) → P (insertNode (.node a b (a.weight + b.weight)) wl)) :
    P [build F] := by
  have ne : initialWorklist F ≠ [] := by
    intro e
    simpa [initialWorklist] using congrArg List.length e
  obtain ⟨t, ht⟩ := mergeAll_single (k := (initialWorklist F).length) (Nat.le_succ _) ne
  have : build F = t := by simp [build, ht]
  rw [this, ← ht]
  exact mergeAll_keeps h _ init

/-! ### The initial worklist -/

/-- The fold of R132 over any list of counted symbols. -/
theorem insertLeaves_fold {P : List Tree → Prop} {Q : List (Fin 256 × Word)}
    (step : ∀ sc ∈ Q, ∀ wl, P wl → sc.2 ≠ 0 →
      P (insertNode (.leaf sc.1.castSucc (sc.2.setWidth 64)) wl)) {wl : List Tree} (init : P wl) :
    P (Q.foldl (fun wl sc => if sc.2 = 0 then wl
      else insertNode (.leaf sc.1.castSucc (sc.2.setWidth 64)) wl) wl) := by
  induction Q generalizing wl with
  | nil => exact init
  | cons sc Q ih =>
    rw [List.foldl_cons]
    apply ih (fun sc' h' => step sc' (.tail _ h'))
    split
    · exact init
    · exact step sc (.head _) wl init ‹_›

theorem insertLeaves_leaves (Q : List (Fin 256 × Word)) (wl : List Tree) :
    (worklistLeaves (Q.foldl (fun wl sc => if sc.2 = 0 then wl
      else insertNode (.leaf sc.1.castSucc (sc.2.setWidth 64)) wl) wl)).Perm
    (worklistLeaves wl ++ (Q.filter fun sc => sc.2 ≠ 0).map fun sc => sc.1.castSucc) := by
  induction Q generalizing wl with
  | nil => simp
  | cons sc Q ih =>
    rw [List.foldl_cons]
    refine (ih _).trans ?_
    by_cases h : sc.2 = 0
    · simp [h]
    · rw [if_neg h, List.filter_cons_of_pos (by simpa using h), List.map_cons]
      refine ((worklistLeaves_insertNode _ wl).append_right _).trans ?_
      simp only [Tree.leaves, List.cons_append]
      exact List.perm_middle.symm

/-- BUILD's leaves are the byte symbols that occur and PSEUDO_EOF (R132, R134). -/
theorem build_leaves (F : FreqTable) : (build F).leaves.Perm (pseudoEof :: occurring F) := by
  have h := build_keeps (P := fun wl => (worklistLeaves wl).Perm (pseudoEof :: occurring F)) (F := F) ?_ ?_
  · simpa [worklistLeaves] using h
  · refine (worklistLeaves_insertNode _ _).trans ?_
    simpa [Tree.leaves, occurring, worklistLeaves, insertLeaves] using
      insertLeaves_leaves (symbolCounts F) []
  · intro a b wl p
    refine (worklistLeaves_insertNode _ _).trans ?_
    simpa [worklistLeaves, Tree.leaves, List.append_assoc] using p

theorem build_eofTree (F : FreqTable) : EofTree (build F) :=
  (build_leaves F).mem_iff.2 (.head _)

theorem occurring_nodup (F : FreqTable) : (occurring F).Nodup := by
  have h : (occurring F).Sublist ((List.finRange 256).map Fin.castSucc) := by
    have : ((List.finRange 256).map Fin.castSucc) = (symbolCounts F).map fun sc => sc.1.castSucc := by
      rw [symbolCounts_eq, List.map_map]; rfl
    rw [this]
    exact List.filter_sublist.map _
  exact h.nodup ((List.nodup_finRange 256).map (Fin.castSucc_injective 256))

theorem mem_occurring {F : FreqTable} {s : Fin 256} : s.castSucc ∈ occurring F ↔ F[s] ≠ 0 := by
  simp [occurring, symbolCounts_eq]

theorem pseudoEof_notMem_occurring (F : FreqTable) : pseudoEof ∉ occurring F := by
  intro h
  simp only [occurring, List.mem_map] at h
  obtain ⟨sc, -, h⟩ := h
  have := congrArg Fin.val h
  have := sc.1.isLt
  simp [pseudoEof] at *
  omega

theorem build_leaves_nodup (F : FreqTable) : (build F).leaves.Nodup :=
  (build_leaves F).nodup_iff.2 (List.nodup_cons.2 ⟨pseudoEof_notMem_occurring F, occurring_nodup F⟩)

/-- A tree has one internal node fewer than leaves (R136). -/
theorem leaves_length (t : Tree) : t.leaves.length = t.internals + 1 := by
  induction t with
  | leaf => rfl
  | node l r w hl hr => simp [Tree.leaves, Tree.internals, hl, hr]; omega

theorem leaves_ne_nil (t : Tree) : t.leaves ≠ [] := by
  intro h
  have := leaves_length t
  simp [h] at this

theorem eofTree_root_leaf {s : Symbol} {w : DWord} (h : EofTree (.leaf s w)) : s = pseudoEof := by
  simpa [EofTree, Tree.leaves, eq_comm] using h

end Sys2Proof.Machine
end

