-- ==== Sys2Proof/Laws/Codes.lean ====
section
/-! SUPPORT. GEN_CODES against the paths of the tree (R150, R151), and the length of a tree's serialization (R172). -/

namespace Sys2Proof.Machine

/-! ### Paths -/

theorem follow_append (t : Tree) (p q : Bits) : t.follow (p ++ q) = (t.follow p).bind fun u => u.follow q := by
  induction p generalizing t with
  | nil => simp [Tree.follow]
  | cons b p ih =>
    cases t with
    | leaf s w => simp [Tree.follow]
    | node l r w => cases b <;> simp [Tree.follow, ih]

theorem follow_unweighted (t : Tree) (p : Bits) : t.unweighted.follow p = (t.follow p).map Tree.unweighted := by
  induction p generalizing t with
  | nil => simp [Tree.follow]
  | cons b p ih =>
    cases t with
    | leaf s w => simp [Tree.follow, Tree.unweighted]
    | node l r w => cases b <;> simp [Tree.follow, Tree.unweighted, ih]

theorem unweighted_leaves (t : Tree) : t.unweighted.leaves = t.leaves := by
  induction t with
  | leaf s w => rfl
  | node l r w hl hr => simp [Tree.unweighted, Tree.leaves, hl, hr]

theorem mem_leaves_of_follow {t : Tree} {p : Bits} {s : Symbol} {w : DWord} (h : t.follow p = some (.leaf s w)) :
    s ∈ t.leaves := by
  induction p generalizing t with
  | nil =>
    simp only [Tree.follow, Option.some.injEq] at h
    simp [h, Tree.leaves]
  | cons b p ih =>
    cases t with
    | leaf s w => simp [Tree.follow] at h
    | node l r w =>
      cases b
      · exact List.mem_append_left _ (ih h)
      · exact List.mem_append_right _ (ih h)

/-! ### GEN -/

/-- GEN leaves the codes of symbols outside its subtree alone (R150). -/
theorem genInto_of_notMem {t : Tree} {p : Bits} {code : CodeTable} {s : Symbol} (h : s ∉ t.leaves) :
    (genInto t p code)[s] = code[s] := by
  induction t generalizing p code with
  | leaf x w =>
    have : x ≠ s := by
      rintro rfl
      exact h (by simp [Tree.leaves])
    simp [genInto, Fin.val_ne_of_ne this]
  | node l r w hl hr =>
    simp only [Tree.leaves, List.mem_append, not_or] at h
    rw [genInto, hr h.2, hl h.1]

/-- GEN gives every leaf of its subtree the path that leads to it (R150, R151). -/
theorem genInto_of_mem {t : Tree} {p : Bits} {code : CodeTable} {s : Symbol} (nd : t.leaves.Nodup) (h : s ∈ t.leaves) :
    ∃ q w, (genInto t p code)[s] = some (p ++ q) ∧ t.follow q = some (.leaf s w) := by
  induction t generalizing p code with
  | leaf x w =>
    simp only [Tree.leaves, List.mem_singleton] at h
    subst h
    exact ⟨[], w, by simp [genInto], rfl⟩
  | node l r w hl hr =>
    simp only [Tree.leaves, List.nodup_append, List.mem_append] at nd h
    by_cases hs : s ∈ r.leaves
    · obtain ⟨q, w', e, f⟩ := hr (p := p ++ [true]) (code := genInto l (p ++ [false]) code) nd.2.1 hs
      exact ⟨true :: q, w', by rw [genInto, e]; simp, f⟩
    · have hsl : s ∈ l.leaves := h.resolve_right hs
      obtain ⟨q, w', e, f⟩ := hl (p := p ++ [false]) (code := code) nd.1 hsl
      exact ⟨false :: q, w', by rw [genInto, genInto_of_notMem hs, e]; simp, f⟩

/-- CODE[s] of a tree with no repeated symbol is the path of the leaf of s (R151). -/
theorem genCodes_of_mem {t : Tree} {s : Symbol} (nd : t.leaves.Nodup) (h : s ∈ t.leaves) :
    ∃ q w, (genCodes t)[s] = some q ∧ codeBits (genCodes t) s = q ∧ t.follow q = some (.leaf s w) := by
  obtain ⟨q, w, e, f⟩ := genInto_of_mem (p := []) (code := Vector.replicate 257 none) nd h
  exact ⟨q, w, e, by rw [codeBits, genCodes, e]; rfl, f⟩

/-- A symbol with no leaf has no code (R150, R154). -/
theorem genCodes_of_notMem {t : Tree} {s : Symbol} (h : s ∉ t.leaves) : (genCodes t)[s] = none := by
  rw [genCodes, genInto_of_notMem h]
  simp

/-! ### Sizes -/

/-- A tree with L leaves serializes to 11·L − 1 bits (R172). -/
theorem ser_length (t : Tree) : (ser t).length + 1 = 11 * t.leaves.length := by
  induction t with
  | leaf s w => simp [ser, Tree.leaves]
  | node l r w hl hr => simp [ser, Tree.leaves]; omega

theorem leaves_length_le_of_nodup {t : Tree} (h : t.leaves.Nodup) : t.leaves.length ≤ 257 := by
  simpa using h.length_le_card

theorem ser_length_lt {t : Tree} (h : t.leaves.Nodup) : (ser t).length < 2 ^ 32 := by
  have := ser_length t
  have := leaves_length_le_of_nodup h
  omega

theorem internals_le_of_nodup {t : Tree} (h : t.leaves.Nodup) : t.internals ≤ 256 := by
  have := leaves_length t
  have := leaves_length_le_of_nodup h
  omega

@[simp] theorem headerCounts_length (F : FreqTable) : (headerCounts F).length = 8192 := by
  have h : ∀ l : List Word, (l.flatMap fun c => bin 32 c.toNat).length = 32 * l.length := by
    intro l
    induction l with
    | nil => rfl
    | cons a l ih => simp [ih]; omega
  rw [headerCounts, h]
  simp

end Sys2Proof.Machine
end

