-- ==== Sys2Proof/Laws/Run.lean ====
section
/-! SUPPORT. Running the block: run is the iteration of blockStep; a run splits and stops where the block is quiescent; one lemma
per position says what a block step there does. -/

namespace Sys2Proof.Machine

theorem blockStep_idle {s : State} (h : s.phase = .idle) : blockStep s = s := by simp [blockStep, h]

theorem blockStep_busy {s : State} {p : Pos} (h : s.phase = .busy p) : blockStep s = posStep p s := by
  simp [blockStep, h]

/-! ### InByte and ReadBits -/

theorem inByte_cons {s : State} {b : Byte} {r : List Byte} (h : s.inCur.bytes = b :: r) :
    inByte s = .byte b (s.setBytes r) := by simp [inByte, h]
theorem inByte_eos {s : State} (h : s.inCur.bytes = []) (t : s.inCur.term = some .eos) : inByte s = .eos := by
  simp [inByte, h, t]
theorem inByte_fail {s : State} (h : s.inCur.bytes = []) (t : s.inCur.term = some .fail) : inByte s = .fail := by
  simp [inByte, h, t]
theorem inByte_wait {s : State} (h : s.inCur.bytes = []) (t : s.inCur.term = none) : inByte s = .wait := by
  simp [inByte, h, t]

/-- Everything InByte() can find (R63, R314). -/
theorem inByte_cases (s : State) :
    (∃ b r, s.inCur.bytes = b :: r ∧ inByte s = .byte b (s.setBytes r)) ∨
    (s.inCur.bytes = [] ∧ s.inCur.term = some .eos ∧ inByte s = .eos) ∨
    (s.inCur.bytes = [] ∧ s.inCur.term = some .fail ∧ inByte s = .fail) ∨
    (s.inCur.bytes = [] ∧ s.inCur.term = none ∧ inByte s = .wait) := by
  cases hb : s.inCur.bytes with
  | cons b r => exact .inl ⟨b, r, rfl, inByte_cons hb⟩
  | nil =>
    cases ht : s.inCur.term with
    | none => exact .inr (.inr (.inr ⟨rfl, rfl, inByte_wait hb ht⟩))
    | some t =>
      cases t with
      | eos => exact .inr (.inl ⟨rfl, rfl, inByte_eos hb ht⟩)
      | fail => exact .inr (.inr (.inl ⟨rfl, rfl, inByte_fail hb ht⟩))

/-! ### Quiescence -/

theorem quiescent_idle {s : State} (h : s.phase = .idle) : s.quiescent = true := by simp [State.quiescent, h]

theorem quiescent_busy {s : State} {p : Pos} (h : s.phase = .busy p) :
    s.quiescent = true ↔ p.fetches s.br.k = true ∧ s.inCur.bytes = [] ∧ s.inCur.term = none := by
  simp [State.quiescent, h, and_assoc]

/-- A quiescent block does not move (R302, R314). -/
theorem blockStep_of_quiescent {s : State} (h : s.quiescent = true) : blockStep s = s := by
  cases hp : s.phase with
  | idle => exact blockStep_idle hp
  | busy p =>
    obtain ⟨hf, hb, ht⟩ := (quiescent_busy hp).1 h
    have hw := inByte_wait hb ht
    rw [blockStep_busy hp]
    match p, hf with
    | .count _ _, _ => simp [posStep, countStep, hw]
    | .symbols, _ => simp [posStep, symbolStep, hw]
    | .read (_ + 1) _ _, hf => simp [Pos.fetches] at hf; simp [posStep, readBit, hf, hw]

theorem run_of_quiescent {s : State} (h : s.quiescent = true) (n : Nat) : run n s = s := by
  cases n <;> simp [run, h]

@[simp] theorem run_zero (s : State) : run 0 s = s := rfl

/-- run is the iteration of blockStep: stopping early changes nothing. -/
theorem run_succ (n : Nat) (s : State) : run (n + 1) s = run n (blockStep s) := by
  by_cases h : s.quiescent = true
  · rw [run, if_pos h, blockStep_of_quiescent h, run_of_quiescent h]
  · rw [run, if_neg h]

theorem run_add (m n : Nat) (s : State) : run (m + n) s = run n (run m s) := by
  induction m generalizing s with
  | zero => simp
  | succ m ih => rw [Nat.succ_add, run_succ, ih, run_succ]

/-- A run that has reached a quiescent state stays there, however many steps it is given. -/
theorem run_of_le {m n : Nat} {s : State} (h : m ≤ n) (q : (run m s).quiescent = true) : run n s = run m s := by
  obtain ⟨d, rfl⟩ := Nat.exists_eq_add_of_le h
  rw [run_add, run_of_quiescent q]

/-- Two runs of one state that end quiescent end in the same state. -/
theorem run_eq_of_quiescent {m n : Nat} {s : State} (hm : (run m s).quiescent = true)
    (hn : (run n s).quiescent = true) : run m s = run n s := by
  rcases Nat.le_total m n with h | h
  · exact (run_of_le h hm).symm
  · exact run_of_le h hn

/-- t is reached from s by some number of block steps. -/
def Reaches (s t : State) : Prop := ∃ n, run n s = t

theorem Reaches.refl (s : State) : Reaches s s := ⟨0, rfl⟩
theorem Reaches.step {s : State} : Reaches s (blockStep s) := ⟨1, run_succ 0 s⟩
theorem Reaches.trans {s t u : State} (h : Reaches s t) (g : Reaches t u) : Reaches s u := by
  obtain ⟨m, rfl⟩ := h
  obtain ⟨n, rfl⟩ := g
  exact ⟨m + n, run_add m n s⟩
theorem Reaches.of_step {s t : State} (h : Reaches (blockStep s) t) : Reaches s t := Reaches.step.trans h

end Sys2Proof.Machine
end

