-- ==== Sys2Proof/Laws/Inv.lean ====
section
/-! SUPPORT. The invariant of the machine, piece by piece: each operation of the block keeps it (R23 to R26, R30, R85). -/

namespace Sys2Proof.Machine

/-! ### The parts of the invariant an operation does not look at -/

/-- An invariant state whose command goes on: only the phase, the decoder, the unread stream and the bit reader may differ, and the
new position is as it must be. -/
theorem State.Inv.moves {s t : State} (h : s.Inv) (b : s.busy = true) (p : Pos) (hp : t.phase = .busy p)
    (hk : PosOk t p) (hbr : t.br.k < 8) (e1 : t.params = s.params) (e2 : t.done = s.done) (e3 : t.err = s.err)
    (e4 : t.errcode = s.errcode) (e5 : t.result = s.result) (e6 : t.plan = s.plan) (e7 : t.bw = s.bw) : t.Inv where
  params := by rw [e1]; exact h.params
  status := {
    exclusive := fun _ => by rw [e2]; exact h.status.exclusive b
    err := by rw [e3, e4]; exact h.status.err
    produced := by rw [e4]; exact h.status.produced
    running := fun _ => by rw [e4, e5]; exact h.status.running b }
  ports := { acc := by rw [e7]; exact h.ports.acc, nout := by rw [e7]; exact h.ports.nout, br := hbr }
  plan := by rw [e6]; exact h.plan
  pos := fun q hq => by
    rw [hp] at hq
    cases hq
    exact hk

theorem State.Inv.goto {s : State} (h : s.Inv) (b : s.busy = true) {p : Pos} (hk : PosOk (s.goto p) p) : (s.goto p).Inv :=
  h.moves b p rfl hk h.ports.br rfl rfl rfl rfl rfl rfl rfl

/-- The error entry (R279) keeps the invariant, in any state whose parameters, ports and plan are as they must be. -/
theorem raise_inv {s : State} (e : Err) (hp : s.params.Distinct) (hn : s.bw.nout.toNat % 8 = 0) (hb : s.br.k < 8)
    (hpl : PlanOk s.plan) : (raise e s).Inv where
  params := hp
  status := {
    exclusive := fun h => by simp at h
    err := rfl
    produced := err_code_le e
    running := fun h => by simp at h }
  ports := { acc := by simp [BitWriter.k], nout := hn, br := hb }
  plan := hpl
  pos := fun p h => by simp at h

theorem State.Inv.raise {s : State} (h : s.Inv) (e : Err) : (raise e s).Inv :=
  raise_inv e h.params h.ports.nout h.ports.br h.plan

theorem State.Inv.complete {s : State} (h : s.Inv) (v : DWord) : (complete 0 v s).Inv where
  params := h.params
  status := {
    exclusive := fun h => by simp at h
    err := rfl
    produced := Nat.zero_le _
    running := fun h => by simp at h }
  ports := { acc := h.ports.acc, nout := h.ports.nout, br := h.ports.br }
  plan := h.plan
  pos := fun p h => by simp at h

/-! ### COUNT and the plan -/

theorem total_replicate : total (Vector.replicate 256 0) = 0 := by decide +kernel

theorem sum_set {l : List Nat} {i : Nat} (h : i < l.length) (v : Nat) : (l.set i v).sum + l[i] = l.sum + v := by
  induction l generalizing i with
  | nil => simp at h
  | cons a l ih =>
    cases i with
    | zero => simp; omega
    | succ i =>
      have := ih (i := i) (by simpa using h)
      simp only [List.set_cons_succ, List.sum_cons, List.getElem_cons_succ]
      omega

/-- Counting one more byte adds one to the total (R110). -/
theorem total_count {F : FreqTable} {b : Byte} (h : freqOf F b ≠ BitVec.allOnes 32) :
    total (F.set b.toNat (freqOf F b + 1) b.isLt) = total F + 1 := by
  have hb := b.isLt
  have hlen : b.toNat < (F.toList.map BitVec.toNat).length := by simpa using hb
  have key := sum_set hlen (freqOf F b + 1).toNat
  have h1 : (F.toList.map BitVec.toNat)[b.toNat] = (freqOf F b).toNat := by simp [freqOf]
  have h2 : (freqOf F b + 1).toNat = (freqOf F b).toNat + 1 := by
    have : (freqOf F b).toNat ≠ 4294967295 := fun e => h (BitVec.eq_of_toNat_eq (by simpa using e))
    have := (freqOf F b).isLt
    rw [BitVec.toNat_add]
    simp
    omega
  have h3 : total (F.set b.toNat (freqOf F b + 1) b.isLt)
      = ((F.toList.map BitVec.toNat).set b.toNat (freqOf F b + 1).toNat).sum := by
    simp [total, Vector.toList_set, List.map_set]
  rw [h1, h2] at key
  rw [h2] at h3
  have h4 : total F = (F.toList.map BitVec.toNat).sum := rfl
  omega

theorem ofNat_add_one (w n : Nat) : BitVec.ofNat w n + 1 = BitVec.ofNat w (n + 1) := by
  apply BitVec.eq_of_toNat_eq
  simp

theorem startCount_inv {s : State} (h : s.Inv) (b : s.busy = true) (fmt : HeaderFormat) : (startCount fmt s).Inv where
  params := h.params
  status := {
    exclusive := fun _ => h.status.exclusive b
    err := h.status.err
    produced := h.status.produced
    running := fun _ => h.status.running b }
  ports := { acc := h.ports.acc, nout := h.ports.nout, br := h.ports.br }
  plan := fun hv => by simp at hv
  pos := fun p hp => by
    simp at hp
    subst hp
    exact ⟨rfl, by rw [startCount_plan, total_replicate]⟩

theorem countByte_inv {s : State} (h : s.Inv) (bs : s.busy = true) {fmt : HeaderFormat} {n : DWord}
    (hk : s.plan.valid = false ∧ n = BitVec.ofNat 64 (total s.plan.freq)) (b : Byte) :
    (countByte fmt n b s).Inv := by
  unfold countByte
  split
  · exact h.raise _
  · rename_i hne
    exact {
      params := h.params
      status := {
        exclusive := fun _ => h.status.exclusive bs
        err := h.status.err
        produced := h.status.produced
        running := fun _ => h.status.running bs }
      ports := { acc := h.ports.acc, nout := h.ports.nout, br := h.ports.br }
      plan := fun hv => by simp [hk.1] at hv
      pos := fun p hp => by
        cases hp
        exact ⟨hk.1, by rw [total_count hne, hk.2, ofNat_add_one]⟩ }

theorem finishPlan_inv {s : State} (h : s.Inv) (b : s.busy = true) {fmt : HeaderFormat} {n : DWord}
    (hk : n = BitVec.ofNat 64 (total s.plan.freq)) : (finishPlan fmt n s).Inv where
  params := h.params
  status := {
    exclusive := fun _ => h.status.exclusive b
    err := h.status.err
    produced := h.status.produced
    running := fun _ => h.status.running b }
  ports := { acc := h.ports.acc, nout := h.ports.nout, br := h.ports.br }
  plan := fun _ => by rw [finishPlan_plan, hk]; rfl
  pos := fun p hp => by
    simp at hp
    subst hp
    trivial

/-- Fetching a byte keeps the invariant: it looks at nothing of the stream but BR. -/
theorem State.Inv.fetched {s : State} (h : s.Inv) (r : List Byte) : (s.setBytes r).Inv where
  params := h.params
  status := { exclusive := h.status.exclusive, err := h.status.err, produced := h.status.produced, running := h.status.running }
  ports := { acc := h.ports.acc, nout := h.ports.nout, br := h.ports.br }
  plan := h.plan
  pos := fun p hp => by
    have := h.pos p hp
    match p, this with
    | .preprocess _, _ => trivial
    | .count _ _, k => exact k
    | .compress _, _ => trivial
    | .symbols, k => exact k
    | .decompress, _ => trivial
    | .read _ _ .magic, _ => trivial
    | .read _ _ .selector, _ => trivial
    | .read _ _ (.count _ _), _ => trivial
    | .read _ _ .treeLen, _ => trivial
    | .read _ _ (.token _), k => exact k
    | .read _ _ (.leafValue _), k => exact k
    | .read _ _ .dataBit, k => exact k
    | .walk, k => exact k
    | .emit _ .toSymbols, k => exact k
    | .emit _ .toFlush, k => exact k
    | .emit _ .toReturn, k => exact k
    | .emit _ .toWalk, k => exact k
    | .ret _, _ => trivial

theorem countStep_inv {s : State} (h : s.Inv) (b : s.busy = true) {fmt : HeaderFormat} {n : DWord}
    (hk : s.plan.valid = false ∧ n = BitVec.ofNat 64 (total s.plan.freq)) : (countStep fmt n s).Inv := by
  unfold countStep
  rcases inByte_cases s with ⟨x, r, -, e⟩ | ⟨-, -, e⟩ | ⟨-, -, e⟩ | ⟨-, -, e⟩ <;> rw [e]
  · exact countByte_inv (h.fetched r) b hk x
  · exact finishPlan_inv h b hk.2
  · exact h.raise _
  · exact h

/-! ### COMPRESS -/

theorem startCompress_inv {s : State} (h : s.Inv) (b : s.busy = true) (force : Bool) : (startCompress force s).Inv := by
  unfold startCompress
  split
  · exact h.raise _
  · rename_i hv
    split
    · exact h.goto b trivial
    · exact h.goto b (by simpa [PosOk] using hv)

theorem symbolStep_inv {s : State} (h : s.Inv) (b : s.busy = true) (hv : s.plan.valid = true) : (symbolStep s).Inv := by
  unfold symbolStep
  rcases inByte_cases s with ⟨x, r, -, e⟩ | ⟨-, -, e⟩ | ⟨-, -, e⟩ | ⟨-, -, e⟩ <;> rw [e]
  · show (symbolByte x (s.setBytes r)).Inv
    unfold symbolByte
    split
    · exact (h.fetched r).raise _
    · exact (h.fetched r).goto b hv
  · exact h.goto b hv
  · exact h.raise _
  · exact h

/-- EmitBit keeps the ports as they must be (R30, R67). -/
theorem emitBit_ports {s : State} (h : PortsOk s) (b : Bool) : PortsOk (emitBit b s) := by
  unfold emitBit
  have ha := h.acc
  have hn := h.nout
  split
  · exact { acc := by simp [BitWriter.k], nout := by simp [BitVec.toNat_add]; omega, br := h.br }
  · rename_i hne
    exact { acc := by simp [BitWriter.k] at ha hne ⊢; omega, nout := hn, br := h.br }

/-- EmitBit changes OUT and BW only. -/
theorem emitBit_frame (b : Bool) (s : State) :
    emitBit b s = { s with out := (emitBit b s).out, bw := (emitBit b s).bw } := by
  unfold emitBit
  split <;> rfl

theorem emitBit_goto_inv {s : State} (h : s.Inv) (bs : s.busy = true) (b : Bool) {p : Pos}
    (hk : PosOk ((emitBit b s).goto p) p) : ((emitBit b s).goto p).Inv := by
  have hp := emitBit_ports h.ports b
  rw [emitBit_frame] at hk hp ⊢
  exact {
    params := h.params
    status := {
      exclusive := fun _ => h.status.exclusive bs
      err := h.status.err
      produced := h.status.produced
      running := fun _ => h.status.running bs }
    ports := { acc := hp.acc, nout := hp.nout, br := hp.br }
    plan := h.plan
    pos := fun q hq => by
      cases hq
      exact hk }

/-! ### DECOMPRESS -/

theorem startWalk_inv {s : State} (h : s.Inv) (b : s.busy = true) {t : Tree} (ht : EofTree t) : (startWalk t s).Inv :=
  h.moves b .walk rfl ht h.ports.br rfl rfl rfl rfl rfl rfl rfl

theorem countRead_inv {s : State} (h : s.Inv) (b : s.busy = true) (i : Fin 256) (F : FreqTable) (v : Nat) :
    (countRead i F v s).Inv := by
  unfold countRead
  split
  · exact h.goto b trivial
  · exact startWalk_inv h b (build_eofTree _)

theorem takeField_inv {s : State} (h : s.Inv) (b : s.busy = true) {n : Nat} {k : ParseState → ReadCont} {p : ParseState}
    (hk : p.c + n ≤ p.T → PosOk (s.goto (.read n 0 (k p))) (.read n 0 (k p))) : (takeField n k p s).Inv := by
  unfold takeField
  split
  · exact h.raise _
  · exact h.goto b (hk (by omega))

/-- plug puts the leaves of a finished subtree before those of the open nodes, and loses none (R176). -/
theorem plug_leaves (t : Tree) (st : List Frame) :
    (∀ root, plug t st = .inl root → ∀ x, x ∈ root.leaves ↔ x ∈ t.leaves ∨ x ∈ openLeaves st) ∧
    (∀ st', plug t st = .inr st' → ∀ x, x ∈ openLeaves st' ↔ x ∈ t.leaves ∨ x ∈ openLeaves st) := by
  induction st generalizing t with
  | nil =>
    constructor
    · intro root e
      cases e
      simp [openLeaves]
    · intro st' e
      cases e
  | cons f st ih =>
    cases f with
    | left =>
      constructor
      · intro root e
        cases e
      · intro st' e
        cases e
        simp [openLeaves]
    | right l =>
      have h := ih (.node l t 0)
      constructor
      · intro root e x
        rw [h.1 root e x]
        simp [Tree.leaves, openLeaves]
        tauto
      · intro st' e x
        rw [h.2 st' e x]
        simp [Tree.leaves, openLeaves]
        tauto

theorem tokenRead_inv {s : State} (h : s.Inv) (b : s.busy = true) {p : ParseState} (hp : ParseOk p) (v : Nat) :
    (tokenRead p v s).Inv := by
  unfold tokenRead
  split
  · split
    · exact h.raise _
    · exact takeField_inv h b fun hc =>
        { within := by simp at hc ⊢; omega, internals := by simp; omega
          seen := by simpa [openLeaves] using hp.seen }
  · exact takeField_inv h b fun hc =>
      { within := by simp at hc ⊢; omega, internals := hp.internals, seen := hp.seen }

theorem parseDone_inv {s : State} (h : s.Inv) (b : s.busy = true) {root : Tree} {p : ParseState}
    (hs : pseudoEof ∈ p.seen → EofTree root) : (parseDone root p s).Inv := by
  have hr : ∀ e, (raise e { s with dec := { s.dec with tree := root } }).Inv := fun e =>
    raise_inv e h.params h.ports.nout h.ports.br h.plan
  unfold parseDone
  dsimp only
  split
  · exact hr _
  · split
    · exact hr _
    · rename_i hm
      exact h.moves b .walk rfl (hs (by simpa using hm)) h.ports.br rfl rfl rfl rfl rfl rfl rfl

theorem leafValueRead_inv {s : State} (h : s.Inv) (b : s.busy = true) {p : ParseState} (hp : ParseOk p) (v : Nat) :
    (leafValueRead p v s).Inv := by
  unfold leafValueRead
  dsimp only
  split
  · rename_i hv
    split
    · exact h.raise _
    · have pl := plug_leaves (.leaf ⟨v, hv⟩ 0) p.stack
      split
      · rename_i root e
        refine parseDone_inv h b fun hm => (pl.1 root e pseudoEof).2 ?_
        simpa [Tree.leaves, ← hp.seen] using hm
      · rename_i st e
        exact takeField_inv h b fun hc =>
          { within := by simp at hc ⊢; omega, internals := hp.internals
            seen := fun x => by simp [pl.2 st e x, Tree.leaves, hp.seen x] }
  · exact h.raise _

theorem readDone_inv {s : State} (h : s.Inv) (b : s.busy = true) {k : ReadCont} {n v : Nat} (hk : PosOk s (.read n v k))
    (w : Nat) : (readDone k w s).Inv := by
  cases k with
  | magic =>
    simp only [readDone, magicRead]
    split
    · exact h.raise _
    · exact h.goto b trivial
  | selector =>
    simp only [readDone, selectorRead]
    split
    · exact h.goto b trivial
    · split
      · exact h.goto b trivial
      · exact h.raise _
  | count i F => exact countRead_inv h b i F w
  | treeLen =>
    exact takeField_inv h b fun hc => { within := by simp, internals := by simp, seen := by simp [openLeaves] }
  | token p => exact tokenRead_inv h b hk w
  | leafValue p => exact leafValueRead_inv h b hk w
  | dataBit =>
    simp only [readDone, dataBitRead]
    split
    · exact h.moves b .walk rfl hk.1 h.ports.br rfl rfl rfl rfl rfl rfl rfl
    · exact h.goto b hk.1

theorem posOk_read {s t : State} {m n v w : Nat} {k : ReadCont} (h : PosOk s (.read m v k)) (e : t.dec = s.dec) :
    PosOk t (.read n w k) := by
  cases k with
  | dataBit => simp only [PosOk] at h ⊢; rw [e]; exact h
  | token p => exact h
  | leafValue p => exact h
  | _ => trivial

theorem readBit_inv {s : State} (h : s.Inv) (b : s.busy = true) {n v : Nat} {k : ReadCont}
    (hk : PosOk s (.read (n + 1) v k)) : (readBit n v k s).Inv := by
  have hbr := h.ports.br
  unfold readBit
  split
  · rcases inByte_cases s with ⟨x, r, -, e⟩ | ⟨-, -, e⟩ | ⟨-, -, e⟩ | ⟨-, -, e⟩ <;> rw [e]
    · exact h.moves b _ rfl (posOk_read hk rfl) (by simp) rfl rfl rfl rfl rfl rfl rfl
    · exact h.raise _
    · exact h.raise _
    · exact h
  · exact h.moves b _ rfl (posOk_read hk rfl) (by simp; omega) rfl rfl rfl rfl rfl rfl rfl

theorem walkStep_inv {s : State} (h : s.Inv) (b : s.busy = true) (hk : EofTree s.dec.tree) : (walkStep s).Inv := by
  unfold walkStep
  split
  · split
    · exact h.goto b trivial
    · exact h.goto b hk
  · rename_i e
    exact h.goto b ⟨hk, by simp [e, Tree.internals]⟩

theorem emitDone_inv {s : State} (h : s.Inv) (b : s.busy = true) {k : EmitCont} {r : Bits} (hk : PosOk s (.emit r k)) :
    (emitDone k s).Inv := by
  cases k with
  | toSymbols => exact h.goto b hk
  | toFlush => exact h.goto b hk
  | toReturn => exact h.goto b trivial
  | toWalk => exact h.moves b .walk rfl hk h.ports.br rfl rfl rfl rfl rfl rfl rfl

theorem posOk_emit {s t : State} {r q : Bits} {k : EmitCont} (h : PosOk s (.emit r k)) (e : t.plan = s.plan)
    (d : t.dec = s.dec) : PosOk t (.emit q k) := by
  cases k with
  | toWalk => simp only [PosOk] at h ⊢; rw [d]; exact h
  | _ => simp only [PosOk] at h ⊢; rw [e]; exact h

/-! ### A block step, and a run -/

theorem posStep_inv {s : State} (h : s.Inv) {p : Pos} (hp : s.phase = .busy p) : (posStep p s).Inv := by
  have b := busy_of_busy hp
  have hk := h.pos p hp
  match p, hk with
  | .preprocess fmt, _ => exact startCount_inv h b fmt
  | .count fmt n, hk => exact countStep_inv h b hk
  | .compress force, _ => exact startCompress_inv h b force
  | .symbols, hk => exact symbolStep_inv h b hk
  | .decompress, _ => exact h.goto b trivial
  | .read 0 v k, hk => exact readDone_inv h b hk v
  | .read (n + 1) v k, hk => exact readBit_inv h b hk
  | .walk, hk => exact walkStep_inv h b hk
  | .emit [] k, hk => exact emitDone_inv h b hk
  | .emit (x :: r) k, hk =>
    refine emitBit_goto_inv h b x ?_
    rw [emitBit_frame]
    exact posOk_emit hk rfl rfl
  | .ret v, _ => exact h.complete v

/-- A block step keeps the invariant. -/
theorem blockStep_inv {s : State} (h : s.Inv) : (blockStep s).Inv := by
  cases hp : s.phase with
  | idle => rwa [blockStep_idle hp]
  | busy p => rw [blockStep_busy hp]; exact posStep_inv h hp

/-- A run of the block keeps the invariant. -/
theorem run_inv (n : Nat) {s : State} (h : s.Inv) : (run n s).Inv := by
  induction n generalizing s with
  | zero => exact h
  | succ n ih => rw [run_succ]; exact ih (blockStep_inv h)

theorem progress_inv {s : State} (h : s.Inv) : (progress s).Inv := by
  unfold progress
  split
  · exact run_inv _ h
  · exact run_inv _ h

end Sys2Proof.Machine
end

