-- ==== Sys2Proof/Laws/Termination.lean ====
section
/-! SUPPORT. Every block step of a running command that is not waiting makes a measure smaller, and the measure is at most the
horizon: so a run of horizon steps ends quiescent (R314, R320). -/

namespace Sys2Proof.Machine

/-- The unread bits of the stream. -/
def State.bitsLeft (s : State) : Nat := 8 * s.inCur.bytes.length + s.br.k

/-- What the symbol loop of COMPRESS can still cost: one code for each unread byte, and the EOF code with its padding. -/
def State.loopCost (s : State) : Nat :=
  s.inCur.bytes.length * (longestCode s.plan.code + 2) + longestCode s.plan.code + 12

/-- The cost of the top of the symbol decode loop: a byte leaf is written first. -/
def walkCost : Tree → Nat
  | .leaf s _   => if s = pseudoEof then 2 else 12
  | .node _ _ _ => 2

/-- The measure at each position. -/
def posCost (s : State) : Pos → Nat
  | .preprocess _           => s.inCur.bytes.length + 3
  | .count _ _              => s.inCur.bytes.length + 2
  | .compress _             => (streamHead s.params s.plan).length + 2 + s.loopCost
  | .symbols                => s.loopCost
  | .decompress             => 16 * s.bitsLeft + 2
  | .read 0 _ .dataBit      => 16 * s.bitsLeft + 13
  | .read 0 _ _             => 16 * s.bitsLeft + 14
  | .read (_ + 1) _ _       => 16 * s.bitsLeft + 1
  | .walk                   => 16 * s.bitsLeft + walkCost s.dec.node
  | .emit r .toSymbols      => r.length + 1 + s.loopCost
  | .emit r .toFlush        => r.length + 10
  | .emit r .toReturn       => r.length + 2
  | .emit r .toWalk         => 16 * s.bitsLeft + 3 + r.length
  | .ret _                  => 1

/-- The measure of a state: 0 when IDLE. -/
def State.cost (s : State) : Nat :=
  match s.phase with
  | .idle   => 0
  | .busy p => posCost s p

theorem cost_busy {s : State} {p : Pos} (h : s.phase = .busy p) : s.cost = posCost s p := by simp [State.cost, h]
@[simp] theorem cost_goto (s : State) (p : Pos) : (s.goto p).cost = posCost (s.goto p) p := rfl
@[simp] theorem cost_raise (e : Err) (s : State) : (raise e s).cost = 0 := rfl
@[simp] theorem cost_complete (c : BitVec 4) (v : DWord) (s : State) : (complete c v s).cost = 0 := rfl

theorem posCost_pos (s : State) (p : Pos) : 0 < posCost s p := by
  match p with
  | .preprocess _ => simp [posCost]
  | .count _ _ => simp [posCost]
  | .compress _ => simp [posCost]
  | .symbols => simp [posCost, State.loopCost]
  | .decompress => simp [posCost]
  | .read 0 _ .dataBit => simp [posCost]
  | .read 0 _ .magic => simp [posCost]
  | .read 0 _ .selector => simp [posCost]
  | .read 0 _ (.count _ _) => simp [posCost]
  | .read 0 _ .treeLen => simp [posCost]
  | .read 0 _ (.token _) => simp [posCost]
  | .read 0 _ (.leafValue _) => simp [posCost]
  | .read (_ + 1) _ _ => simp [posCost]
  | .walk => simp [posCost, walkCost]; split <;> (try split) <;> omega
  | .emit _ .toSymbols => simp [posCost]
  | .emit _ .toFlush => simp [posCost]
  | .emit _ .toReturn => simp [posCost]
  | .emit _ .toWalk => simp [posCost]
  | .ret _ => simp [posCost]

/-! ### The codes of a table -/

theorem foldl_max_le (l : List (Option Bits)) (a : Nat) :
    a ≤ l.foldl (fun m c => max m (c.getD []).length) a ∧
    ∀ c ∈ l, (c.getD []).length ≤ l.foldl (fun m c => max m (c.getD []).length) a := by
  induction l generalizing a with
  | nil => simp
  | cons c l ih =>
    obtain ⟨h1, h2⟩ := ih (max a (c.getD []).length)
    rw [List.foldl_cons]
    refine ⟨by omega, ?_⟩
    intro d hd
    rcases List.mem_cons.1 hd with rfl | hd
    · omega
    · exact h2 d hd

theorem codeBits_le_longest (code : CodeTable) (s : Symbol) : (codeBits code s).length ≤ longestCode code := by
  refine (foldl_max_le code.toList 0).2 _ ?_
  simp

/-! ### One block step -/

theorem walkCost_le (t : Tree) : walkCost t ≤ 12 := by
  cases t <;> simp [walkCost]
  split <;> omega

theorem walkCost_eofTree {t : Tree} (h : EofTree t) : walkCost t = 2 := by
  cases t with
  | leaf s w => simp [walkCost, eofTree_root_leaf h]
  | node l r w => rfl

theorem posCost_read_zero (s : State) (v : Nat) (k : ReadCont) :
    posCost s (.read 0 v k) ≤ 16 * s.bitsLeft + 14 ∧ 16 * s.bitsLeft + 13 ≤ posCost s (.read 0 v k) ∧
    (k ≠ .dataBit → posCost s (.read 0 v k) = 16 * s.bitsLeft + 14) := by
  cases k <;> simp [posCost]

theorem takeField_cost (n : Nat) (hn : n ≠ 0) (k : ParseState → ReadCont) (p : ParseState) (s : State) :
    (takeField n k p s).cost ≤ 16 * s.bitsLeft + 1 := by
  unfold takeField
  split
  · simp
  · obtain ⟨m, rfl⟩ := Nat.exists_eq_succ_of_ne_zero hn
    exact Nat.le_of_eq rfl

theorem startWalk_cost (t : Tree) (s : State) : (startWalk t s).cost ≤ 16 * s.bitsLeft + 12 := by
  have h : (startWalk t s).cost = 16 * s.bitsLeft + walkCost t := rfl
  have := walkCost_le t
  omega

theorem parseDone_cost (root : Tree) (p : ParseState) (s : State) : (parseDone root p s).cost ≤ 16 * s.bitsLeft + 12 := by
  unfold parseDone
  dsimp only
  split
  · simp
  · split
    · simp
    · exact startWalk_cost root { s with dec := { s.dec with tree := root } }

theorem readDone_cost {s : State} (k : ReadCont) (v : Nat) : (readDone k v s).cost < posCost s (.read 0 v k) := by
  have h0 := posCost_read_zero s v k
  cases k with
  | magic =>
    simp only [readDone, magicRead]
    split
    · simp [posCost]
    · show 16 * s.bitsLeft + 1 < _
      simp [posCost]
  | selector =>
    simp only [readDone, selectorRead]
    split
    · show 16 * s.bitsLeft + 1 < _
      simp [posCost]
    · split
      · show 16 * s.bitsLeft + 1 < _
        simp [posCost]
      · simp [posCost]
  | count i F =>
    simp only [readDone, countRead]
    split
    · show 16 * s.bitsLeft + 1 < _
      simp [posCost]
    · have := startWalk_cost (build (F.set i (BitVec.ofNat 32 v))) s
      have := h0.2.2 (by simp)
      omega
  | treeLen =>
    have := takeField_cost 1 (by simp) .token { T := v, c := 0, ni := 0, seen := [], stack := [] } s
    have := h0.2.2 (by simp)
    simp only [readDone, treeLenRead]
    omega
  | token p =>
    have e := h0.2.2 (by simp)
    simp only [readDone, tokenRead]
    split
    · split
      · rw [e]; simp
      · have := takeField_cost 1 (by simp) .token
          { p with c := p.c + 1, ni := p.ni + 1, stack := .left :: p.stack } s
        omega
    · have := takeField_cost 9 (by simp) .leafValue { p with c := p.c + 1 } s
      omega
  | leafValue p =>
    have e := h0.2.2 (by simp)
    simp only [readDone, leafValueRead]
    split
    · split
      · rw [e]; simp
      · split
        · rename_i root _
          exact Nat.lt_of_le_of_lt (parseDone_cost root _ s) (by omega)
        · exact Nat.lt_of_le_of_lt (takeField_cost 1 (by simp) .token _ s) (by omega)
    · rw [e]; simp
  | dataBit =>
    simp only [readDone, dataBitRead]
    split
    · rename_i l r w e
      have h : ({ s with dec := { s.dec with node := if v = 0 then l else r }, phase := .busy .walk } : State).cost
          = 16 * s.bitsLeft + walkCost (if v = 0 then l else r) := rfl
      have := walkCost_le (if v = 0 then l else r)
      rw [h]
      simp [posCost]
      omega
    · have h : (s.goto .walk).cost = 16 * s.bitsLeft + walkCost s.dec.node := rfl
      have := walkCost_le s.dec.node
      rw [h]
      simp [posCost]
      omega

theorem takeBit_cost (n v : Nat) (k : ReadCont) (s : State) (h : s.br.k ≠ 0) :
    (takeBit n v k s).cost < 16 * s.bitsLeft + 1 := by
  have hb : (takeBit n v k s).bitsLeft + 1 = s.bitsLeft := by simp [State.bitsLeft]; omega
  have hc : (takeBit n v k s).cost = posCost (takeBit n v k s)
    (.read n (2 * v + (s.br.cur.getLsbD (s.br.k - 1)).toNat) k) := rfl
  cases n with
  | zero =>
    have := (posCost_read_zero (takeBit 0 v k s) (2 * v + (s.br.cur.getLsbD (s.br.k - 1)).toNat) k).1
    omega
  | succ n =>
    have : (takeBit (n + 1) v k s).cost = 16 * (takeBit (n + 1) v k s).bitsLeft + 1 := rfl
    omega

theorem emitBit_goto_cost (b : Bool) (s : State) (r : Bits) (k : EmitCont) :
    ((emitBit b s).goto (.emit r k)).cost + 1 = posCost s (.emit (b :: r) k) := by
  rw [emitBit_frame]
  cases k <;> simp [posCost, State.loopCost, State.bitsLeft] <;> omega

/-- A block step of a command that is not waiting makes the measure smaller. -/
theorem blockStep_cost {s : State} (h : s.Inv) (q : s.quiescent = false) : (blockStep s).cost < s.cost := by
  cases hp : s.phase with
  | idle => simp [quiescent_idle hp] at q
  | busy p =>
    rw [blockStep_busy hp, cost_busy hp]
    have hk := h.pos p hp
    have hq := mt (quiescent_busy hp).2 (by simp [q])
    match p, hk, hq with
    | .preprocess fmt, _, _ => exact Nat.lt_succ_self _
    | .count fmt n, _, hq =>
      simp only [posStep, countStep]
      rcases inByte_cases s with ⟨x, r, hb, e⟩ | ⟨-, -, e⟩ | ⟨-, -, e⟩ | ⟨hb, ht, e⟩ <;> rw [e]
      · show (countByte fmt n x (s.setBytes r)).cost < _
        unfold countByte
        split
        · simp [posCost]
        · show r.length + 2 < s.inCur.bytes.length + 2
          simp [hb]
      · exact Nat.lt_of_lt_of_le (m := 2) (Nat.lt_succ_self 1) (by simp [posCost])
      · simp [posCost]
      · exact absurd ⟨rfl, hb, ht⟩ hq
    | .compress force, _, _ =>
      simp only [posStep, startCompress]
      split
      · exact posCost_pos _ _
      · split
        · show 1 < _
          simp only [posCost]
          omega
        · show (streamHead s.params s.plan).length + 1 + s.loopCost < _
          simp only [posCost]
          omega
    | .symbols, _, hq =>
      simp only [posStep, symbolStep]
      rcases inByte_cases s with ⟨x, r, hb, e⟩ | ⟨-, -, e⟩ | ⟨-, -, e⟩ | ⟨hb, ht, e⟩ <;> rw [e]
      · show (symbolByte x (s.setBytes r)).cost < _
        unfold symbolByte
        split
        · exact posCost_pos _ _
        · have hl := codeBits_le_longest s.plan.code (Symbol.ofByte x)
          show (codeBits s.plan.code (Symbol.ofByte x)).length + 1
            + (r.length * (longestCode s.plan.code + 2) + longestCode s.plan.code + 12)
            < s.inCur.bytes.length * (longestCode s.plan.code + 2) + longestCode s.plan.code + 12
          rw [hb, List.length_cons, Nat.succ_mul]
          omega
      · have hl := codeBits_le_longest s.plan.code pseudoEof
        show (codeBits s.plan.code pseudoEof).length + 10 < _
        simp only [posCost, State.loopCost]
        omega
      · exact posCost_pos _ _
      · exact absurd ⟨rfl, hb, ht⟩ hq
    | .decompress, _, _ => exact Nat.lt_succ_self _
    | .read 0 v k, _, _ => exact readDone_cost k v
    | .read (n + 1) v k, _, hq =>
      show (readBit n v k s).cost < 16 * s.bitsLeft + 1
      unfold readBit
      split
      · rename_i hz
        rcases inByte_cases s with ⟨x, r, hb, e⟩ | ⟨-, -, e⟩ | ⟨-, -, e⟩ | ⟨hb, ht, e⟩ <;> rw [e]
        · refine Nat.lt_of_lt_of_eq (takeBit_cost n v k { s.setBytes r with br := { cur := x, k := 8 } } (by simp)) ?_
          simp [State.bitsLeft, hb, hz]
          omega
        · simp
        · simp
        · exact absurd ⟨by simp [Pos.fetches, hz], hb, ht⟩ hq
      · rename_i hz
        exact takeBit_cost n v k s hz
    | .walk, hk, _ =>
      simp only [posStep, walkStep]
      split
      · rename_i sym w e
        split
        · show 1 < 16 * s.bitsLeft + walkCost s.dec.node
          simp [walkCost, *]
        · rename_i hne
          show 16 * s.bitsLeft + 3 + (bin 8 sym.val).length < 16 * s.bitsLeft + walkCost s.dec.node
          simp [e, walkCost, hne]
      · rename_i e
        show 16 * s.bitsLeft + 1 < 16 * s.bitsLeft + walkCost s.dec.node
        simp [e, walkCost]
    | .emit (b :: r) k, _, _ =>
      have := emitBit_goto_cost b s r k
      simp only [posStep]
      omega
    | .emit [] .toSymbols, _, _ =>
      show s.loopCost < 0 + 1 + s.loopCost
      omega
    | .emit [] .toFlush, _, _ =>
      show (flushBits s.bw).length + 2 < 0 + 10
      simp [flushBits]
      omega
    | .emit [] .toReturn, _, _ => exact Nat.lt_succ_self _
    | .emit [] .toWalk, hk, _ =>
      show 16 * s.bitsLeft + walkCost s.dec.tree < 16 * s.bitsLeft + 3 + 0
      rw [walkCost_eofTree hk]
      omega
    | .ret v, _, _ => exact Nat.lt_succ_self 0

/-- The measure is at most the horizon. -/
theorem cost_le_horizon (s : State) : s.cost ≤ horizon s := by
  have hl : s.loopCost + 2 ≤ (s.inCur.bytes.length + 2) * (longestCode s.plan.code + 4) + 6 := by
    simp only [State.loopCost]
    ring_nf
    omega
  have hw := walkCost_le s.dec.node
  cases hp : s.phase with
  | idle => simp [State.cost, hp]
  | busy p =>
    rw [cost_busy hp]
    simp only [horizon, State.pendingBits, hp]
    match p with
    | .preprocess _ => simp only [posCost]; omega
    | .count _ _ => simp only [posCost]; omega
    | .compress _ => simp [posCost, streamHead]; omega
    | .symbols => simp only [posCost]; omega
    | .decompress => simp only [posCost, State.bitsLeft]; omega
    | .read 0 v k =>
      have := (posCost_read_zero s v k).1
      simp only [State.bitsLeft] at this
      omega
    | .read (_ + 1) _ _ => simp only [posCost, State.bitsLeft]; omega
    | .walk => simp only [posCost, State.bitsLeft]; omega
    | .emit _ .toSymbols => simp only [posCost]; omega
    | .emit _ .toFlush => simp only [posCost]; omega
    | .emit _ .toReturn => simp only [posCost]; omega
    | .emit _ .toWalk => simp only [posCost, State.bitsLeft]; omega
    | .ret _ => simp only [posCost]; omega

/-- A run of at least as many steps as the measure ends quiescent. -/
theorem run_quiescent_of_cost {n : Nat} {s : State} (h : s.Inv) (hn : s.cost ≤ n) : (run n s).quiescent = true := by
  induction n generalizing s with
  | zero =>
    cases hp : s.phase with
    | idle => exact quiescent_idle hp
    | busy p =>
      rw [cost_busy hp] at hn
      have := posCost_pos s p
      omega
  | succ n ih =>
    cases hq : s.quiescent with
    | true => rw [run_of_quiescent hq]; exact hq
    | false =>
      rw [run_succ]
      refine ih (blockStep_inv h) ?_
      have := blockStep_cost h hq
      omega

/-- R321: every block step before the block is quiescent makes the measure smaller. -/
theorem run_cost {n : Nat} {s : State} (h : s.Inv) : (run n s).quiescent = true ∨ (run n s).cost + n ≤ s.cost := by
  induction n generalizing s with
  | zero => exact .inr (Nat.le_refl _)
  | succ n ih =>
    cases hq : s.quiescent with
    | true => rw [run_of_quiescent hq]; exact .inl hq
    | false =>
      rw [run_succ]
      have := blockStep_cost h hq
      exact (ih (blockStep_inv h)).imp id (by omega)

theorem run_horizon_quiescent {s : State} (h : s.Inv) : (run (horizon s) s).quiescent = true :=
  run_quiescent_of_cost h (cost_le_horizon s)

/-- What a number of block steps reaches and where the block is quiescent is what a run of horizon steps reaches. -/
theorem Reaches.horizon {s t : State} (h : s.Inv) (r : Reaches s t) (q : t.quiescent = true) : run (horizon s) s = t := by
  obtain ⟨n, rfl⟩ := r
  exact run_eq_of_quiescent (run_horizon_quiescent h) q

end Sys2Proof.Machine
end

