-- ==== Sys2Proof/Laws/Ports.lean ====
section
/-! SUPPORT. The port primitives as block steps: what ReadBits reads (R64, R65) and what WriteBits, WriteString and Flush write
(R67, R68). -/

namespace Sys2Proof.Machine

/-! ### Reading -/

/-- s with the bit reader and the unread bytes moved on. -/
def State.moved (s : State) (br : BitReader) (bytes : List Byte) : State :=
  { s with br := br, inCur := { bytes := bytes, term := s.inCur.term } }

theorem moved_self (s : State) : s.moved s.br s.inCur.bytes = s := rfl
@[simp] theorem moved_moved (s : State) (b b' : BitReader) (r r' : List Byte) : (s.moved b r).moved b' r' = s.moved b' r' := rfl
theorem moved_unread (s : State) (br : BitReader) (r : List Byte) :
    (s.moved br r).unread = bin br.k br.cur.toNat ++ bitsOf r := rfl

/-- When the bits left are whole bytes, none of them is in the bit reader (R65). -/
theorem unread_bytes {s : State} {left : List Byte} (hb : s.br.k < 8) (h : s.unread = bitsOf left) :
    s.br.k = 0 ∧ s.inCur.bytes = left := by
  have hl := congrArg List.length h
  simp only [State.unread, List.length_append, bin_length, bitsOf_length] at hl
  have hk : s.br.k = 0 := by omega
  refine ⟨hk, bitsOf_injective ?_⟩
  rw [← h, State.unread, hk]
  rfl

/-- One turn of ReadBits takes the next bit of the stream (R64). -/
theorem readBit_takes {s : State} {n v : Nat} {k : ReadCont} {b : Bool} {rest : Bits} (hb : s.br.k < 8)
    (hu : s.unread = b :: rest) :
    ∃ br r, readBit n v k s = (s.moved br r).goto (.read n (2 * v + b.toNat) k) ∧
      (s.moved br r).unread = rest ∧ br.k < 8 := by
  unfold readBit
  cases hk : s.br.k with
  | zero =>
    simp only [State.unread, hk, bin, List.nil_append] at hu
    cases hby : s.inCur.bytes with
    | nil => simp [hby] at hu
    | cons x r =>
      rw [hby, bitsOf_cons, bin, List.cons_append] at hu
      obtain ⟨h1, h2⟩ := List.cons.inj hu
      refine ⟨⟨x, 7⟩, r, ?_, h2, by simp⟩
      rw [if_pos rfl, inByte_cons hby]
      show takeBit n v k _ = _
      simp [takeBit, State.goto, State.moved, State.setBytes, BitVec.getLsbD, h1]
  | succ m =>
    simp only [State.unread, hk, bin, List.cons_append] at hu
    obtain ⟨h1, h2⟩ := List.cons.inj hu
    refine ⟨⟨s.br.cur, m⟩, s.inCur.bytes, ?_, h2, by simp; omega⟩
    rw [if_neg (Nat.succ_ne_zero m)]
    simp [takeBit, State.goto, State.moved, hk, BitVec.getLsbD, h1]

/-- ReadBits(n) (R64): block steps at its position take the next n bits of the stream and give their value. -/
theorem read_reaches {bits : Bits} {s : State} {v : Nat} {k : ReadCont} {rest : Bits} (hb : s.br.k < 8)
    (hp : s.phase = .busy (.read bits.length v k)) (hu : s.unread = bits ++ rest) :
    ∃ br r, Reaches s ((s.moved br r).goto (.read 0 (v * 2 ^ bits.length + val bits) k)) ∧
      (s.moved br r).unread = rest ∧ br.k < 8 := by
  induction bits generalizing s v with
  | nil =>
    refine ⟨s.br, s.inCur.bytes, ?_, hu, hb⟩
    have : s.goto (.read 0 (v * 2 ^ ([] : Bits).length + val []) k) = s := by
      simp only [List.length_nil, pow_zero, mul_one, val_nil, add_zero]
      rw [List.length_nil] at hp
      rw [State.goto, ← hp]
    rw [moved_self, this]
    exact .refl s
  | cons b bits ih =>
    obtain ⟨br, r, e, hu', hb'⟩ := readBit_takes (n := bits.length) (v := v) (k := k) hb hu
    obtain ⟨br2, r2, hr, hu2, hb2⟩ := ih (s := (s.moved br r).goto (.read bits.length (2 * v + b.toNat) k))
      (v := 2 * v + b.toNat) hb' rfl hu'
    refine ⟨br2, r2, ?_, hu2, hb2⟩
    apply Reaches.of_step
    rw [blockStep_busy hp]
    show Reaches (readBit bits.length v k s) _
    rw [e]
    have hv : (2 * v + b.toNat) * 2 ^ bits.length + val bits = v * 2 ^ (b :: bits).length + val (b :: bits) := by
      rw [val_cons, List.length_cons, pow_succ]
      ring
    rw [hv] at hr
    exact hr

/-- The next block step after a ReadBits has its value. -/
theorem reaches_readDone {s : State} {v : Nat} {k : ReadCont} : Reaches (s.goto (.read 0 v k)) (readDone k v (s.goto (.read 0 v k))) :=
  Reaches.step

/-- A whole field: ReadBits(n) and the step after it, when the next n bits of the stream are bin_n(v). -/
theorem read_field {n v : Nat} (hv : v < 2 ^ n) {s : State} {k : ReadCont} {rest : Bits} (hb : s.br.k < 8)
    (hp : s.phase = .busy (.read n 0 k)) (hu : s.unread = bin n v ++ rest) :
    ∃ br r, Reaches s (readDone k v ((s.moved br r).goto (.read 0 v k))) ∧ (s.moved br r).unread = rest ∧ br.k < 8 := by
  obtain ⟨br, r, hr, hu', hb'⟩ := read_reaches (bits := bin n v) (v := 0) (k := k) hb (by simpa using hp) hu
  rw [val_bin hv, Nat.zero_mul, Nat.zero_add] at hr
  exact ⟨br, r, hr.trans reaches_readDone, hu', hb'⟩

/-- ReadBits on a stream with fewer bits than it needs: it takes them all and then looks for a byte that is not there (R64). -/
theorem read_short {bits : Bits} {s : State} {v d : Nat} {k : ReadCont} (hb : s.br.k < 8)
    (hp : s.phase = .busy (.read (bits.length + (d + 1)) v k)) (hu : s.unread = bits) :
    ∃ br v', Reaches s ((s.moved br []).goto (.read (d + 1) v' k)) ∧ br.k = 0 := by
  induction bits generalizing s v with
  | nil =>
    have hl := congrArg List.length hu
    simp only [State.unread, List.length_append, bin_length, bitsOf_length, List.length_nil, Nat.add_eq_zero_iff,
      Nat.mul_eq_zero, List.length_eq_zero_iff] at hl
    have hbytes : s.inCur.bytes = [] := hl.2.resolve_left (by decide)
    refine ⟨s.br, v, ?_, hl.1⟩
    rw [List.length_nil, Nat.zero_add] at hp
    have : (s.moved s.br []).goto (.read (d + 1) v k) = s := by
      rw [← hbytes, moved_self, State.goto, ← hp]
    rw [this]
    exact .refl s
  | cons b bits ih =>
    obtain ⟨br, r, e, hu', hb'⟩ := readBit_takes (n := bits.length + (d + 1)) (v := v) (k := k) hb hu
    obtain ⟨br2, v2, hr, hk⟩ := ih (s := (s.moved br r).goto (.read (bits.length + (d + 1)) (2 * v + b.toNat) k)) hb' rfl hu'
    refine ⟨br2, v2, Reaches.of_step ?_, hk⟩
    rw [List.length_cons, Nat.add_right_comm] at hp
    rw [blockStep_busy hp]
    show Reaches (readBit (bits.length + (d + 1)) v k s) _
    rw [e]
    exact hr

/-- The error a ReadBits ends the command with when it needs a byte and finds the terminator x (R64). -/
def endError (k : ReadCont) : Terminator → Err
  | .eos  => eosError k
  | .fail => .streamReadFailure

/-- What a ReadBits does that needs a byte where none remains (R64, R271). -/
theorem read_ends {s : State} {n v : Nat} {k : ReadCont} {x : Terminator} (hk : s.br.k = 0)
    (hp : s.phase = .busy (.read (n + 1) v k)) (hb : s.inCur.bytes = []) (ht : s.inCur.term = some x) :
    blockStep s = raise (endError k x) s := by
  rw [blockStep_busy hp]
  show readBit n v k s = _
  rw [readBit, if_pos hk]
  cases x with
  | eos => rw [inByte_eos hb ht]; rfl
  | fail => rw [inByte_fail hb ht]; rfl

/-- A ReadBits whose stream is exhausted first ends the command (R64, R271). -/
theorem read_exhausted {s : State} {n v : Nat} {k : ReadCont} {x : Terminator} (hb : s.br.k < 8)
    (hp : s.phase = .busy (.read n v k)) (hn : s.unread.length < n) (ht : s.inCur.term = some x) :
    ∃ br p, Reaches s (raise (endError k x) ((s.moved br []).goto p)) ∧ br.k = 0 := by
  obtain ⟨d, hd⟩ : ∃ d, n = s.unread.length + (d + 1) := ⟨n - s.unread.length - 1, by omega⟩
  obtain ⟨br, v', hr, hk⟩ := read_short hb (hd ▸ hp) rfl
  refine ⟨br, .read (d + 1) v' k, hr.trans (Reaches.of_step ?_), hk⟩
  rw [read_ends (s := (s.moved br []).goto (.read (d + 1) v' k)) hk rfl rfl ht]
  exact .refl _

/-! ### Writing -/

/-- s with OUT and the bit writer moved on. -/
def State.wrote (s : State) (out : List Byte) (bw : BitWriter) : State := { s with out := out, bw := bw }

theorem wrote_self (s : State) : s.wrote s.out s.bw = s := rfl
@[simp] theorem wrote_wrote (s : State) (o o' : List Byte) (w w' : BitWriter) : (s.wrote o w).wrote o' w' = s.wrote o' w' := rfl

/-- What a sequence of written bits d makes of OUT and the bit writer: the bits are appended, whole bytes are delivered in order, and
BW.NOUT counts them (R67). -/
structure Wrote (s : State) (d : Bits) (out : List Byte) (bw : BitWriter) : Prop where
  bits : bitsOf out ++ bw.acc = s.written ++ d
  acc  : bw.k < 8
  grew : ∃ w, out = s.out ++ w ∧ bw.nout = s.bw.nout + BitVec.ofNat 64 (8 * w.length)

theorem Wrote.nil {s : State} (h : s.bw.k < 8) : Wrote s [] s.out s.bw where
  bits := by simp [State.written]
  acc := h
  grew := ⟨[], by simp, by simp⟩

theorem Wrote.trans {s : State} {d d' : Bits} {o o' : List Byte} {w w' : BitWriter} (h : Wrote s d o w)
    (h' : Wrote (s.wrote o w) d' o' w') : Wrote s (d ++ d') o' w' where
  bits := by
    rw [h'.bits]
    show bitsOf o ++ w.acc ++ d' = _
    rw [h.bits, List.append_assoc]
  acc := h'.acc
  grew := by
    obtain ⟨x, hx, nx⟩ := h.grew
    obtain ⟨y, hy, ny⟩ := h'.grew
    refine ⟨x ++ y, ?_, ?_⟩
    · rw [hy]
      show o ++ y = _
      rw [hx, List.append_assoc]
    · rw [ny]
      show w.nout + _ = _
      rw [nx, List.length_append, Nat.mul_add, BitVec.ofNat_add, BitVec.add_assoc]

/-- EmitBit(b) (R67). -/
theorem emitBit_wrote {s : State} (h : s.bw.k < 8) (b : Bool) :
    emitBit b s = s.wrote (emitBit b s).out (emitBit b s).bw ∧ Wrote s [b] (emitBit b s).out (emitBit b s).bw := by
  refine ⟨emitBit_frame b s, ?_⟩
  unfold emitBit
  split
  · rename_i h8
    have hl : (s.bw.acc ++ [b]).length = 8 := by simpa [BitWriter.k] using h8
    refine ⟨?_, by simp [BitWriter.k], [BitVec.ofNat 8 (val (s.bw.acc ++ [b]))], rfl, by simp⟩
    simp only [bitsOf_append, bitsOf_byte hl, State.written, List.append_nil, List.append_assoc]
  · rename_i h8
    refine ⟨?_, ?_, [], by simp, by simp⟩
    · simp [State.written]
    · simp [BitWriter.k] at h h8 ⊢
      omega

/-- WriteString(rest) (R67): block steps at its position append its bits, in order. -/
theorem emit_reaches {rest : Bits} {s : State} {k : EmitCont} (h : s.bw.k < 8) (hp : s.phase = .busy (.emit rest k)) :
    ∃ o w, Reaches s ((s.wrote o w).goto (.emit [] k)) ∧ Wrote s rest o w := by
  induction rest generalizing s with
  | nil =>
    refine ⟨s.out, s.bw, ?_, .nil h⟩
    have : (s.wrote s.out s.bw).goto (.emit [] k) = s := by
      rw [wrote_self, State.goto, ← hp]
    rw [this]
    exact .refl s
  | cons b rest ih =>
    obtain ⟨e, hw⟩ := emitBit_wrote h b
    obtain ⟨o, w, hr, hw'⟩ := ih (s := (emitBit b s).goto (.emit rest k)) hw.acc rfl
    refine ⟨o, w, ?_, ?_⟩
    · apply Reaches.of_step
      rw [blockStep_busy hp]
      show Reaches ((emitBit b s).goto (.emit rest k)) _
      rw [e] at hr ⊢
      exact hr
    · exact hw.trans (s := s) (d' := rest) ⟨hw'.bits, hw'.acc, hw'.grew⟩

/-- The bits still pending after a number of bits have been written from a byte boundary (R68). -/
theorem Wrote.acc_length {s : State} {d : Bits} {o : List Byte} {w : BitWriter} (h : Wrote s d o w) (h0 : s.bw.acc = []) :
    w.k = d.length % 8 := by
  have e := congrArg List.length h.bits
  have ha := h.acc
  simp [State.written, h0, BitWriter.k] at e ha ⊢
  omega

end Sys2Proof.Machine
end

