-- ==== Sys2Proof/Laws/Count.lean ====
section
/-! SUPPORT. COUNT's loop (R110, R112, R114): what it makes of a whole stream. -/

namespace Sys2Proof.Machine

/-- One more occurrence of b. -/
def countOne (F : FreqTable) (b : Byte) : FreqTable := F.set b.toNat (freqOf F b + 1) b.isLt

/-- The table after counting bs on top of F. -/
def countInto (F : FreqTable) (bs : List Byte) : FreqTable := bs.foldl countOne F

/-- The frequency table of a byte sequence (R110). -/
def countOf (bs : List Byte) : FreqTable := countInto (Vector.replicate 256 0) bs

theorem freqOf_replicate (b : Byte) : freqOf (Vector.replicate 256 0) b = 0 := by simp [freqOf]

theorem freqOf_countOne (F : FreqTable) (b c : Byte) :
    freqOf (countOne F b) c = if b = c then freqOf F b + 1 else freqOf F c := by
  unfold freqOf countOne
  rw [Vector.getElem_set]
  by_cases h : b = c
  · simp [h, freqOf]
  · have : b.toNat ≠ c.toNat := fun e => h (BitVec.eq_of_toNat_eq e)
    simp [h, this]

/-- Every count is the number of occurrences, as long as none passes 2^32 − 1. -/
theorem freqOf_countInto {F : FreqTable} {bs : List Byte} (c : Byte) (h : (freqOf F c).toNat + bs.count c < 2 ^ 32) :
    (freqOf (countInto F bs) c).toNat = (freqOf F c).toNat + bs.count c := by
  induction bs generalizing F with
  | nil => simp [countInto]
  | cons b bs ih =>
    rw [List.count_cons] at h
    have hone : (freqOf (countOne F b) c).toNat = (freqOf F c).toNat + if b == c then 1 else 0 := by
      rw [freqOf_countOne]
      by_cases e : b = c
      · subst e
        simp at h ⊢
        omega
      · simp [e]
    show (freqOf (countInto (countOne F b) bs) c).toNat = _
    rw [ih (by rw [hone]; omega), hone, List.count_cons]
    omega

theorem freqOf_countOf {bs : List Byte} (c : Byte) (h : bs.count c < 2 ^ 32) :
    (freqOf (countOf bs) c).toNat = bs.count c := by
  rw [countOf, freqOf_countInto c (by rw [freqOf_replicate]; simpa using h), freqOf_replicate]
  simp

/-- The state of COUNT after bs, with r still unread. -/
def counted (fmt : HeaderFormat) (n : DWord) (bs r : List Byte) (s : State) : State :=
  { s.setBytes r with
    plan := { s.plan with freq := countInto s.plan.freq bs }
    phase := .busy (.count fmt (n + BitVec.ofNat 64 bs.length)) }

/-- COUNT's loop over bytes that no count overflows on (R110). -/
theorem count_reaches {bs : List Byte} {s : State} {fmt : HeaderFormat} {n : DWord} {r : List Byte}
    (hp : s.phase = .busy (.count fmt n)) (hb : s.inCur.bytes = bs ++ r)
    (h : ∀ c, (freqOf s.plan.freq c).toNat + bs.count c < 2 ^ 32) : Reaches s (counted fmt n bs r s) := by
  induction bs generalizing s n with
  | nil =>
    have : counted fmt n [] r s = s := by
      simp only [List.nil_append] at hb
      simp [counted, countInto, State.setBytes, ← hb, ← hp]
    rw [this]
    exact .refl s
  | cons b bs ih =>
    apply Reaches.of_step
    have hb' : (freqOf s.plan.freq b).toNat + 1 < 2 ^ 32 := by
      have := h b
      rw [List.count_cons] at this
      simp at this
      omega
    have hne : freqOf s.plan.freq b ≠ BitVec.allOnes 32 := by
      intro e
      rw [e] at hb'
      simp at hb'
    have hstep : blockStep s = { s.setBytes (bs ++ r) with
        plan := { s.plan with freq := countOne s.plan.freq b }
        phase := .busy (.count fmt (n + 1)) } := by
      rw [blockStep_busy hp]
      simp only [posStep, countStep, inByte_cons (hb : s.inCur.bytes = b :: (bs ++ r))]
      show countByte fmt n b (s.setBytes (bs ++ r)) = _
      rw [countByte, State.setBytes_plan, if_neg hne]
      rfl
    rw [hstep]
    refine (ih (n := n + 1) rfl rfl ?_).trans ?_
    · intro c
      have := h c
      rw [List.count_cons] at this
      show (freqOf (countOne s.plan.freq b) c).toNat + _ < _
      rw [freqOf_countOne]
      by_cases e : b = c
      · subst e
        simp at this ⊢
        omega
      · simp [e] at this ⊢
        omega
    · have hn : n + 1 + BitVec.ofNat 64 bs.length = n + BitVec.ofNat 64 (b :: bs).length := by
        rw [List.length_cons, BitVec.add_assoc, Nat.add_comm, BitVec.ofNat_add]
        rfl
      simp only [counted, hn]
      exact .refl _

/-- COUNT ends in CAPACITY_EXCEEDED at the (2^32)-th occurrence of a byte (R112, R278). -/
theorem count_overflows {bs : List Byte} {s : State} {fmt : HeaderFormat} {n : DWord}
    (hp : s.phase = .busy (.count fmt n)) (hb : s.inCur.bytes = bs) {c : Byte}
    (h : 2 ^ 32 ≤ (freqOf s.plan.freq c).toNat + bs.count c) :
    ∃ t, Reaches s (raise .capacityExceeded t) ∧ t.params = s.params ∧ t.plan.valid = s.plan.valid ∧ t.dec = s.dec ∧
      t.bw = s.bw ∧ t.out = s.out ∧ t.inNext = s.inNext ∧ t.rdata = s.rdata ∧ t.events = s.events ∧ t.pace = s.pace := by
  induction bs generalizing s n with
  | nil =>
    have := (freqOf s.plan.freq c).isLt
    simp at h
    omega
  | cons b bs ih =>
    have hstep : blockStep s = countByte fmt n b (s.setBytes bs) := by
      rw [blockStep_busy hp]
      simp only [posStep, countStep, inByte_cons hb]
    by_cases hne : freqOf s.plan.freq b = BitVec.allOnes 32
    · refine ⟨s.setBytes bs, ?_, rfl, rfl, rfl, rfl, rfl, rfl, rfl, rfl, rfl⟩
      apply Reaches.of_step
      have : countByte fmt n b (s.setBytes bs) = raise .capacityExceeded (s.setBytes bs) := by
        rw [countByte, State.setBytes_plan, if_pos hne]
      rw [hstep, this]
      exact .refl _
    · have hstep' : blockStep s = { s.setBytes bs with
          plan := { s.plan with freq := countOne s.plan.freq b }
          phase := .busy (.count fmt (n + 1)) } := by
        rw [hstep, countByte, State.setBytes_plan, if_neg hne]
        rfl
      obtain ⟨t, hr, e⟩ := ih (s := blockStep s) (n := n + 1) (by rw [hstep']) (by rw [hstep']; rfl) (by
        rw [hstep']
        show _ ≤ (freqOf (countOne s.plan.freq b) c).toNat + _
        rw [freqOf_countOne]
        rw [List.count_cons] at h
        by_cases e : b = c
        · subst e
          have := (freqOf s.plan.freq b).isLt
          have : (freqOf s.plan.freq b).toNat ≠ 2 ^ 32 - 1 := fun e => hne (BitVec.eq_of_toNat_eq (by simpa using e))
          simp at h ⊢
          omega
        · simp [e] at h ⊢
          omega)
      rw [hstep'] at e
      exact ⟨t, .of_step hr, e⟩

end Sys2Proof.Machine
end

