-- ==== Sys2Proof/Laws/Compress.lean ====
section
/-! SUPPORT. COMPRESS's symbol loop and its end (R220), and the sizes of the stream it writes (R94, R212). -/

namespace Sys2Proof.Machine

/-! ### The run -/

/-- The symbol loop over bytes that have codes: each appends its code (R220, R94). -/
theorem symbols_reaches {bs : List Byte} {s : State} {r : List Byte} (h : s.bw.k < 8) (hp : s.phase = .busy .symbols)
    (hb : s.inCur.bytes = bs ++ r) (hc : ∀ b ∈ bs, freqOf s.plan.freq b ≠ 0) :
    ∃ o w, Reaches s (((s.setBytes r).wrote o w).goto .symbols) ∧ Wrote s (dataOf s.plan bs) o w := by
  induction bs generalizing s with
  | nil =>
    refine ⟨s.out, s.bw, ?_, .nil h⟩
    have : ((s.setBytes r).wrote s.out s.bw).goto .symbols = s := by
      simp only [List.nil_append] at hb
      simp [State.goto, State.wrote, State.setBytes, ← hb, ← hp]
    rw [this]
    exact .refl s
  | cons b bs ih =>
    have hb1 : blockStep s = (s.setBytes (bs ++ r)).goto (.emit (codeBits s.plan.code (Symbol.ofByte b)) .toSymbols) := by
      rw [blockStep_busy hp]
      simp only [posStep, symbolStep, inByte_cons (hb : s.inCur.bytes = b :: (bs ++ r))]
      show symbolByte b (s.setBytes (bs ++ r)) = _
      rw [symbolByte, State.setBytes_plan, if_neg (hc b (.head _))]
    obtain ⟨o1, w1, hr1, hw1⟩ := emit_reaches (s := blockStep s) (by rw [hb1]; exact h) (by rw [hb1]; rfl)
    rw [hb1] at hr1 hw1
    obtain ⟨o2, w2, hr2, hw2⟩ := ih (s := ((s.setBytes (bs ++ r)).wrote o1 w1).goto .symbols) hw1.acc rfl rfl
      (fun x hx => hc x (.tail _ hx))
    refine ⟨o2, w2, ?_, ?_⟩
    · apply Reaches.of_step
      rw [hb1]
      refine hr1.trans (Reaches.of_step ?_)
      exact hr2
    · have h1 : Wrote s (codeBits s.plan.code (Symbol.ofByte b)) o1 w1 := ⟨hw1.bits, hw1.acc, hw1.grew⟩
      exact h1.trans ⟨hw2.bits, hw2.acc, hw2.grew⟩

/-- The state a COMPRESS or DECOMPRESS without error ends in (R85), OUT and the bit writer being o and w. -/
def finished (s : State) (r : List Byte) (o : List Byte) (w : BitWriter) : State :=
  complete 0 w.nout ((s.setBytes r).wrote o w)

/-- From the EOF code on (R220): the code, the zero bits of Flush, and the completion. -/
theorem eofCode_reaches {s : State} {d : Bits} (s0 : State) (h0 : s0.bw.acc = []) (hw : Wrote s0 d s.out s.bw)
    (hp : s.phase = .busy (.emit (codeBits s.plan.code pseudoEof) .toFlush)) :
    ∃ o w, Reaches s (complete 0 w.nout (s.wrote o w)) ∧ Wrote s0 (padded (d ++ codeBits s.plan.code pseudoEof)) o w := by
  obtain ⟨o1, w1, hr1, hw1⟩ := emit_reaches hw.acc hp
  have hw1' : Wrote s0 (d ++ codeBits s.plan.code pseudoEof) o1 w1 :=
    hw.trans ⟨hw1.bits, hw1.acc, hw1.grew⟩
  obtain ⟨o2, w2, hr2, hw2⟩ := emit_reaches (s := (s.wrote o1 w1).goto (.emit (flushBits w1) .toReturn)) hw1.acc rfl
  refine ⟨o2, w2, ?_, ?_⟩
  · refine hr1.trans (Reaches.of_step (hr2.trans (Reaches.of_step (Reaches.of_step ?_))))
    exact .refl _
  · have h2 : Wrote s0 (d ++ codeBits s.plan.code pseudoEof ++ flushBits w1) o2 w2 :=
      hw1'.trans ⟨hw2.bits, hw2.acc, hw2.grew⟩
    have hk := hw1'.acc_length h0
    have hf : flushBits w1 = List.replicate ((8 - (d ++ codeBits s.plan.code pseudoEof).length % 8) % 8) false := by
      rw [flushBits, hk]
    rw [padded, ← hf]
    exact h2

/-! ### Sizes -/

theorem roundUp8_length (s : Bits) : (padded s).length = roundUp8 s.length := by simp [padded, roundUp8]

/-- A sum over a list without repeats in which one element counts. -/
theorem sum_map_single {α : Type} [DecidableEq α] (f : α → Nat) {a : α} {L : List α} (nd : L.Nodup) (h : a ∈ L) :
    (L.map fun s => if s = a then f s else 0).sum = f a := by
  induction L with
  | nil => simp at h
  | cons x L ih =>
    rw [List.nodup_cons] at nd
    rw [List.map_cons, List.sum_cons]
    by_cases e : x = a
    · subst e
      have : (L.map fun s => if s = x then f s else 0) = L.map fun _ => 0 :=
        List.map_congr_left fun s hs => if_neg fun (e : s = x) => nd.1 (e ▸ hs)
      simp [this]
    · have ha : a ∈ L := by
        rcases List.mem_cons.1 h with h | h
        · exact absurd h.symm e
        · exact h
      rw [if_neg e, ih nd.2 ha, Nat.zero_add]

/-- The length of the codes of a byte sequence, counted by byte value over any list of the 256 byte values without repeats. -/
theorem dataOf_length_over (plan : Plan) (bs : List Byte) {L : List (Fin 256)} (nd : L.Nodup) (all : ∀ s, s ∈ L) :
    (dataOf plan bs).length = (L.map fun s => bs.count (BitVec.ofFin s) * (codeBits plan.code s.castSucc).length).sum := by
  induction bs with
  | nil =>
    have : (L.map fun s => ([] : List Byte).count (BitVec.ofFin s) * (codeBits plan.code s.castSucc).length)
        = L.map fun _ => 0 := List.map_congr_left fun s _ => by simp
    rw [this]
    simp [dataOf]
  | cons b bs ih =>
    have hb : (dataOf plan (b :: bs)).length
        = (codeBits plan.code (Symbol.ofByte b)).length + (dataOf plan bs).length := by
      simp [dataOf]
    have hs : ∀ s : Fin 256, (b :: bs).count (BitVec.ofFin s) * (codeBits plan.code s.castSucc).length
        = (if s = b.toFin then (codeBits plan.code s.castSucc).length else 0)
          + bs.count (BitVec.ofFin s) * (codeBits plan.code s.castSucc).length := by
      intro s
      rw [List.count_cons]
      by_cases e : s = b.toFin
      · subst e
        simp [Nat.add_mul, Nat.add_comm]
      · have : ¬ (b = BitVec.ofFin s) := fun h => e (by rw [h])
        simp [e, this]
    rw [hb, ih, List.map_congr_left (fun s _ => hs s), List.sum_map_add,
      sum_map_single (fun s : Fin 256 => (codeBits plan.code s.castSucc).length) nd (all b.toFin)]
    rfl

theorem dataOf_length (plan : Plan) (bs : List Byte) :
    (dataOf plan bs).length
      = ((List.finRange 256).map fun s => bs.count (BitVec.ofFin s) * (codeBits plan.code s.castSucc).length).sum :=
  dataOf_length_over plan bs (List.nodup_finRange 256) List.mem_finRange

/-- D of R212 in the same form. -/
theorem dataBits_eq (F : FreqTable) (code : CodeTable) :
    dataBits F code = ((List.finRange 256).map fun s => F[s].toNat * (codeBits code s.castSucc).length).sum := by
  unfold dataBits
  congr 1
  apply List.ext_getElem
  · simp
  · intro i h1 h2
    simp [codeBits]

/-- R222: when the counts of the plan are those of the bytes read, the data is as long as projected. -/
theorem dataOf_length_eq_dataBits {plan : Plan} {bs : List Byte}
    (h : ∀ b, (freqOf plan.freq b).toNat = bs.count b) : (dataOf plan bs).length = dataBits plan.freq plan.code := by
  rw [dataOf_length, dataBits_eq]
  congr 1
  apply List.map_congr_left
  intro s _
  rw [← h]
  simp [freqOf]

/-- R212, R222: the projected size is the size of the stream. -/
theorem padded_stream_length {p : Params} {plan : Plan} {bs : List Byte}
    (h : ∀ b, (freqOf plan.freq b).toNat = bs.count b) :
    (padded (streamBits p plan bs)).length = projected plan.freq plan.code plan.hdr := by
  rw [roundUp8_length, projected]
  congr 1
  simp [streamBits, streamHead, dataOf_length_eq_dataBits h]
  omega

end Sys2Proof.Machine
end

