-- ==== Sys2Proof/Laws/Decompress.lean ====
section
/-! SUPPORT. DECOMPRESS on a well-formed stream: the two header decoders (R175, R176, R180) and the symbol decode loop (R246, R247). -/

namespace Sys2Proof.Machine

/-! ### PARSE -/

/-- What follows when PARSE has finished a subtree: it is put into the open nodes, and either a token is read next or the whole tree
is done (R176). -/
def subtreeDone (t : Tree) (p : ParseState) (s : State) : State :=
  match plug t p.stack with
  | .inl root => parseDone root p s
  | .inr st   => takeField 1 .token { p with stack := st } s

/-- It does not look at the position it starts from. -/
theorem subtreeDone_goto (t : Tree) (p : ParseState) (s : State) (q : Pos) :
    subtreeDone t p (s.goto q) = subtreeDone t p s := by
  unfold subtreeDone
  split
  · unfold parseDone
    dsimp only
    split
    · rfl
    · split <;> rfl
  · unfold takeField
    split <;> rfl

theorem leafValueRead_eq {p : ParseState} {sym : Symbol} (h : sym ∉ p.seen) (s : State) :
    leafValueRead p sym.val s = subtreeDone (.leaf sym 0) { p with c := p.c + 9, seen := sym :: p.seen } s := by
  unfold leafValueRead
  simp only [sym.isLt, dite_true]
  rw [if_neg h]
  rfl

/-- PARSE's variables after a subtree t. -/
def ParseState.after (p : ParseState) (t : Tree) : ParseState :=
  { p with c := p.c + (ser t).length, ni := p.ni + t.internals, seen := t.leaves.reverse ++ p.seen }

theorem takeField_ok {n : Nat} {k : ParseState → ReadCont} {p : ParseState} {s : State} (h : p.c + n ≤ p.T) :
    takeField n k p s = s.goto (.read n 0 (k p)) := by
  rw [takeField, if_neg (by omega)]

/-- PARSE inverts Ser on a subtree (R180): from its first token, block steps read its serialization and return its tree. -/
theorem parse_subtree {t : Tree} {p : ParseState} {s : State} {rest : Bits} (hb : s.br.k < 8)
    (hp : s.phase = .busy (.read 1 0 (.token p))) (hu : s.unread = ser t ++ rest)
    (hT : p.c + (ser t).length ≤ p.T) (hn : p.ni + t.internals ≤ 256) (nd : t.leaves.Nodup)
    (dj : ∀ x ∈ t.leaves, x ∉ p.seen) :
    ∃ br r, Reaches s (subtreeDone t.unweighted (p.after t) (s.moved br r)) ∧ (s.moved br r).unread = rest ∧ br.k < 8 := by
  induction t generalizing p s rest with
  | leaf sym w =>
    simp only [ser, List.length_cons, bin_length] at hT
    obtain ⟨br, r, h1, u1, b1⟩ := read_field (n := 1) (v := 1) (by decide) hb hp (rest := bin 9 sym.val ++ rest)
      (by rw [hu]; rfl)
    have e1 : readDone (.token p) 1 ((s.moved br r).goto (.read 0 1 (.token p)))
        = ((s.moved br r).goto (.read 0 1 (.token p))).goto (.read 9 0 (.leafValue { p with c := p.c + 1 })) := by
      show takeField 9 .leafValue { p with c := p.c + 1 } _ = _
      exact takeField_ok (by simp; omega)
    rw [e1] at h1
    obtain ⟨br2, r2, h2, u2, b2⟩ := read_field (n := 9) (v := sym.val) (by have := sym.isLt; omega)
      (s := ((s.moved br r).goto (.read 0 1 (.token p))).goto (.read 9 0 (.leafValue { p with c := p.c + 1 })))
      b1 rfl u1
    refine ⟨br2, r2, h1.trans ?_, u2, b2⟩
    refine h2.trans ?_
    have hs : sym ∉ ({ p with c := p.c + 1 } : ParseState).seen := dj sym (by simp [Tree.leaves])
    show Reaches (leafValueRead { p with c := p.c + 1 } sym.val _) _
    rw [leafValueRead_eq hs]
    have ea : ({ p with c := p.c + 1 + 9, seen := sym :: p.seen } : ParseState) = p.after (.leaf sym w) := by
      simp [ParseState.after, ser, Tree.leaves, Tree.internals]
    show Reaches (subtreeDone (.leaf sym 0) { p with c := p.c + 1 + 9, seen := sym :: p.seen } _) _
    rw [ea, subtreeDone_goto]
    exact .refl _
  | node l r w hl hr =>
    simp only [ser, List.length_cons, List.length_append] at hT
    simp only [Tree.internals] at hn
    simp only [Tree.leaves, List.nodup_append] at nd
    simp only [Tree.leaves, List.mem_append] at dj
    have hlpos : 0 < (ser l).length := by have := ser_length l; have := leaves_length l; omega
    have hrpos : 0 < (ser r).length := by have := ser_length r; have := leaves_length r; omega
    -- the INTERNAL token
    obtain ⟨br, q, h1, u1, b1⟩ := read_field (n := 1) (v := 0) (by decide) hb hp (rest := ser l ++ (ser r ++ rest))
      (by rw [hu]; simp [ser, bin])
    let pl : ParseState := { p with c := p.c + 1, ni := p.ni + 1, stack := .left :: p.stack }
    have e1 : readDone (.token p) 0 ((s.moved br q).goto (.read 0 0 (.token p)))
        = ((s.moved br q).goto (.read 0 0 (.token p))).goto (.read 1 0 (.token pl)) := by
      show tokenRead p 0 _ = _
      unfold tokenRead
      rw [if_pos rfl, if_neg (by omega)]
      exact takeField_ok (by show p.c + 1 + 1 ≤ p.T; omega)
    rw [e1] at h1
    -- the left subtree
    obtain ⟨br2, q2, h2, u2, b2⟩ := hl (p := pl)
      (s := ((s.moved br q).goto (.read 0 0 (.token p))).goto (.read 1 0 (.token pl))) (rest := ser r ++ rest)
      b1 rfl u1 (by show p.c + 1 + _ ≤ p.T; omega) (by show p.ni + 1 + _ ≤ 256; omega) nd.1
      (fun x hx => dj x (.inl hx))
    let pr : ParseState := { pl.after l with stack := .right l.unweighted :: p.stack }
    have e2 : ∀ u : State, subtreeDone l.unweighted (pl.after l) u = u.goto (.read 1 0 (.token pr)) := by
      intro u
      show takeField 1 .token pr u = _
      exact takeField_ok (by show p.c + 1 + (ser l).length + 1 ≤ p.T; omega)
    rw [e2] at h2
    -- the right subtree
    obtain ⟨br3, q3, h3, u3, b3⟩ := hr (p := pr)
      (s := ((((s.moved br q).goto (.read 0 0 (.token p))).goto (.read 1 0 (.token pl))).moved br2 q2).goto
        (.read 1 0 (.token pr))) (rest := rest)
      b2 rfl u2 (by show p.c + 1 + (ser l).length + (ser r).length ≤ p.T; omega)
      (by show p.ni + 1 + l.internals + r.internals ≤ 256; omega) nd.2.1
      (fun x hx => by
        show x ∉ l.leaves.reverse ++ p.seen
        simp only [List.mem_append, List.mem_reverse, not_or]
        exact ⟨fun h => nd.2.2 x h x hx rfl, dj x (.inr hx)⟩)
    refine ⟨br3, q3, h1.trans (h2.trans (h3.trans ?_)), u3, b3⟩
    have e3 : ∀ u : State, subtreeDone r.unweighted (pr.after r) u
        = subtreeDone (.node l r w : Tree).unweighted (p.after (.node l r w)) u := by
      intro u
      have hc : (pr.after r).c = (p.after (.node l r w)).c := by
        simp [pr, pl, ParseState.after, ser]; omega
      have hni : (pr.after r).ni = (p.after (.node l r w)).ni := by
        simp [pr, pl, ParseState.after, Tree.internals]; omega
      have hse : (pr.after r).seen = (p.after (.node l r w)).seen := by
        simp [pr, pl, ParseState.after, Tree.leaves]
      have hst : ∀ st, ({ pr.after r with stack := st } : ParseState) = { p.after (.node l r w) with stack := st } := by
        intro st
        have hTT : (pr.after r).T = (p.after (.node l r w)).T := rfl
        simp only [hc, hni, hse, hTT]
      show (match plug (.node l.unweighted r.unweighted 0) p.stack with
        | .inl root => parseDone root (pr.after r) u
        | .inr st => takeField 1 .token { pr.after r with stack := st } u) = _
      unfold subtreeDone
      show _ = (match plug (.node l.unweighted r.unweighted 0) p.stack with
        | .inl root => parseDone root (p.after (.node l r w)) u
        | .inr st => takeField 1 .token { p.after (.node l r w) with stack := st } u)
      split
      · unfold parseDone
        rw [hc, hse]
        rfl
      · rw [hst]
    rw [e3]
    show Reaches (subtreeDone _ _ ((s.moved br3 q3).goto (.read 1 0 (.token pr)))) _
    rw [subtreeDone_goto]
    exact .refl _

/-- HDR_DEC_TREE on a header that HDR_ENC_TREE writes (R171, R176, R179, R180): DEC.TREE is the tree with the weights of 0, and the
next bit of the stream is the first after the header. -/
theorem headerTree_reaches {t : Tree} {s : State} {rest : Bits} (hb : s.br.k < 8)
    (hp : s.phase = .busy (.read 32 0 .treeLen)) (hu : s.unread = headerTree t ++ rest) (nd : t.leaves.Nodup)
    (he : EofTree t) :
    ∃ br r, Reaches s (startWalk t.unweighted (s.moved br r)) ∧ (s.moved br r).unread = rest ∧ br.k < 8 := by
  have hpos : 0 < (ser t).length := by have := ser_length t; have := leaves_length t; omega
  obtain ⟨br, r, h1, u1, b1⟩ := read_field (n := 32) (v := (ser t).length) (ser_length_lt nd) hb hp (rest := ser t ++ rest)
    (by rw [hu, headerTree, List.append_assoc])
  let p : ParseState := { T := (ser t).length, c := 0, ni := 0, seen := [], stack := [] }
  have e1 : ∀ u : State, readDone .treeLen (ser t).length u = u.goto (.read 1 0 (.token p)) := by
    intro u
    show takeField 1 .token p u = _
    exact takeField_ok (by show 0 + 1 ≤ (ser t).length; omega)
  rw [e1] at h1
  obtain ⟨br2, r2, h2, u2, b2⟩ := parse_subtree (t := t) (p := p)
    (s := ((s.moved br r).goto (.read 0 (ser t).length .treeLen)).goto (.read 1 0 (.token p))) b1 rfl u1
    (by show 0 + (ser t).length ≤ (ser t).length; omega)
    (by show 0 + t.internals ≤ 256; have := internals_le_of_nodup nd; omega) nd (by simp [p])
  refine ⟨br2, r2, h1.trans (h2.trans ?_), u2, b2⟩
  show Reaches (subtreeDone _ _ ((s.moved br2 r2).goto (.read 1 0 (.token p)))) _
  rw [subtreeDone_goto]
  have e2 : subtreeDone t.unweighted (p.after t) (s.moved br2 r2) = startWalk t.unweighted (s.moved br2 r2) := by
    show parseDone t.unweighted (p.after t) (s.moved br2 r2) = _
    unfold parseDone
    have hc : (p.after t).c = (p.after t).T := by simp [p, ParseState.after]
    have hs : pseudoEof ∈ (p.after t).seen := by
      show pseudoEof ∈ t.leaves.reverse ++ []
      simpa [EofTree] using he
    rw [if_neg (by simpa using hc), if_neg (by simpa using hs)]
    rfl
  rw [e2]
  exact .refl _

/-! ### The counts header -/

/-- HDR_DEC_COUNTS from symbol i on (R175): it reads the counts of i to 255 into the table and builds the tree. -/
theorem headerCounts_reaches_from {G : FreqTable} (k : Nat) {i : Fin 256} (hk : i.val + k + 1 = 256) {F : FreqTable}
    {s : State} {rest : Bits} (hb : s.br.k < 8) (hp : s.phase = .busy (.read 32 0 (.count i F)))
    (hF : ∀ j (h : j < 256), j < i.val → F[j] = G[j])
    (hu : s.unread = ((G.toList.drop i.val).flatMap fun c => bin 32 c.toNat) ++ rest) :
    ∃ br r, Reaches s (startWalk (build G) (s.moved br r)) ∧ (s.moved br r).unread = rest ∧ br.k < 8 := by
  induction k generalizing i F s with
  | zero =>
    have hi : i.val = 255 := by omega
    have hd : G.toList.drop i.val = [G[i.val]] := by
      apply List.ext_getElem
      · simp; omega
      · intro j h1 h2
        simp at h2
        simp [h2]
    rw [hd, List.flatMap_cons, List.append_assoc] at hu
    obtain ⟨br, r, h1, u1, b1⟩ := read_field (n := 32) (v := (G[i.val]).toNat) (G[i.val]).isLt hb hp (rest := rest) hu
    refine ⟨br, r, h1.trans ?_, u1, b1⟩
    show Reaches (countRead i F (G[i.val]).toNat _) _
    unfold countRead
    have hG : F.set i (BitVec.ofNat 32 (G[i.val]).toNat) = G := by
      apply Vector.ext
      intro j hj
      rw [Vector.getElem_set]
      split
      · rename_i e; subst e; simp
      · exact hF j hj (by omega)
    simp only [hi]
    rw [dif_neg (by omega)]
    simp only [hi] at hG
    rw [hG]
    exact .refl _
  | succ k ih =>
    have hlt : i.val + 1 < 256 := by omega
    have hd : G.toList.drop i.val = G[i.val] :: G.toList.drop (i.val + 1) := by
      rw [List.drop_eq_getElem_cons (by simp)]
      simp
    rw [hd, List.flatMap_cons, List.append_assoc] at hu
    obtain ⟨br, r, h1, u1, b1⟩ := read_field (n := 32) (v := (G[i.val]).toNat) (G[i.val]).isLt hb hp
      (rest := ((G.toList.drop (i.val + 1)).flatMap fun c => bin 32 c.toNat) ++ rest) hu
    have e1 : ∀ u : State, readDone (.count i F) (G[i.val]).toNat u
        = u.goto (.read 32 0 (.count ⟨i.val + 1, hlt⟩ (F.set i (G[i.val])))) := by
      intro u
      show countRead i F _ u = _
      unfold countRead
      rw [dif_pos hlt]
      simp
    rw [e1] at h1
    obtain ⟨br2, r2, h2, u2, b2⟩ := ih (i := ⟨i.val + 1, hlt⟩) (by simp; omega)
      (s := ((s.moved br r).goto (.read 0 (G[i.val]).toNat (.count i F))).goto
        (.read 32 0 (.count ⟨i.val + 1, hlt⟩ (F.set i (G[i.val])))))
      b1 rfl (fun j hj hji => by
        rw [Vector.getElem_set]
        split
        · rename_i e; subst e; rfl
        · exact hF j hj (by simp at hji; omega)) u1
    exact ⟨br2, r2, h1.trans h2, u2, b2⟩

/-- HDR_DEC_COUNTS on a header that HDR_ENC_COUNTS writes (R170, R175, R179, R180). -/
theorem headerCounts_reaches {G F : FreqTable} {s : State} {rest : Bits} (hb : s.br.k < 8)
    (hp : s.phase = .busy (.read 32 0 (.count 0 F))) (hu : s.unread = headerCounts G ++ rest) :
    ∃ br r, Reaches s (startWalk (build G) (s.moved br r)) ∧ (s.moved br r).unread = rest ∧ br.k < 8 :=
  headerCounts_reaches_from 255 (i := 0) rfl hb hp (fun j _ h => absurd h (Nat.not_lt_zero j)) (by simpa [headerCounts] using hu)

/-! ### The symbol decode loop -/

/-- s with the walk at node u. -/
def State.atNode (s : State) (u : Tree) : State := { s with dec := { s.dec with node := u } }


/-- The walk down a path (R246): one bit is read per edge. -/
theorem walk_path {p : Bits} {s : State} {n u : Tree} {rest : Bits} (hb : s.br.k < 8) (hp : s.phase = .busy .walk)
    (hn : s.dec.node = n) (hf : n.follow p = some u) (hu : s.unread = p ++ rest) :
    ∃ br r, Reaches s ((s.moved br r).atNode u) ∧ (s.moved br r).unread = rest ∧ br.k < 8 := by
  induction p generalizing s n with
  | nil =>
    simp only [Tree.follow, Option.some.injEq] at hf
    refine ⟨s.br, s.inCur.bytes, ?_, hu, hb⟩
    rw [moved_self, ← hf, ← hn]
    exact .refl s
  | cons b p ih =>
    cases n with
    | leaf x w => simp [Tree.follow] at hf
    | node l r w =>
      have e1 : blockStep s = s.goto (.read 1 0 .dataBit) := by
        rw [blockStep_busy hp]
        show walkStep s = _
        unfold walkStep
        rw [hn]
      obtain ⟨br, q, h1, u1, b1⟩ := read_field (n := 1) (v := b.toNat) (by cases b <;> decide)
        (s := s.goto (.read 1 0 .dataBit)) hb rfl (rest := p ++ rest)
        (by show s.unread = _; rw [hu]; cases b <;> simp [bin])
      have e2 : readDone .dataBit b.toNat (((s.goto (.read 1 0 .dataBit)).moved br q).goto (.read 0 b.toNat .dataBit))
          = ((s.moved br q).atNode (if b then r else l)) := by
        show dataBitRead _ _ = _
        unfold dataBitRead
        have : (((s.goto (.read 1 0 .dataBit)).moved br q).goto (.read 0 b.toNat .dataBit)).dec.node = .node l r w := hn
        rw [this]
        cases b <;> simp [State.goto, State.moved, State.atNode, hp]
      rw [e2] at h1
      obtain ⟨br2, q2, h2, u2, b2⟩ := ih
        (s := ((s.moved br q).atNode (if b then r else l))) (n := if b then r else l)
        b1 hp rfl (by cases b <;> simpa [Tree.follow] using hf) u1
      refine ⟨br2, q2, ?_, u2, b2⟩
      apply Reaches.of_step
      rw [e1]
      exact h1.trans h2

/-- DECOMPRESS's loop over codes (R244 to R247): each path from the root to a byte leaf is read and its symbol delivered. -/
theorem walk_symbols {bs : List Byte} {code : Byte → Bits} {s : State} {rest : Bits} (hb : s.br.k < 8) (ha : s.bw.acc = [])
    (hp : s.phase = .busy .walk) (hn : s.dec.node = s.dec.tree)
    (hc : ∀ b ∈ bs, ∃ w, s.dec.tree.follow (code b) = some (.leaf (Symbol.ofByte b) w))
    (hu : s.unread = bs.flatMap code ++ rest) :
    ∃ br r, Reaches s { (s.moved br r).wrote (s.out ++ bs) { acc := [], nout := s.bw.nout + BitVec.ofNat 64 (8 * bs.length) } with
        dec := { s.dec with nsym := s.dec.nsym + BitVec.ofNat 64 bs.length } } ∧
      (s.moved br r).unread = rest ∧ br.k < 8 := by
  induction bs generalizing s with
  | nil =>
    refine ⟨s.br, s.inCur.bytes, ?_, hu, hb⟩
    rw [moved_self]
    have : ({ s.wrote (s.out ++ []) { acc := [], nout := s.bw.nout + BitVec.ofNat 64 (8 * ([] : List Byte).length) } with
        dec := { s.dec with nsym := s.dec.nsym + BitVec.ofNat 64 ([] : List Byte).length } } : State) = s := by
      simp [State.wrote, ← ha]
    rw [this]
    exact .refl s
  | cons b bs ih =>
    obtain ⟨w, hw⟩ := hc b (.head _)
    rw [List.flatMap_cons, List.append_assoc] at hu
    obtain ⟨br, r, h1, u1, b1⟩ := walk_path hb hp hn hw hu
    have hne : Symbol.ofByte b ≠ pseudoEof := by
      intro e
      have := congrArg Fin.val e
      have := b.isLt
      simp [Symbol.ofByte, pseudoEof] at *
      omega
    have e2 : blockStep ((s.moved br r).atNode (.leaf (Symbol.ofByte b) w))
        = ((s.moved br r).atNode (.leaf (Symbol.ofByte b) w)).goto
            (.emit (bin 8 b.toNat) .toWalk) := by
      have hp' : ((s.moved br r).atNode (.leaf (Symbol.ofByte b) w)).phase = .busy .walk := hp
      rw [blockStep_busy hp']
      show (if Symbol.ofByte b = pseudoEof then _ else _) = _
      rw [if_neg hne]
      rfl
    obtain ⟨o, w2, h3, hw3⟩ := emit_reaches
      (s := ((s.moved br r).atNode (.leaf (Symbol.ofByte b) w)).goto
            (.emit (bin 8 b.toNat) .toWalk)) (by show s.bw.acc.length < 8; rw [ha]; decide) rfl
    have hk := hw3.acc_length ha
    have hacc : w2.acc = [] := List.length_eq_zero_iff.1 (by simpa [BitWriter.k] using hk)
    have hbits := hw3.bits
    have hout : o = s.out ++ [b] := by
      apply bitsOf_injective
      rw [hacc] at hbits
      simpa [State.written, State.goto, State.moved, State.atNode, ha, bitsOf_cons] using hbits
    have hnout : w2.nout = s.bw.nout + 8 := by
      obtain ⟨d, hd, hn⟩ := hw3.grew
      have hd' : s.out ++ [b] = s.out ++ d := by rw [← hout]; exact hd
      rw [← List.append_cancel_left hd'] at hn
      exact hn
    have hw2 : w2 = { acc := [], nout := s.bw.nout + 8 } := by rw [← hacc, ← hnout]
    subst hout hw2
    obtain ⟨br2, r2, h4, u4, b4⟩ := ih
      (s := symbolWritten (((((s.moved br r).atNode (.leaf (Symbol.ofByte b) w)).goto
            (.emit (bin 8 b.toNat) .toWalk)).wrote (s.out ++ [b]) { acc := [], nout := s.bw.nout + 8 }).goto (.emit [] .toWalk)))
      b1 rfl rfl rfl (fun x hx => hc x (.tail _ hx)) u1
    refine ⟨br2, r2, ?_, u4, b4⟩
    refine h1.trans (Reaches.of_step ?_)
    rw [e2]
    refine h3.trans (Reaches.of_step (h4.trans ?_))
    have hl : (8 : DWord) + BitVec.ofNat 64 (8 * bs.length) = BitVec.ofNat 64 (8 * (b :: bs).length) := by
      rw [List.length_cons, Nat.mul_add, Nat.add_comm, BitVec.ofNat_add]
      rfl
    have hl1 : (1 : DWord) + BitVec.ofNat 64 bs.length = BitVec.ofNat 64 (b :: bs).length := by
      rw [List.length_cons, Nat.add_comm, BitVec.ofNat_add]
      rfl
    simp only [State.wrote, State.moved, State.goto, State.atNode, symbolWritten, List.append_assoc, List.singleton_append,
      BitVec.add_assoc, hl, hl1, hn, hp]
    exact .refl _

/-- The end of DECOMPRESS (R247): at a PSEUDO_EOF leaf the command completes with the bits written. -/
theorem walk_eof {s : State} {w : DWord} (hp : s.phase = .busy .walk) (hn : s.dec.node = .leaf pseudoEof w) :
    Reaches s (complete 0 s.bw.nout s) := by
  apply Reaches.of_step
  rw [blockStep_busy hp]
  have : posStep .walk s = s.goto (.ret s.bw.nout) := by
    show walkStep s = _
    unfold walkStep
    rw [hn]
    simp
  rw [this]
  apply Reaches.of_step
  exact .refl _

end Sys2Proof.Machine
end

