-- ==== Sys2Proof/Laws/Frame.lean ====
section
/-! SUPPORT. What block steps leave alone: everything outside the block, the plan outside PREPROCESS, the decoder outside DECOMPRESS,
and every byte already delivered (R29, R69, R72, R225). -/

namespace Sys2Proof.Machine

/-! ### What stands around the block -/

/-- s in other surroundings: what the host read last, the events to come, the pace, and the stream presented for the next command. -/
def State.around (s : State) (v : Word) (ev : List Timed) (p : Option Nat) (st : Stream) : State :=
  { s with rdata := v, events := ev, pace := p, inNext := st }

theorem around_self (s : State) : s.around s.rdata s.events s.pace s.inNext = s := rfl

/-- No block step looks at the surroundings or changes them. -/
theorem blockStep_around (s : State) (v : Word) (ev : List Timed) (p : Option Nat) (st : Stream) :
    blockStep (s.around v ev p st) = (blockStep s).around v ev p st := by
  have hin : ∀ {P : Prop},
      (∀ b r, inByte s = .byte b (s.setBytes r) → inByte (s.around v ev p st) = .byte b ((s.setBytes r).around v ev p st) → P) →
      (inByte s = .eos → inByte (s.around v ev p st) = .eos → P) →
      (inByte s = .fail → inByte (s.around v ev p st) = .fail → P) →
      (inByte s = .wait → inByte (s.around v ev p st) = .wait → P) → P := by
    intro P h1 h2 h3 h4
    rcases inByte_cases s with ⟨b, r, hb, e⟩ | ⟨hb, ht, e⟩ | ⟨hb, ht, e⟩ | ⟨hb, ht, e⟩
    · exact h1 b r e (inByte_cons (s := s.around v ev p st) hb)
    · exact h2 e (inByte_eos (s := s.around v ev p st) hb ht)
    · exact h3 e (inByte_fail (s := s.around v ev p st) hb ht)
    · exact h4 e (inByte_wait (s := s.around v ev p st) hb ht)
  cases hp : s.phase with
  | idle => rw [blockStep_idle hp, blockStep_idle (s := s.around v ev p st) hp]
  | busy q =>
    rw [blockStep_busy hp, blockStep_busy (s := s.around v ev p st) hp]
    match q with
    | .preprocess _ => rfl
    | .count fmt n =>
      simp only [posStep, countStep]
      refine hin (fun b r e e' => ?_) (fun e e' => ?_) (fun e e' => ?_) (fun e e' => ?_) <;> rw [e, e'] <;> try rfl
      simp only [countByte]
      show (if freqOf s.plan.freq b = _ then _ else _) = State.around (if freqOf s.plan.freq b = _ then _ else _) _ _ _ _
      split <;> rfl
    | .compress force =>
      simp only [posStep, startCompress]
      show (if s.plan.valid = false then _ else if skips force s.plan then _ else _) = _
      split
      · rfl
      · split <;> rfl
    | .symbols =>
      simp only [posStep, symbolStep]
      refine hin (fun b r e e' => ?_) (fun e e' => ?_) (fun e e' => ?_) (fun e e' => ?_) <;> rw [e, e'] <;> try rfl
      simp only [symbolByte]
      show (if freqOf s.plan.freq b = _ then _ else _) = State.around (if freqOf s.plan.freq b = _ then _ else _) _ _ _ _
      split <;> rfl
    | .decompress => rfl
    | .read 0 w k =>
      cases k with
      | magic =>
        simp only [posStep, readDone, magicRead]
        show (if BitVec.ofNat 32 w ≠ s.params.MAGIC_NUMBER then _ else _) = _
        split <;> rfl
      | selector =>
        simp only [posStep, readDone, selectorRead]
        show (if BitVec.ofNat 32 w = s.params.SEL_COUNTS then _ else if BitVec.ofNat 32 w = s.params.SEL_TREE then _ else _) = _
        split
        · rfl
        · split <;> rfl
      | count i F =>
        simp only [posStep, readDone, countRead]
        split <;> rfl
      | treeLen =>
        simp only [posStep, readDone, treeLenRead, takeField]
        split <;> rfl
      | token q =>
        simp only [posStep, readDone, tokenRead, takeField]
        split
        · split
          · rfl
          · split <;> rfl
        · split <;> rfl
      | leafValue q =>
        simp only [posStep, readDone, leafValueRead]
        split
        · split
          · rfl
          · split
            · simp only [parseDone]
              split
              · rfl
              · split <;> rfl
            · simp only [takeField]
              split <;> rfl
        · rfl
      | dataBit =>
        simp only [posStep, readDone, dataBitRead]
        have hd : (s.around v ev p st).dec.node = s.dec.node := rfl
        cases hn : s.dec.node <;> rw [hn] at hd <;> rw [hd] <;> rfl
    | .read (n + 1) w k =>
      simp only [posStep, readBit]
      show (if s.br.k = 0 then _ else _) = State.around (if s.br.k = 0 then _ else _) _ _ _ _
      split
      · refine hin (fun b r e e' => ?_) (fun e e' => ?_) (fun e e' => ?_) (fun e e' => ?_) <;> rw [e, e'] <;> rfl
      · rfl
    | .walk =>
      simp only [posStep, walkStep]
      have hd : (s.around v ev p st).dec.node = s.dec.node := rfl
      cases hn : s.dec.node <;> rw [hn] at hd <;> rw [hd]
      · dsimp only
        split <;> rfl
      · rfl
    | .emit [] k => cases k <;> rfl
    | .emit (b :: r) k =>
      simp only [posStep, emitBit]
      show State.goto (if s.bw.k + 1 = 8 then _ else _) _ = _
      split <;> rfl
    | .ret _ => rfl

theorem run_around (n : Nat) (s : State) (v : Word) (ev : List Timed) (p : Option Nat) (st : Stream) :
    run n (s.around v ev p st) = (run n s).around v ev p st := by
  induction n generalizing s with
  | zero => rfl
  | succ n ih => rw [run_succ, run_succ, blockStep_around, ih]

/-- A run leaves the surroundings as they were. -/
theorem run_surroundings (n : Nat) (s : State) :
    (run n s).rdata = s.rdata ∧ (run n s).events = s.events ∧ (run n s).pace = s.pace ∧ (run n s).inNext = s.inNext := by
  have h := run_around n s s.rdata s.events s.pace s.inNext
  rw [around_self] at h
  rw [h]
  exact ⟨rfl, rfl, rfl, rfl⟩

/-! ### What belongs to which command -/

/-- The positions of PREPROCESS before its return (R210). -/
def Pos.ofPreprocess : Pos → Bool
  | .preprocess _ => true
  | .count _ _    => true
  | _             => false

/-- The positions of DECOMPRESS before its return (R240). -/
def Pos.ofDecompress : Pos → Bool
  | .decompress    => true
  | .read _ _ _    => true
  | .walk          => true
  | .emit _ .toWalk => true
  | _              => false

/-- The positions of COMPRESS before its return (R220). -/
def Pos.ofCompress : Pos → Bool
  | .compress _       => true
  | .symbols          => true
  | .emit _ .toSymbols => true
  | .emit _ .toFlush   => true
  | .emit _ .toReturn  => true
  | _                 => false

/-- Whether the running command is the one whose positions f tells, or is about to complete, or has completed. -/
def Within (f : Pos → Bool) (s : State) : Prop :=
  match s.phase with
  | .idle         => True
  | .busy (.ret _) => True
  | .busy p       => f p = true

theorem within_idle {f : Pos → Bool} {s : State} (h : s.phase = .idle) : Within f s := by simp [Within, h]
theorem within_busy {f : Pos → Bool} {s : State} {p : Pos} (h : s.phase = .busy p) (hf : f p = true) : Within f s := by
  rw [Within, h]
  cases p <;> trivial
theorem within_ret {f : Pos → Bool} {s : State} {v : DWord} (h : s.phase = .busy (.ret v)) : Within f s := by
  simp [Within, h]

/-- One block step of PREPROCESS (R210): the decoder, OUT, the count of the bit writer, the bit reader and the parameters stay. -/
theorem preprocess_step {s : State} (w : Within Pos.ofPreprocess s) :
    Within Pos.ofPreprocess (blockStep s) ∧ (blockStep s).dec = s.dec ∧ (blockStep s).out = s.out ∧
      (blockStep s).params = s.params ∧ (blockStep s).br = s.br ∧ (blockStep s).bw.nout = s.bw.nout := by
  cases hp : s.phase with
  | idle => rw [blockStep_idle hp]; exact ⟨w, rfl, rfl, rfl, rfl, rfl⟩
  | busy p =>
    rw [blockStep_busy hp]
    rw [Within, hp] at w
    match p, w with
    | .preprocess fmt, _ => exact ⟨within_busy rfl rfl, rfl, rfl, rfl, rfl, rfl⟩
    | .count fmt n, _ =>
      simp only [posStep, countStep]
      rcases inByte_cases s with ⟨b, r, hb, e⟩ | ⟨hb, ht, e⟩ | ⟨hb, ht, e⟩ | ⟨hb, ht, e⟩ <;> rw [e]
      · show Within _ (countByte fmt n b _) ∧ (countByte fmt n b _).dec = _ ∧ (countByte fmt n b _).out = _ ∧ (countByte fmt n b _).params = _ ∧
          (countByte fmt n b _).br = _ ∧ (countByte fmt n b _).bw.nout = _
        unfold countByte
        split
        · exact ⟨within_idle rfl, rfl, rfl, rfl, rfl, rfl⟩
        · exact ⟨within_busy rfl rfl, rfl, rfl, rfl, rfl, rfl⟩
      · exact ⟨within_ret rfl, rfl, rfl, rfl, rfl, rfl⟩
      · exact ⟨within_idle rfl, rfl, rfl, rfl, rfl, rfl⟩
      · exact ⟨within_busy hp rfl, rfl, rfl, rfl, rfl, rfl⟩
    | .ret v, _ => exact ⟨within_idle rfl, rfl, rfl, rfl, rfl, rfl⟩

/-- One block step of COMPRESS (R225): the plan, the decoder, the bit reader and the parameters stay, OUT only grows (R72). -/
theorem compress_step {s : State} (w : Within Pos.ofCompress s) :
    Within Pos.ofCompress (blockStep s) ∧ (blockStep s).plan = s.plan ∧ (blockStep s).dec = s.dec ∧
      s.out <+: (blockStep s).out ∧ (blockStep s).params = s.params ∧ (blockStep s).br = s.br := by
  cases hp : s.phase with
  | idle => rw [blockStep_idle hp]; exact ⟨w, rfl, rfl, List.prefix_rfl, rfl, rfl⟩
  | busy p =>
    rw [blockStep_busy hp]
    rw [Within, hp] at w
    match p, w with
    | .compress force, _ =>
      simp only [posStep, startCompress]
      split
      · exact ⟨within_idle rfl, rfl, rfl, List.prefix_rfl, rfl, rfl⟩
      · split
        · exact ⟨within_ret rfl, rfl, rfl, List.prefix_rfl, rfl, rfl⟩
        · exact ⟨within_busy rfl rfl, rfl, rfl, List.prefix_rfl, rfl, rfl⟩
    | .symbols, _ =>
      simp only [posStep, symbolStep]
      rcases inByte_cases s with ⟨b, r, hb, e⟩ | ⟨hb, ht, e⟩ | ⟨hb, ht, e⟩ | ⟨hb, ht, e⟩ <;> rw [e]
      · show Within _ (symbolByte b _) ∧ (symbolByte b _).plan = _ ∧ (symbolByte b _).dec = _ ∧ _ <+: (symbolByte b _).out ∧ (symbolByte b _).params = _ ∧
          (symbolByte b _).br = _
        unfold symbolByte
        split
        · exact ⟨within_idle rfl, rfl, rfl, List.prefix_rfl, rfl, rfl⟩
        · exact ⟨within_busy rfl rfl, rfl, rfl, List.prefix_rfl, rfl, rfl⟩
      · exact ⟨within_busy rfl rfl, rfl, rfl, List.prefix_rfl, rfl, rfl⟩
      · exact ⟨within_idle rfl, rfl, rfl, List.prefix_rfl, rfl, rfl⟩
      · exact ⟨within_busy hp rfl, rfl, rfl, List.prefix_rfl, rfl, rfl⟩
    | .emit [] k, hk =>
      cases k with
      | toWalk => simp [Pos.ofCompress] at hk
      | toSymbols => exact ⟨within_busy rfl rfl, rfl, rfl, List.prefix_rfl, rfl, rfl⟩
      | toFlush => exact ⟨within_busy rfl rfl, rfl, rfl, List.prefix_rfl, rfl, rfl⟩
      | toReturn => exact ⟨within_ret rfl, rfl, rfl, List.prefix_rfl, rfl, rfl⟩
    | .emit (b :: r) k, hk =>
      have hk' : Pos.ofCompress (.emit r k) = true := by cases k <;> first | rfl | simp [Pos.ofCompress] at hk
      simp only [posStep, emitBit]
      split
      · exact ⟨within_busy rfl hk', rfl, rfl, List.prefix_append _ _, rfl, rfl⟩
      · exact ⟨within_busy rfl hk', rfl, rfl, List.prefix_rfl, rfl, rfl⟩
    | .ret v, _ => exact ⟨within_idle rfl, rfl, rfl, List.prefix_rfl, rfl, rfl⟩

/-- One block step of DECOMPRESS (R29): the plan and the parameters stay, OUT only grows (R72). -/
theorem decompress_step {s : State} (w : Within Pos.ofDecompress s) :
    Within Pos.ofDecompress (blockStep s) ∧ (blockStep s).plan = s.plan ∧ s.out <+: (blockStep s).out ∧
      (blockStep s).params = s.params := by
  have take : ∀ n k p (u : State), Within Pos.ofDecompress (takeField n k p u) ∧ (takeField n k p u).plan = u.plan ∧
      (takeField n k p u).out = u.out ∧ (takeField n k p u).params = u.params := by
    intro n k p u
    unfold takeField
    split
    · exact ⟨within_idle rfl, rfl, rfl, rfl⟩
    · exact ⟨within_busy rfl rfl, rfl, rfl, rfl⟩
  have done : ∀ v k, Within Pos.ofDecompress (readDone k v s) ∧ (readDone k v s).plan = s.plan ∧
      (readDone k v s).out = s.out ∧ (readDone k v s).params = s.params := by
    intro v k
    cases k with
    | magic =>
      simp only [readDone, magicRead]
      split
      · exact ⟨within_idle rfl, rfl, rfl, rfl⟩
      · exact ⟨within_busy rfl rfl, rfl, rfl, rfl⟩
    | selector =>
      simp only [readDone, selectorRead]
      split
      · exact ⟨within_busy rfl rfl, rfl, rfl, rfl⟩
      · split
        · exact ⟨within_busy rfl rfl, rfl, rfl, rfl⟩
        · exact ⟨within_idle rfl, rfl, rfl, rfl⟩
    | count i F =>
      simp only [readDone, countRead]
      split
      · exact ⟨within_busy rfl rfl, rfl, rfl, rfl⟩
      · exact ⟨within_busy rfl rfl, rfl, rfl, rfl⟩
    | treeLen => exact take _ _ _ _
    | token p =>
      simp only [readDone, tokenRead]
      split
      · split
        · exact ⟨within_idle rfl, rfl, rfl, rfl⟩
        · exact take _ _ _ _
      · exact take _ _ _ _
    | leafValue p =>
      simp only [readDone, leafValueRead]
      split
      · split
        · exact ⟨within_idle rfl, rfl, rfl, rfl⟩
        · split
          · simp only [parseDone]
            split
            · exact ⟨within_idle rfl, rfl, rfl, rfl⟩
            · split
              · exact ⟨within_idle rfl, rfl, rfl, rfl⟩
              · exact ⟨within_busy rfl rfl, rfl, rfl, rfl⟩
          · exact take _ _ _ _
      · exact ⟨within_idle rfl, rfl, rfl, rfl⟩
    | dataBit =>
      simp only [readDone, dataBitRead]
      split
      · exact ⟨within_busy rfl rfl, rfl, rfl, rfl⟩
      · exact ⟨within_busy rfl rfl, rfl, rfl, rfl⟩
  cases hp : s.phase with
  | idle => rw [blockStep_idle hp]; exact ⟨w, rfl, List.prefix_rfl, rfl⟩
  | busy p =>
    rw [blockStep_busy hp]
    rw [Within, hp] at w
    match p, w with
    | .decompress, _ => exact ⟨within_busy rfl rfl, rfl, List.prefix_rfl, rfl⟩
    | .read 0 v k, _ =>
      obtain ⟨h1, h2, h3, h4⟩ := done v k
      exact ⟨h1, h2, by rw [posStep, h3], h4⟩
    | .read (n + 1) v k, _ =>
      simp only [posStep, readBit]
      split
      · rcases inByte_cases s with ⟨b, r, hb, e⟩ | ⟨hb, ht, e⟩ | ⟨hb, ht, e⟩ | ⟨hb, ht, e⟩ <;> rw [e]
        · exact ⟨within_busy rfl rfl, rfl, List.prefix_rfl, rfl⟩
        · exact ⟨within_idle rfl, rfl, List.prefix_rfl, rfl⟩
        · exact ⟨within_idle rfl, rfl, List.prefix_rfl, rfl⟩
        · exact ⟨within_busy hp rfl, rfl, List.prefix_rfl, rfl⟩
      · exact ⟨within_busy rfl rfl, rfl, List.prefix_rfl, rfl⟩
    | .walk, _ =>
      simp only [posStep, walkStep]
      split
      · split
        · exact ⟨within_ret rfl, rfl, List.prefix_rfl, rfl⟩
        · exact ⟨within_busy rfl rfl, rfl, List.prefix_rfl, rfl⟩
      · exact ⟨within_busy rfl rfl, rfl, List.prefix_rfl, rfl⟩
    | .emit [] k, hk =>
      cases k with
      | toWalk => exact ⟨within_busy rfl rfl, rfl, List.prefix_rfl, rfl⟩
      | _ => simp [Pos.ofDecompress] at hk
    | .emit (b :: r) k, hk =>
      have hk' : Pos.ofDecompress (.emit r k) = true := by cases k <;> first | rfl | simp [Pos.ofDecompress] at hk
      simp only [posStep, emitBit]
      split
      · exact ⟨within_busy rfl hk', rfl, List.prefix_append _ _, rfl⟩
      · exact ⟨within_busy rfl hk', rfl, List.prefix_rfl, rfl⟩
    | .ret v, _ => exact ⟨within_idle rfl, rfl, List.prefix_rfl, rfl⟩

/-- Every state is within one of the three commands. -/
theorem within_some (s : State) : Within Pos.ofPreprocess s ∨ Within Pos.ofCompress s ∨ Within Pos.ofDecompress s := by
  cases hp : s.phase with
  | idle => exact .inl (within_idle hp)
  | busy p =>
    match p with
    | .preprocess _ => exact .inl (within_busy hp rfl)
    | .count _ _ => exact .inl (within_busy hp rfl)
    | .compress _ => exact .inr (.inl (within_busy hp rfl))
    | .symbols => exact .inr (.inl (within_busy hp rfl))
    | .emit _ .toSymbols => exact .inr (.inl (within_busy hp rfl))
    | .emit _ .toFlush => exact .inr (.inl (within_busy hp rfl))
    | .emit _ .toReturn => exact .inr (.inl (within_busy hp rfl))
    | .emit _ .toWalk => exact .inr (.inr (within_busy hp rfl))
    | .decompress => exact .inr (.inr (within_busy hp rfl))
    | .read _ _ _ => exact .inr (.inr (within_busy hp rfl))
    | .walk => exact .inr (.inr (within_busy hp rfl))
    | .ret _ => exact .inl (within_ret hp)

/-! ### Whole runs -/

/-- What every block step of a command keeps, a run of it keeps. -/
theorem run_keeps {P : State → Prop} (step : ∀ s, P s → P (blockStep s)) (n : Nat) {s : State} (h : P s) : P (run n s) := by
  induction n generalizing s with
  | zero => exact h
  | succ n ih => rw [run_succ]; exact ih (step s h)

theorem preprocess_run (n : Nat) {s : State} (w : Within Pos.ofPreprocess s) :
    (run n s).dec = s.dec ∧ (run n s).out = s.out ∧ (run n s).params = s.params ∧ (run n s).br = s.br ∧
      (run n s).bw.nout = s.bw.nout := by
  refine (run_keeps (P := fun u => Within Pos.ofPreprocess u ∧ u.dec = s.dec ∧ u.out = s.out ∧ u.params = s.params ∧ u.br = s.br ∧
    u.bw.nout = s.bw.nout) (fun u h => ?_) n ⟨w, rfl, rfl, rfl, rfl, rfl⟩).2
  obtain ⟨w', h1, h2, h3, h4, h5⟩ := h
  obtain ⟨a, b, c, d, e, f⟩ := preprocess_step w'
  exact ⟨a, b.trans h1, c.trans h2, d.trans h3, e.trans h4, f.trans h5⟩

theorem compress_run (n : Nat) {s : State} (w : Within Pos.ofCompress s) :
    (run n s).plan = s.plan ∧ (run n s).dec = s.dec ∧ s.out <+: (run n s).out ∧ (run n s).params = s.params ∧
      (run n s).br = s.br := by
  refine (run_keeps (P := fun u => Within Pos.ofCompress u ∧ u.plan = s.plan ∧ u.dec = s.dec ∧ s.out <+: u.out ∧ u.params = s.params ∧
    u.br = s.br) (fun u h => ?_) n ⟨w, rfl, rfl, List.prefix_rfl, rfl, rfl⟩).2
  obtain ⟨w', h1, h2, h3, h4, h5⟩ := h
  obtain ⟨a, b, c, d, e, f⟩ := compress_step w'
  exact ⟨a, b.trans h1, c.trans h2, h3.trans d, e.trans h4, f.trans h5⟩

theorem decompress_run (n : Nat) {s : State} (w : Within Pos.ofDecompress s) :
    (run n s).plan = s.plan ∧ s.out <+: (run n s).out ∧ (run n s).params = s.params := by
  refine (run_keeps (P := fun u => Within Pos.ofDecompress u ∧ u.plan = s.plan ∧ s.out <+: u.out ∧ u.params = s.params)
    (fun u h => ?_) n ⟨w, rfl, List.prefix_rfl, rfl⟩).2
  obtain ⟨a, b, c, d⟩ := decompress_step h.1
  exact ⟨a, b.trans h.2.1, h.2.2.1.trans c, d.trans h.2.2.2⟩

/-! ### From a command word to its end -/

/-- The block in the first line of a command it has just accepted (R84, R66). -/
theorem accepted_inv {s : State} (h : s.Inv) {p : Pos} (hp : ∀ u, PosOk u p) : (takeStream (accept p s)).Inv where
  params := h.params
  status := { exclusive := fun _ => rfl, err := rfl, produced := Nat.zero_le _, running := fun _ => ⟨rfl, rfl⟩ }
  ports := { acc := by show 0 < 8; decide, nout := rfl, br := by show 0 < 8; decide }
  plan := h.plan
  pos := fun q hq => by
    simp at hq
    subst hq
    exact hp _

/-- A command that block steps bring to a state where the block rests ends there (R85, R314). -/
theorem command_of_reaches {s t : State} {st : Stream} (h : Ready s st) {p : Pos} (hp : ∀ u, PosOk u p)
    (r : Reaches (takeStream (accept p s)) t) (q : t.quiescent = true) : command p s = .next t := by
  have hb : s.busy = false := by simp [State.busy, h.idle]
  rw [command, if_neg (by simp [hb])]
  have hpace : (takeStream (accept p s)).pace = none := h.alone
  rw [progress, hpace]
  exact congrArg _ (Reaches.horizon (accepted_inv h.inv hp) r q)

/-! ### Surroundings and the invariant -/

/-- The invariant does not look at the surroundings. -/
theorem around_inv {s : State} (h : s.Inv) (v : Word) (ev : List Timed) (p : Option Nat) (st : Stream) : (s.around v ev p st).Inv where
  params := h.params
  status := { exclusive := h.status.exclusive, err := h.status.err, produced := h.status.produced, running := h.status.running }
  ports := { acc := h.ports.acc, nout := h.ports.nout, br := h.ports.br }
  plan := h.plan
  pos := fun p hp => by
    have := h.pos p hp
    match p, this with
    | .read _ _ k, hk => cases k <;> exact hk
    | .emit _ k, hk => cases k <;> exact hk
    | .preprocess _, hk | .count _ _, hk | .compress _, hk | .symbols, hk | .decompress, hk | .walk, hk | .ret _, hk => exact hk

/-- The invariant does not look at the unread stream. -/
theorem withInCur_inv {s : State} (h : s.Inv) (c : Stream) : ({ s with inCur := c } : State).Inv where
  params := h.params
  status := { exclusive := h.status.exclusive, err := h.status.err, produced := h.status.produced, running := h.status.running }
  ports := { acc := h.ports.acc, nout := h.ports.nout, br := h.ports.br }
  plan := h.plan
  pos := fun p hp => by
    have := h.pos p hp
    match p, this with
    | .read _ _ k, hk => cases k <;> exact hk
    | .emit _ k, hk => cases k <;> exact hk
    | .preprocess _, hk | .count _ _, hk | .compress _, hk | .symbols, hk | .decompress, hk | .walk, hk | .ret _, hk => exact hk

/-! ### A command is a run -/

/-- Whatever the pace, the block's steps before the next event are a run. -/
theorem progress_eq_run (s : State) : ∃ n, progress s = run n s := by
  unfold progress
  split
  · exact ⟨_, rfl⟩
  · exact ⟨_, rfl⟩

/-- A command in a ready state is a run of the block from its first line (R84, R66). -/
theorem command_eq {s : State} {st : Stream} (h : Ready s st) (p : Pos) :
    command p s = .next (run (horizon (takeStream (accept p s))) (takeStream (accept p s))) := by
  rw [command, if_neg (by simp [State.busy, h.idle]), progress, show (takeStream (accept p s)).pace = none from h.alone]

/-- Every instruction but DECOMPRESS with A = 1 is a command from the first line of its pseudocode. -/
theorem exec_cases (i : Instr) :
    (∃ p, (∀ u, PosOk u p) ∧ (i = .decompress true → False) ∧ ∀ s, exec i s = command p s) ∨ i = .decompress true := by
  cases i with
  | preprocess f => exact .inl ⟨.preprocess f, fun _ => trivial, by simp, fun _ => rfl⟩
  | compress f => exact .inl ⟨.compress f, fun _ => trivial, by simp, fun _ => rfl⟩
  | decompress a =>
    cases a
    · exact .inl ⟨.decompress, fun _ => trivial, by simp, fun _ => rfl⟩
    · exact .inr rfl

/-- A run leaves the parameters and what was delivered (R21, R72). -/
theorem run_out_params (n : Nat) (s : State) : s.out <+: (run n s).out ∧ (run n s).params = s.params := by
  rcases within_some s with w | w | w
  · have h := preprocess_run n w
    exact ⟨by rw [h.2.1], h.2.2.1⟩
  · have h := compress_run n w
    exact ⟨h.2.2.1, h.2.2.2.1⟩
  · have h := decompress_run n w
    exact ⟨h.2.1, h.2.2⟩

end Sys2Proof.Machine
end

