-- ==== Sys2Proof/Laws/Status.lean ====
section
/-! SUPPORT. What a block step can do to the status (R24, R25, R73, R85), and runs that go on when more of the stream comes (R314). -/

namespace Sys2Proof.Machine

/-! ### The status -/

/-- What block steps make of the status of a running command: it has completed, or nothing of the status has changed. The terminator of the
stream is never consumed. -/
def StatusAfter (s t : State) : Prop := t.inCur.term = s.inCur.term ∧ ((t.phase = .idle ∧ t.done = true) ∨ (t.busy = true ∧ t.errcode = s.errcode ∧ t.result = s.result ∧ t.done = s.done ∧ t.err = s.err))

theorem statusAfter_end {s t : State} (e : t.inCur.term = s.inCur.term) (h : t.phase = .idle) (d : t.done = true) : StatusAfter s t := ⟨e, .inl ⟨h, d⟩⟩

theorem statusAfter_on {s t : State} (e : t.inCur.term = s.inCur.term) (b : t.busy = true) (h1 : t.errcode = s.errcode) (h2 : t.result = s.result) (h3 : t.done = s.done) (h4 : t.err = s.err) : StatusAfter s t := ⟨e, .inr ⟨b, h1, h2, h3, h4⟩⟩

/-- One block step of a running command (R85, R279). -/
theorem blockStep_status {s : State} {p : Pos} (hp : s.phase = .busy p) : StatusAfter s (blockStep s) := by
  have bz := busy_of_busy hp
  have take : ∀ n k p (u : State), StatusAfter u (takeField n k p u) := by
    intro n k p u
    unfold takeField
    split
    · exact statusAfter_end rfl rfl rfl
    · exact statusAfter_on rfl rfl rfl rfl rfl rfl
  rw [blockStep_busy hp]
  match p with
  | .preprocess _ => exact statusAfter_on rfl rfl rfl rfl rfl rfl
  | .count f n =>
    simp only [posStep, countStep]
    rcases inByte_cases s with ⟨b, r, hb, e⟩ | ⟨hb, ht, e⟩ | ⟨hb, ht, e⟩ | ⟨hb, ht, e⟩ <;> rw [e]
    · simp only [countByte]; split; exact statusAfter_end rfl rfl rfl; exact statusAfter_on rfl rfl rfl rfl rfl rfl
    · exact statusAfter_on rfl rfl rfl rfl rfl rfl
    · exact statusAfter_end rfl rfl rfl
    · exact statusAfter_on rfl bz rfl rfl rfl rfl
  | .compress f =>
    simp only [posStep, startCompress]; split
    · exact statusAfter_end rfl rfl rfl
    · split <;> exact statusAfter_on rfl rfl rfl rfl rfl rfl
  | .symbols =>
    simp only [posStep, symbolStep]
    rcases inByte_cases s with ⟨b, r, hb, e⟩ | ⟨hb, ht, e⟩ | ⟨hb, ht, e⟩ | ⟨hb, ht, e⟩ <;> rw [e]
    · simp only [symbolByte]; split; exact statusAfter_end rfl rfl rfl; exact statusAfter_on rfl rfl rfl rfl rfl rfl
    · exact statusAfter_on rfl rfl rfl rfl rfl rfl
    · exact statusAfter_end rfl rfl rfl
    · exact statusAfter_on rfl bz rfl rfl rfl rfl
  | .decompress => exact statusAfter_on rfl rfl rfl rfl rfl rfl
  | .read 0 v k =>
    cases k with
    | magic => simp only [posStep, readDone, magicRead]; split; exact statusAfter_end rfl rfl rfl; exact statusAfter_on rfl rfl rfl rfl rfl rfl
    | selector =>
      simp only [posStep, readDone, selectorRead]; split
      · exact statusAfter_on rfl rfl rfl rfl rfl rfl
      · split; exact statusAfter_on rfl rfl rfl rfl rfl rfl; exact statusAfter_end rfl rfl rfl
    | count i F => simp only [posStep, readDone, countRead]; split <;> exact statusAfter_on rfl rfl rfl rfl rfl rfl
    | treeLen => exact take _ _ _ _
    | token q =>
      simp only [posStep, readDone, tokenRead]
      split
      · split; exact statusAfter_end rfl rfl rfl; exact take _ _ _ _
      · exact take _ _ _ _
    | leafValue q =>
      simp only [posStep, readDone, leafValueRead]
      split
      · split
        · exact statusAfter_end rfl rfl rfl
        · split
          · simp only [parseDone]; split; exact statusAfter_end rfl rfl rfl; split; exact statusAfter_end rfl rfl rfl; exact statusAfter_on rfl rfl rfl rfl rfl rfl
          · exact take _ _ _ _
      · exact statusAfter_end rfl rfl rfl
    | dataBit => simp only [posStep, readDone, dataBitRead]; split <;> exact statusAfter_on rfl rfl rfl rfl rfl rfl
  | .read (n + 1) v k =>
    simp only [posStep, readBit]
    split
    · rcases inByte_cases s with ⟨b, r, hb, e⟩ | ⟨hb, ht, e⟩ | ⟨hb, ht, e⟩ | ⟨hb, ht, e⟩ <;> rw [e]
      · exact statusAfter_on rfl rfl rfl rfl rfl rfl
      · exact statusAfter_end rfl rfl rfl
      · exact statusAfter_end rfl rfl rfl
      · exact statusAfter_on rfl bz rfl rfl rfl rfl
    · exact statusAfter_on rfl rfl rfl rfl rfl rfl
  | .walk => 
    simp only [posStep, walkStep]; split; split <;> exact statusAfter_on rfl rfl rfl rfl rfl rfl
    exact statusAfter_on rfl rfl rfl rfl rfl rfl
  | .emit [] k => cases k <;> exact statusAfter_on rfl rfl rfl rfl rfl rfl
  | .emit (b :: r) k => 
    simp only [posStep]; rw [emitBit_frame]; exact statusAfter_on rfl rfl rfl rfl rfl rfl
  | .ret _ => exact statusAfter_end rfl rfl rfl

/-- Any number of block steps of a running command. -/
theorem run_status (n) {s : State} (b : s.busy = true) : StatusAfter s (run n s) := by
  induction n generalizing s with
  | zero => exact statusAfter_on rfl b rfl rfl rfl rfl
  | succ n ih =>
    rw [run_succ]
    cases hp : s.phase with
    | idle => rw [State.busy, hp] at b; cases b
    | busy p =>
      obtain ⟨e, ⟨i, d⟩ | ⟨b', h1, h2, h3, h4⟩⟩ := blockStep_status hp
      · rw [run_of_quiescent (quiescent_idle i)]; exact ⟨e, .inl ⟨i, d⟩⟩
      · obtain ⟨e', h⟩ := ih b'
        exact ⟨e'.trans e, h.imp id fun ⟨a, b, c, d, f⟩ => ⟨a, b.trans h1, c.trans h2, d.trans h3, f.trans h4⟩⟩

/-- A run never consumes the terminator (R63). -/
theorem run_term (n) (s : State) : (run n s).inCur.term = s.inCur.term := by
  cases hp : s.phase with
  | idle => rw [run_of_quiescent (quiescent_idle hp)]
  | busy p => exact (run_status n (busy_of_busy hp)).1

/-! ### More of the stream -/

/-- s with more of the running command's stream supplied (R314). -/
def State.extended (b : List Byte) (x : Option Terminator) (s : State) : State := { s with inCur := s.inCur.supply b x }

/-- While a byte is there, InByte() does not see what is supplied after it. -/
theorem inByte_extended {s : State} {b x} (ht : s.inCur.term = none) (hq : s.inCur.bytes ≠ []) : ∃ c r, inByte s = .byte c (s.setBytes r) ∧ inByte (State.extended b x s) = .byte c (State.extended b x (s.setBytes r)) := by
  cases hb : s.inCur.bytes with
  | nil => exact absurd hb hq
  | cons c r =>
    refine ⟨c, r, inByte_cons hb, ?_⟩
    have : (State.extended b x s).inCur.bytes = c :: (r ++ b) := by simp [State.extended, Stream.supply, ht, hb]
    rw [inByte_cons this]
    simp [State.extended, State.setBytes, Stream.supply, ht]

/-- A block that is not waiting makes the same step whether or not more is supplied after what is there. -/
theorem blockStep_extended {s : State} {b x} (ht : s.inCur.term = none) (hq : s.quiescent = false) : blockStep (State.extended b x s) = State.extended b x (blockStep s) ∧ (blockStep s).inCur.term = none := by
  cases hp : s.phase with
  | idle => simp [quiescent_idle hp] at hq
  | busy p =>
    rw [blockStep_busy hp, blockStep_busy (s := State.extended b x s) hp]
    have nb : p.fetches s.br.k = true → s.inCur.bytes ≠ [] := by
      intro hf hb
      have := (quiescent_busy hp).2 ⟨hf, hb, ht⟩
      rw [this] at hq; cases hq
    match p, nb with
    | .preprocess _, _ => exact ⟨rfl, ht⟩
    | .count fmt n, nb =>
      obtain ⟨c, r, e, e'⟩ := inByte_extended (b := b) (x := x) ht (nb rfl)
      simp only [posStep, countStep]; rw [e, e']
      simp only [countByte]
      show (if freqOf s.plan.freq c = _ then _ else _) = State.extended b x (if freqOf s.plan.freq c = _ then _ else _) ∧ (State.inCur (if freqOf s.plan.freq c = _ then _ else _)).term = none
      split <;> exact ⟨rfl, ht⟩
    | .compress f, _ =>
      simp only [posStep, startCompress]
      show (if s.plan.valid = false then _ else if skips f s.plan then _ else _) = State.extended b x (if s.plan.valid = false then _ else if skips f s.plan then _ else _) ∧ (State.inCur (if s.plan.valid = false then _ else if skips f s.plan then _ else _)).term = none
      split
      · exact ⟨rfl, ht⟩
      · split <;> exact ⟨rfl, ht⟩
    | .symbols, nb =>
      obtain ⟨c, r, e, e'⟩ := inByte_extended (b := b) (x := x) ht (nb rfl)
      simp only [posStep, symbolStep]; rw [e, e']
      simp only [symbolByte]
      show (if freqOf s.plan.freq c = _ then _ else _) = State.extended b x (if freqOf s.plan.freq c = _ then _ else _) ∧ (State.inCur (if freqOf s.plan.freq c = _ then _ else _)).term = none
      split <;> exact ⟨rfl, ht⟩
    | .decompress, _ => exact ⟨rfl, ht⟩
    | .read 0 v k, _ =>
      cases k with
      | magic =>
        simp only [posStep, readDone, magicRead]
        show (if BitVec.ofNat 32 v ≠ s.params.MAGIC_NUMBER then _ else _) = State.extended b x (if BitVec.ofNat 32 v ≠ s.params.MAGIC_NUMBER then _ else _) ∧ (State.inCur (if BitVec.ofNat 32 v ≠ s.params.MAGIC_NUMBER then _ else _)).term = none
        split <;> exact ⟨rfl, ht⟩
      | selector =>
        simp only [posStep, readDone, selectorRead]
        show (if BitVec.ofNat 32 v = s.params.SEL_COUNTS then _ else if BitVec.ofNat 32 v = s.params.SEL_TREE then _ else _) = State.extended b x (if BitVec.ofNat 32 v = s.params.SEL_COUNTS then _ else if BitVec.ofNat 32 v = s.params.SEL_TREE then _ else _) ∧ (State.inCur (if BitVec.ofNat 32 v = s.params.SEL_COUNTS then _ else if BitVec.ofNat 32 v = s.params.SEL_TREE then _ else _)).term = none
        split
        · exact ⟨rfl, ht⟩
        · split <;> exact ⟨rfl, ht⟩
      | count i F => simp only [posStep, readDone, countRead]; split <;> exact ⟨rfl, ht⟩
      | treeLen => simp only [posStep, readDone, treeLenRead, takeField]; split <;> exact ⟨rfl, ht⟩
      | token q =>
        simp only [posStep, readDone, tokenRead, takeField]
        split
        · split
          · exact ⟨rfl, ht⟩
          · split <;> exact ⟨rfl, ht⟩
        · split <;> exact ⟨rfl, ht⟩
      | leafValue q =>
        simp only [posStep, readDone, leafValueRead]
        split
        · split
          · exact ⟨rfl, ht⟩
          · split
            · simp only [parseDone]
              split
              · exact ⟨rfl, ht⟩
              · split <;> exact ⟨rfl, ht⟩
            · simp only [takeField]
              split <;> exact ⟨rfl, ht⟩
        · exact ⟨rfl, ht⟩
      | dataBit =>
        simp only [posStep, readDone, dataBitRead]
        have hd : (State.extended b x s).dec.node = s.dec.node := rfl
        cases hn : s.dec.node <;> rw [hn] at hd <;> rw [hd] <;> exact ⟨rfl, ht⟩
    | .read (n + 1) v k, nb =>
      simp only [posStep, readBit]
      show (if s.br.k = 0 then _ else _) = State.extended b x (if s.br.k = 0 then _ else _) ∧ (State.inCur (if s.br.k = 0 then _ else _)).term = none
      split
      · rename_i hk
        obtain ⟨c, r, e, e'⟩ := inByte_extended (b := b) (x := x) ht (nb (by simp [Pos.fetches, hk]))
        rw [e, e']; exact ⟨rfl, ht⟩
      · exact ⟨rfl, ht⟩
    | .walk, _ =>
      simp only [posStep, walkStep]
      have hd : (State.extended b x s).dec.node = s.dec.node := rfl
      cases hn : s.dec.node <;> rw [hn] at hd <;> rw [hd]
      · dsimp only; split <;> exact ⟨rfl, ht⟩
      · exact ⟨rfl, ht⟩
    | .emit [] k, _ => cases k <;> exact ⟨rfl, ht⟩
    | .emit (c :: r) k, _ =>
      simp only [posStep, emitBit]
      show State.goto (if s.bw.k + 1 = 8 then _ else _) _ = State.extended b x (State.goto (if s.bw.k + 1 = 8 then _ else _) _) ∧ (State.inCur (State.goto (if s.bw.k + 1 = 8 then _ else _) _)).term = none
      split <;> exact ⟨rfl, ht⟩
    | .ret _, _ => exact ⟨rfl, ht⟩

/-- A run is a beginning of the run with more supplied. -/
theorem run_extended (b x n) {s : State} (ht : s.inCur.term = none) : Reaches (State.extended b x s) (State.extended b x (run n s)) := by
  induction n generalizing s with
  | zero => exact .refl _
  | succ n ih =>
    cases hq : s.quiescent
    · obtain ⟨e, h⟩ := blockStep_extended (b := b) (x := x) ht hq
      rw [run_succ]; apply Reaches.of_step; rw [e]; exact ih h
    · rw [run_of_quiescent hq]; exact .refl _

end Sys2Proof.Machine
end

