-- ==== Sys2Proof/Laws/HostPort.lean ====
section
/-! SUPPORT. What one turn of WAIT does (R86, R321): the poll goes on while the block is BUSY, and the block gets closer to its
completion with every turn. -/

namespace Sys2Proof.Machine

@[simp] theorem nextPoll_none : nextPoll none = none := rfl
@[simp] theorem nextPoll_some (k : Nat) : nextPoll (some k) = some (max 1 k) := rfl
theorem nextPoll_ne_zero (p : Option Nat) : nextPoll p ≠ some 0 := by cases p <;> simp [nextPoll]

/-- The block's steps before the next event leave what is outside. -/
theorem progress_surroundings (s : State) : (progress s).rdata = s.rdata ∧ (progress s).events = s.events := by
  obtain ⟨n, h⟩ := progress_eq_run s
  rw [h]
  exact ⟨(run_surroundings n s).1, (run_surroundings n s).2.1⟩

/-- A block whose stream has its terminator is quiescent only when it is IDLE. -/
theorem idle_of_quiescent {s : State} (q : s.quiescent = true) (ht : s.inCur.term ≠ none) : s.phase = .idle := by
  cases hp : s.phase with
  | idle => rfl
  | busy p => exact absurd ((quiescent_busy hp).1 q).2.2 ht

/-- R321: the block's steps before the next event, when there is at least one of them, take a command whose stream has its terminator
to its completion or closer to it. -/
theorem progress_cost {s : State} (h : s.Inv) (ht : s.inCur.term ≠ none) (hp : s.pace ≠ some 0) (b : s.busy = true) :
    (progress s).busy = false ∨ (progress s).cost < s.cost := by
  have key : ∀ n, n ≠ 0 → (run n s).busy = false ∨ (run n s).cost < s.cost := by
    intro n hn
    rcases run_cost (n := n) h with q | c
    · left
      simp [State.busy, idle_of_quiescent q (by rwa [run_term])]
    · right
      omega
  cases hk : s.pace with
  | some k =>
    rw [show progress s = run k s by simp [progress, hk]]
    exact key k (by rintro rfl; exact hp hk)
  | none =>
    rw [show progress s = run (horizon s) s by simp [progress, hk]]
    refine key _ (fun hz => ?_)
    have := cost_le_horizon s
    cases hq : s.phase with
    | idle => simp [State.busy, hq] at b
    | busy p =>
      have := posCost_pos s p
      rw [cost_busy hq] at *
      omega

/-- WAIT while the block is BUSY: the poll reads STATUS and is requeued, and at least one block step is made before the next. -/
theorem waitTurn_busy {s : State} (h : s.busy = true) :
    waitTurn s = { s with
      rdata := s.status, events := { event := .wait, pace := s.pace } :: s.events, pace := nextPoll s.pace } := by
  simp [waitTurn, h]

/-- WAIT while the block is not BUSY: it has read STATUS and is done. -/
theorem waitTurn_done {s : State} (h : s.busy = false) : waitTurn s = { s with rdata := s.status } := by
  simp [waitTurn, h]

end Sys2Proof.Machine
end

