-- ==== Sys2Proof/Laws/Sizes.lean ====
section
/-! SUPPORT. Paths, symbols and sizes: codes as paths, the byte symbols that occur, and the bounds of the header, the data and the plan (R136, R152, R219). -/

namespace Sys2Proof.Machine

/-! ### Bytes as symbols -/

theorem ofByte_inj {a b : Byte} (h : Symbol.ofByte a = Symbol.ofByte b) : a = b := BitVec.eq_of_toNat_eq (by simpa [Symbol.ofByte] using congrArg Fin.val h)

theorem ofByte_ne (a : Byte) : Symbol.ofByte a ≠ pseudoEof := by
  intro e; have := congrArg Fin.val e; have := a.isLt; simp [Symbol.ofByte, pseudoEof] at *; omega

/-- The byte symbols of the tree (R132). -/
theorem ofByte_mem_occurring {F} {b : Byte} : Symbol.ofByte b ∈ occurring F ↔ freqOf F b ≠ 0 := by
  have : Symbol.ofByte b = b.toFin.castSucc := rfl
  rw [this, mem_occurring]; simp [freqOf]

/-- R136: K. -/
theorem occurring_length (F) : (occurring F).length = (F.toList.filter fun c => c ≠ 0).length := by
  have : ((symbolCounts F).map Prod.snd) = F.toList := by
    simp [symbolCounts]
    rw [List.map_snd_zip]; simp
  rw [← this, List.filter_map, List.length_map, occurring, List.length_map]; rfl

/-! ### Paths -/

/-- Every leaf has a path. -/
theorem exists_follow {t : Tree} {s} (h : s ∈ t.leaves) : ∃ p w, t.follow p = some (.leaf s w) := by
  induction t with
  | leaf x w => simp [Tree.leaves] at h; subst h; exact ⟨[], w, rfl⟩
  | node l r w hl hr =>
    rcases List.mem_append.1 h with h | h
    · obtain ⟨p, w, h⟩ := hl h; exact ⟨false :: p, w, h⟩
    · obtain ⟨p, w, h⟩ := hr h; exact ⟨true :: p, w, h⟩

/-- A symbol that stands once in a tree has one path. -/
theorem follow_unique {t : Tree} (nd : t.leaves.Nodup) {p q : Bits} {s w w'} (h : t.follow p = some (.leaf s w)) (g : t.follow q = some (.leaf s w')) : p = q := by
  induction t generalizing p q with
  | leaf x v =>
    cases p <;> cases q <;> simp [Tree.follow] at h g; rfl
  | node l r v hl hr =>
    simp only [Tree.leaves, List.nodup_append] at nd
    cases p with
    | nil => simp [Tree.follow] at h
    | cons b p => cases q with
      | nil => simp [Tree.follow] at g
      | cons c q =>
        cases b <;> cases c
        · rw [hl nd.1 h g]
        · exact absurd rfl (nd.2.2 s (mem_leaves_of_follow h) s (mem_leaves_of_follow g))
        · exact absurd rfl (nd.2.2 s (mem_leaves_of_follow g) s (mem_leaves_of_follow h))
        · rw [hr nd.2.1 h g]

theorem follow_length_le {t : Tree} {p u} (h : t.follow p = some u) : p.length ≤ t.depth := by
  induction p generalizing t with
  | nil => simp
  | cons b p ih => cases t with
    | leaf => simp [Tree.follow] at h
    | node l r w => cases b <;> simp [Tree.depth] <;> have := ih h <;> omega

theorem depth_le_internals (t : Tree) : t.depth ≤ t.internals := by
  induction t with
  | leaf => simp [Tree.depth]
  | node l r w hl hr => simp [Tree.depth, Tree.internals]; omega

/-- R154: the present codes are those of the leaves. -/
theorem genCodes_isSome {t : Tree} (nd : t.leaves.Nodup) (s : Symbol) : ((genCodes t)[s]).isSome = true ↔ s ∈ t.leaves := by
  constructor
  · intro h; by_contra hn; rw [genCodes_of_notMem hn] at h; simp at h
  · intro h; obtain ⟨q, w, e, _⟩ := genCodes_of_mem nd h; rw [e]; rfl

/-- P holds of the symbol and weight of every leaf. -/
def AllLeaves (P : Symbol → DWord → Prop) : Tree → Prop
  | .leaf s w => P s w
  | .node l r _ => AllLeaves P l ∧ AllLeaves P r

theorem allLeaves_follow {P} {t : Tree} (h : AllLeaves P t) {p s w} (hf : t.follow p = some (.leaf s w)) : P s w := by
  induction p generalizing t with
  | nil => simp [Tree.follow] at hf; subst hf; exact h
  | cons b p ih =>
    cases t with
    | leaf => simp [Tree.follow] at hf
    | node l r w' => cases b; exact ih h.1 hf; exact ih h.2 hf

/-! ### Bit strings -/

theorem bitsOf_take (l : List Byte) (n) : bitsOf (l.take n) = (bitsOf l).take (8 * n) := by
  induction l generalizing n with
  | nil => simp
  | cons a l ih => cases n with
    | zero => simp
    | succ n => 
      rw [List.take_succ_cons, bitsOf_cons, bitsOf_cons, ih, List.take_append, bin_length,
        List.take_of_length_le (l := bin 8 a.toNat) (by rw [bin_length]; omega), show 8 * (n+1) - 8 = 8 * n by omega]

/-- Word i of a sequence of 32-bit fields (R170). -/
theorem flat_take (l : List Word) (i : Nat) (h : i < l.length) (rest : Bits) : ((l.flatMap (fun c => bin 32 c.toNat) ++ rest).drop (32 * i)).take 32 = bin 32 (l[i]).toNat := by
  induction l generalizing i with
  | nil => simp at h
  | cons a l ih =>
    cases i with
    | zero => simp [List.flatMap_cons]
    | succ i =>
      rw [List.flatMap_cons, List.append_assoc, List.drop_append]
      have : List.drop (32 * (i+1)) (bin 32 a.toNat) = [] := by simp
      rw [this, List.nil_append, bin_length, show 32 * (i+1) - 32 = 32 * i by omega]
      exact ih i (by simpa using h)

theorem val_take {n : Nat} {x : Bits} (h : n ≤ x.length) : x.take n = bin n (val (x.take n)) := by
  have := bin_val (x.take n); rw [List.length_take, Nat.min_eq_left h] at this; exact this.symm

theorem val_take_lt (n : Nat) (x : Bits) : val (x.take n) < 2 ^ n := by
  refine lt_of_lt_of_le (val_lt _) (Nat.pow_le_pow_right (by decide) ?_); rw [List.length_take]; omega

/-! ### Sizes -/

/-- R219: the sum of the counts. -/
theorem total_le (F : FreqTable) : total F ≤ 256 * (2^32-1) := by
  have : ∀ l : List Word, (l.map BitVec.toNat).sum ≤ l.length * (2^32-1) := by
    intro l
    induction l with
    | nil => simp
    | cons a l ih => have := a.isLt; simp at ih ⊢; omega
  have := this F.toList
  simpa [total] using this

/-- R152: no code is longer than 256 bits. -/
theorem codeBits_length_le (F) (s : Symbol) : (codeBits (genCodes (build F)) s).length ≤ 256 := by
  by_cases h : s ∈ (build F).leaves
  · obtain ⟨q, w, e, e2, f⟩ := genCodes_of_mem (build_leaves_nodup F) h
    have : ∀ {t : Tree} {p u}, t.follow p = some u → p.length ≤ t.internals := by
      intro t p u h
      induction p generalizing t with
      | nil => simp
      | cons b p ih => cases t with
        | leaf => simp [Tree.follow] at h
        | node l r w => cases b <;> simp [Tree.internals] <;> have := ih h <;> omega
    have h1 := this f
    have h2 := internals_le_of_nodup (build_leaves_nodup F)
    rw [e2]; omega
  · rw [codeBits, genCodes_of_notMem h]; simp

/-- R219: the data bits. -/
theorem dataBits_le (F : FreqTable) : dataBits F (genCodes (build F)) ≤ 256 * total F := by
  rw [dataBits_eq]
  have h2 : total F = ((List.finRange 256).map fun s : Fin 256 => F[s].toNat).sum := by
    unfold total; congr 1
    apply List.ext_getElem
    · simp
    · intro i h1 h2; simp
  rw [h2]
  have : ∀ L : List (Fin 256), (L.map fun s => F[s].toNat * (codeBits (genCodes (build F)) s.castSucc).length).sum ≤ 256 * (L.map fun s : Fin 256 => F[s].toNat).sum := by
    intro L
    induction L with
    | nil => simp
    | cons a L ih =>
      simp only [List.map_cons, List.sum_cons]
      have := Nat.mul_le_mul_left (F[a].toNat) (codeBits_length_le F a.castSucc)
      omega
  exact this _

/-- R92, R172: the header's length. -/
theorem headerOf_length (fmt F) : (headerOf fmt F (build F)).length ≤ 8192 ∧ (fmt = .counts → (headerOf fmt F (build F)).length = 8192) ∧ (fmt = .tree → 42 ≤ (headerOf fmt F (build F)).length) := by
  have h1 := ser_length (build F)
  have h2 := leaves_length (build F)
  have h3 := leaves_length_le_of_nodup (build_leaves_nodup F)
  cases fmt with
  | counts => simp [headerOf]
  | tree => simp [headerOf, headerTree]; omega

/-- R212, R213: the projected size. -/
theorem projected_bounds (fmt F) : projected F (genCodes (build F)) (headerOf fmt F (build F)) ≤ 64 + 8192 + 256 * total F + 256 + 7 ∧ projected F (genCodes (build F)) (headerOf fmt F (build F)) % 8 = 0
   ∧ 64 + (headerOf fmt F (build F)).length ≤ projected F (genCodes (build F)) (headerOf fmt F (build F)) := by
  have h1 := dataBits_le F
  have h2 := (headerOf_length fmt F).1
  have h3 := codeBits_length_le F pseudoEof
  unfold projected roundUp8
  refine ⟨by omega, by omega, by omega⟩

/-- A difference of small numbers is exact as a signed 64-bit value (R211, R219). -/
theorem toInt_sub (a b : Nat) (ha : a < 2^62) (hb : b < 2^62) : (BitVec.ofNat 64 a - BitVec.ofNat 64 b).toInt = (a : Int) - b := by
  rw [BitVec.toInt_sub, BitVec.toInt_ofNat', BitVec.toInt_ofNat']
  simp [Int.bmod_def]; omega

end Sys2Proof.Machine
end

