-- ==== Sys2Proof/Laws/Streams.lean ====
section
/-! SUPPORT. The two stream commands from acceptance to the end of what they have in common: COMPRESS up to the symbols it has coded (R220), DECOMPRESS
through magic number, selector and header (R240). -/

namespace Sys2Proof.Machine

theorem posOk_preprocess (f) : ∀ u, PosOk u (.preprocess f) := fun _ => trivial

theorem posOk_compress (f) : ∀ u, PosOk u (.compress f) := fun _ => trivial

theorem posOk_decompress : ∀ u, PosOk u .decompress := fun _ => trivial

/-! ### COMPRESS -/

/-- What writing makes of OUT and BW, in one piece (R67). -/
theorem Wrote.shape {s : State} {bits : Bits} {o w} (h : Wrote s bits o w) : ∃ d, o = s.out ++ d ∧ s.bw.acc ++ bits = bitsOf d ++ w.acc ∧ w.k < 8 ∧
    w.nout = s.bw.nout + BitVec.ofNat 64 (8 * d.length) := by
  obtain ⟨d, hd, hn⟩ := h.grew
  refine ⟨d, hd, ?_, h.acc, hn⟩
  have := h.bits
  rw [hd, bitsOf_append, State.written, List.append_assoc, List.append_assoc] at this
  exact (List.append_cancel_left this).symm

/-- R221: when COMPRESS is not skipped. -/
theorem skips_false {p : Plan} {f : Bool} (h : p.projBits ≤ p.origBits ∨ f = true) : skips f p = false := by
  rcases h with h | h
  · have : ¬ p.projBits > p.origBits := BitVec.not_lt.2 h
    simp [skips, this]
  · simp [skips, h]

/-- R220: magic number, selector and header are written. -/
theorem head_reaches {s : State} {f} (hv : s.plan.valid = true) (hs : skips f s.plan = false) :
   let u := takeStream (accept (.compress f) s)
   ∃ o w, Reaches u ((u.wrote o w).goto .symbols) ∧ Wrote u (streamHead s.params s.plan) o w := by
  intro u
  have e1 : blockStep u = u.goto (.emit (streamHead s.params s.plan) .toSymbols) := by
    rw [blockStep_busy (p := .compress f) rfl]
    simp only [posStep, startCompress]
    rw [if_neg (by show ¬ s.plan.valid = false; simp [hv]), if_neg (by show ¬ skips f s.plan = true; simp [hs])]; rfl
  obtain ⟨o, w, hr, hw⟩ := emit_reaches (s := u.goto (.emit (streamHead s.params s.plan) .toSymbols)) (by show 0 < 8; decide) rfl
  refine ⟨o, w, ?_, ⟨hw.bits, hw.acc, hw.grew⟩⟩
  apply Reaches.of_step; rw [e1]; refine hr.trans (Reaches.of_step ?_); exact .refl _

/-- R220: and the codes of the bytes read. -/
theorem compress_symbols_reaches {s : State} {f bs r x} (h : Ready s ⟨bs ++ r, x⟩) (hv : s.plan.valid = true) (hc : Coded s.plan bs) (hf : s.plan.projBits ≤ s.plan.origBits ∨ f = true) :
   let u := takeStream (accept (.compress f) s)
   ∃ o w, Reaches u (((u.setBytes r).wrote o w).goto .symbols) ∧ Wrote u (streamHead s.params s.plan ++ dataOf s.plan bs) o w := by
  intro u
  have hub : u.inCur = ⟨bs ++ r, x⟩ := h.stream
  obtain ⟨o, w, r1, h1⟩ := head_reaches (f := f) hv (skips_false hf)
  obtain ⟨o2, w2, r2, h2⟩ := symbols_reaches (s := (u.wrote o w).goto .symbols) (bs := bs) (r := r) h1.acc rfl (by show u.inCur.bytes = _; rw [hub]) hc
  refine ⟨o2, w2, r1.trans r2, h1.trans ⟨h2.bits, h2.acc, h2.grew⟩⟩

/-! ### DECOMPRESS -/

/-- R66, R240: the first read. -/
theorem decompress_start (s : State) : let u := takeStream (accept .decompress s)
   Reaches u (u.goto (.read 32 0 .magic)) ∧ u.br.k = 0 ∧ u.unread = bitsOf s.inNext.bytes := by
  intro u
  refine ⟨?_, rfl, ?_⟩
  · apply Reaches.of_step; rw [blockStep_busy (p := .decompress) rfl]; exact .refl _
  · simp [State.unread, u, bin]

/-- R241: a magic number that matches. -/
theorem magic_reaches {s : State} {x : Bits} (hb : s.br.k < 8) (hu : s.unread = bin 32 s.params.MAGIC_NUMBER.toNat ++ x) :
   ∃ br r, Reaches (s.goto (.read 32 0 .magic)) ((s.moved br r).goto (.read 32 0 .selector)) ∧ (s.moved br r).unread = x ∧ br.k < 8 := by
  obtain ⟨br, r, h1, u1, b1⟩ := read_field (s := s.goto (.read 32 0 .magic)) s.params.MAGIC_NUMBER.isLt hb rfl hu
  refine ⟨br, r, ?_, u1, b1⟩
  have e : ∀ u : State, u.params = s.params → readDone .magic s.params.MAGIC_NUMBER.toNat u = u.goto (.read 32 0 .selector) := by
    intro u hu
    show magicRead _ u = _
    rw [magicRead, hu, if_neg (by simp)]
  rw [e] at h1
  on_goal 2 => rfl
  exact h1

/-- R242: the selector is read. -/
theorem selector_val {s : State} {x : Bits} (v : Word) (hb : s.br.k < 8) (hu : s.unread = bin 32 v.toNat ++ x) :
   ∃ br r, Reaches (s.goto (.read 32 0 .selector)) (selectorRead v.toNat ((s.moved br r).goto (.read 0 v.toNat .selector))) ∧ (s.moved br r).unread = x ∧ br.k < 8 := by
  obtain ⟨br, r, h1, u1, b1⟩ := read_field (s := s.goto (.read 32 0 .selector)) v.isLt hb rfl hu
  exact ⟨br, r, h1, u1, b1⟩

/-- R242, R180: a header that describes a tree. -/
theorem header_reaches {s : State} {h : Bits} {tree : Tree} {x : Bits} (hd : s.params.Distinct) (hb : s.br.k < 8) (hh : Describes s.params h tree) (hu : s.unread = h ++ x) :
   ∃ br r, Reaches (s.goto (.read 32 0 .selector)) (startWalk tree (s.moved br r)) ∧ (s.moved br r).unread = x ∧ br.k < 8 := by
  rcases hh with ⟨t, nd, he, rfl, rfl⟩ | ⟨F, rfl, rfl⟩
  · rw [List.append_assoc] at hu
    obtain ⟨br, r, h1, u1, b1⟩ := selector_val s.params.SEL_TREE hb hu
    have e : selectorRead s.params.SEL_TREE.toNat ((s.moved br r).goto (.read 0 s.params.SEL_TREE.toNat .selector)) = (s.moved br r).goto (.read 32 0 .treeLen) := by
      unfold selectorRead
      have : (BitVec.ofNat 32 s.params.SEL_TREE.toNat) = s.params.SEL_TREE := by simp
      rw [this]
      show (if s.params.SEL_TREE = s.params.SEL_COUNTS then _ else if s.params.SEL_TREE = s.params.SEL_TREE then _ else _) = _
      rw [if_neg (fun h => hd h.symm), if_pos rfl]; rfl
    rw [e] at h1
    obtain ⟨br2, r2, h2, u2, b2⟩ := headerTree_reaches (s := (s.moved br r).goto (.read 32 0 .treeLen)) b1 rfl u1 nd he
    exact ⟨br2, r2, h1.trans h2, u2, b2⟩
  · rw [List.append_assoc] at hu
    obtain ⟨br, r, h1, u1, b1⟩ := selector_val s.params.SEL_COUNTS hb hu
    have e : selectorRead s.params.SEL_COUNTS.toNat ((s.moved br r).goto (.read 0 s.params.SEL_COUNTS.toNat .selector)) = (s.moved br r).goto (.read 32 0 (.count 0 (Vector.replicate 256 0))) := by
      unfold selectorRead
      have : (BitVec.ofNat 32 s.params.SEL_COUNTS.toNat) = s.params.SEL_COUNTS := by simp
      rw [this]
      show (if s.params.SEL_COUNTS = s.params.SEL_COUNTS then _ else _) = _
      rw [if_pos rfl]; rfl
    rw [e] at h1
    obtain ⟨br2, r2, h2, u2, b2⟩ := headerCounts_reaches (s := (s.moved br r).goto (.read 32 0 (.count 0 (Vector.replicate 256 0)))) b1 rfl u1
    exact ⟨br2, r2, h1.trans h2, u2, b2⟩

/-- R240, R246, R247: from acceptance through the header and the symbols bs. -/
theorem decompress_symbols_reaches {s : State} {bytes bs term h tree code x} (hr : Ready s ⟨bytes, term⟩) (hd : Describes s.params h tree)
    (hc : ∀ b ∈ bs, ∃ w, tree.follow (code b) = some (.leaf (Symbol.ofByte b) w))
    (hu : bitsOf bytes = bin 32 s.params.MAGIC_NUMBER.toNat ++ h ++ bs.flatMap code ++ x) :
    let u := takeStream (accept .decompress s)
    ∃ br r, Reaches u ({ (((u.moved br r).wrote (s.out ++ bs) { acc := [], nout := BitVec.ofNat 64 (8 * bs.length) }).goto .walk) with
        dec := { tree := tree, node := tree, nsym := BitVec.ofNat 64 bs.length } }) ∧ (u.moved br r).unread = x ∧ br.k < 8 := by
  intro u
  obtain ⟨r0, k0, u0⟩ := decompress_start s
  have hbs : s.inNext.bytes = bytes := by rw [hr.stream]
  rw [hbs, hu, List.append_assoc, List.append_assoc] at u0
  obtain ⟨br1, q1, r1, u1, b1⟩ := magic_reaches (s := u) (by rw [show u.br.k = 0 from k0]; decide) u0
  obtain ⟨br2, q2, r2, u2, b2⟩ := header_reaches (s := u.moved br1 q1) hr.inv.params b1 hd u1
  obtain ⟨br3, q3, r3, u3, b3⟩ := walk_symbols (bs := bs) (code := code) (s := startWalk tree ((u.moved br1 q1).moved br2 q2)) b2 rfl rfl rfl hc u2
  refine ⟨br3, q3, r0.trans (r1.trans (r2.trans ?_)), u3, b3⟩
  have z : (0 : DWord) + BitVec.ofNat 64 (8 * bs.length) = BitVec.ofNat 64 (8 * bs.length) := BitVec.zero_add _
  have z2 : (0 : DWord) + BitVec.ofNat 64 bs.length = BitVec.ofNat 64 bs.length := BitVec.zero_add _
  have r3' := r3
  rw [show (startWalk tree ((u.moved br1 q1).moved br2 q2)).bw.nout = 0 from rfl, show (startWalk tree ((u.moved br1 q1).moved br2 q2)).dec = ⟨tree, tree, 0⟩ from rfl, z, z2] at r3'
  exact r3'

end Sys2Proof.Machine
end

