-- ==== Sys2Proof/Laws/Parse.lean ====
section
/-! SUPPORT. The explicit-tree header decoder accepts valid headers only, and reads no further than the declared length (R176 to R178). -/

namespace Sys2Proof.Machine

/-- The bits of the serialization that PARSE has taken for the open nodes. -/
def serOpen : List Frame → Bits
  | [] => []
  | .left :: st => serOpen st ++ [false]
  | .right l :: st => serOpen st ++ false :: ser l

/-- plug keeps what was parsed, in order. -/
theorem plug_ser (t : Tree) (st : List Frame) :
    (∀ root, plug t st = .inl root → ser root = serOpen st ++ ser t ∧ root.leaves.Perm (t.leaves ++ openLeaves st)) ∧
    (∀ st', plug t st = .inr st' → serOpen st' = serOpen st ++ ser t ∧ (openLeaves st').Perm (t.leaves ++ openLeaves st)) := by
  induction st generalizing t with
  | nil => constructor
           · intro root h; simp [plug] at h; subst h; simp [serOpen, openLeaves]
           · intro st' h; simp [plug] at h
  | cons f st ih =>
    cases f with
    | left => constructor
              · intro root h; simp [plug] at h
              · intro st' h; simp [plug] at h; subst h; simp [serOpen, openLeaves]
    | right l =>
      constructor
      · intro root h
        obtain ⟨h1, h2⟩ := (ih (.node l t 0)).1 root h
        refine ⟨by rw [h1]; simp [serOpen, ser], h2.trans ?_⟩
        simp only [Tree.leaves, openLeaves, ← List.append_assoc]
        exact List.Perm.append_right _ List.perm_append_comm
      · intro root h
        obtain ⟨h1, h2⟩ := (ih (.node l t 0)).2 root h
        refine ⟨by rw [h1]; simp [serOpen, ser], h2.trans ?_⟩
        simp only [Tree.leaves, openLeaves, ← List.append_assoc]
        exact List.Perm.append_right _ List.perm_append_comm

/-- t has written nothing more than s. -/
def SameWritten (s t : State) : Prop := t.out = s.out ∧ t.bw = s.bw

/-- What PARSE has read so far is p.T and the serialization of the open nodes, and TAKE(1) has tested its bound (R176). -/
structure ParseAt (r : Bits) (s : State) (p : ParseState) : Prop where
  consumed : r = bin 32 p.T ++ serOpen p.stack ++ s.unread
  T : p.T < 2 ^ 32
  c : p.c = (serOpen p.stack).length
  room : p.c + 1 ≤ p.T
  nd : (openLeaves p.stack).Nodup
  seen : ∀ x, x ∈ p.seen ↔ x ∈ openLeaves p.stack

/-- The header of the bits r is found corrupt: nothing is written, and of the serialization at most T bits are read (R178). -/
def FoundCorrupt (r : Bits) (s : State) : Prop :=
  ∃ t, Reaches s (raise .headerCorruption t) ∧ SameWritten s t ∧ t.br.k < 8 ∧
    ∃ (T : Nat) (c : Bits), T < 2 ^ 32 ∧ c.length ≤ T ∧ r = bin 32 T ++ c ++ t.unread

/-- The bits r end inside the declared length: a read of the header decoder has fewer bits than it needs (R176). -/
def CutShort (r : Bits) (s : State) : Prop :=
  ∃ n k t, Reaches s t ∧ SameWritten s t ∧ t.phase = .busy (.read n 0 k) ∧ eosError k = .headerCorruption ∧ t.br.k < 8 ∧
    t.unread.length < n ∧ t.inCur.term = s.inCur.term ∧ ∃ (T : Nat) (c : Bits), T < 2 ^ 32 ∧ r = bin 32 T ++ c ∧ c.length < T

theorem FoundCorrupt.of_reaches {r : Bits} {s t : State} (h : Reaches s t) (w : SameWritten s t) (f : FoundCorrupt r t) :
    FoundCorrupt r s := by
  obtain ⟨u, hu, hw, hk, hr⟩ := f
  exact ⟨u, h.trans hu, ⟨hw.1.trans w.1, hw.2.trans w.2⟩, hk, hr⟩

theorem CutShort.of_reaches {r : Bits} {s t : State} (h : Reaches s t) (w : SameWritten s t)
    (e : t.inCur.term = s.inCur.term) (f : CutShort r t) : CutShort r s := by
  obtain ⟨n, k, u, hu, hw, hp, he, hk, hl, ht, hr⟩ := f
  exact ⟨n, k, u, h.trans hu, ⟨hw.1.trans w.1, hw.2.trans w.2⟩, hp, he, hk, hl, ht.trans e, hr⟩

/-- R177, R178: PARSE, whatever the terminator: what it reads is found corrupt within T bits, or it is a valid header, or it ends
inside the declared length. -/
theorem parse_total (r : Bits) : ∀ (n : Nat) (s : State) (p : ParseState), s.unread.length ≤ n → s.br.k < 8 →
    s.phase = .busy (.read 1 0 (.token p)) → ParseAt r s p → FoundCorrupt r s ∨ ValidTreeHeader r ∨ CutShort r s := by
  have short : ∀ (s : State) (p : ParseState), s.unread = [] → s.br.k < 8 → s.phase = .busy (.read 1 0 (.token p)) →
      ParseAt r s p → CutShort r s := fun s p hu hb hp pi =>
    ⟨1, _, s, .refl s, ⟨rfl, rfl⟩, hp, rfl, hb, by rw [hu]; decide, rfl, p.T, serOpen p.stack, pi.T,
      by rw [pi.consumed, hu, List.append_nil], by have := pi.c; have := pi.room; omega⟩
  intro n
  induction n with
  | zero =>
    intro s p hn hb hp pi
    exact .inr (.inr (short s p (List.length_eq_zero_iff.1 (by omega)) hb hp pi))
  | succ n ih =>
    intro s p hn hb hp pi
    have hc := pi.c
    have hroom := pi.room
    match hu : s.unread with
    | [] => exact .inr (.inr (short s p hu hb hp pi))
    | b :: rest =>
      obtain ⟨br, q, h1, u1, b1⟩ := read_field (n := 1) (v := b.toNat) (by cases b <;> decide) hb hp (rest := rest)
        (by rw [hu]; cases b <;> rfl)
      let s1 : State := (s.moved br q).goto (.read 0 b.toNat (.token p))
      have hlen : rest.length ≤ n := by rw [hu] at hn; simpa using hn
      have hcons1 : r = bin 32 p.T ++ (serOpen p.stack ++ [b]) ++ (s.moved br q).unread := by
        rw [pi.consumed, hu, u1]
        simp
      have corrupt : Reaches s (raise .headerCorruption s1) → FoundCorrupt r s := fun h =>
        ⟨s1, h, ⟨rfl, rfl⟩, b1, p.T, _, pi.T, by simp; omega, hcons1⟩
      cases b with
      | false =>
        let p' : ParseState := { p with c := p.c + 1, ni := p.ni + 1, stack := .left :: p.stack }
        have e : readDone (.token p) 0 s1 = if p.ni + 1 > 256 then raise .headerCorruption s1 else takeField 1 .token p' s1 := by
          show tokenRead p 0 s1 = _
          simp [tokenRead, p']
        have h1' : Reaches s (readDone (.token p) 0 s1) := h1
        rw [e] at h1'
        split at h1'
        · exact .inl (corrupt h1')
        unfold takeField at h1'
        split at h1'
        · exact .inl (corrupt h1')
        · rename_i hT
          have next : ParseAt r (s1.goto (.read 1 0 (.token p'))) p' :=
            { consumed := hcons1, T := pi.T, c := by show p.c + 1 = _; rw [hc]; simp [p', serOpen]
              room := by simp only [p'] at hT ⊢; omega
              nd := pi.nd, seen := pi.seen }
          have := ih (s1.goto (.read 1 0 (.token p'))) p' (by show (s.moved br q).unread.length ≤ n; rw [u1]; exact hlen) b1 rfl next
          exact this.imp (.of_reaches h1' ⟨rfl, rfl⟩) (.imp id (.of_reaches h1' ⟨rfl, rfl⟩ rfl))
      | true =>
        have e : readDone (.token p) 1 s1 = takeField 9 .leafValue { p with c := p.c + 1 } s1 := by
          show tokenRead p 1 s1 = _
          simp [tokenRead]
        have h1' : Reaches s (readDone (.token p) 1 s1) := h1
        rw [e] at h1'
        unfold takeField at h1'
        split at h1'
        · exact .inl (corrupt h1')
        rename_i hT
        have hT' : p.c + 10 ≤ p.T := by dsimp only at hT; omega
        let s2 : State := s1.goto (.read 9 0 (.leafValue { p with c := p.c + 1 }))
        by_cases h9 : rest.length < 9
        · refine .inr (.inr ⟨9, _, s2, h1', ⟨rfl, rfl⟩, rfl, rfl, b1, ?_, rfl, p.T, serOpen p.stack ++ true :: rest, pi.T, ?_, ?_⟩)
          · show (s.moved br q).unread.length < 9
            rw [u1]
            exact h9
          · rw [pi.consumed, hu, List.append_assoc]
          · simp
            omega
        obtain ⟨br2, q2, h2, u2, b2⟩ := read_field (s := s2) (n := 9) (k := .leafValue { p with c := p.c + 1 })
          (rest := rest.drop 9) (val_take_lt 9 rest) b1 rfl
          (by show (s.moved br q).unread = _; rw [u1, ← val_take (by omega), List.take_append_drop])
        let v := val (rest.take 9)
        let s3 : State := (s2.moved br2 q2).goto (.read 0 v (.leafValue { p with c := p.c + 1 }))
        have hbin : rest.take 9 = bin 9 v := val_take (by omega)
        have h2' : Reaches s (leafValueRead { p with c := p.c + 1 } v s3) := h1'.trans h2
        have corrupt9 : ∀ t, Reaches s (raise .headerCorruption t) → SameWritten s t → t.br = br2 → t.inCur.bytes = q2 → FoundCorrupt r s := by
          intro t h w eb eq
          refine ⟨t, h, w, by rw [eb]; exact b2, p.T, serOpen p.stack ++ true :: rest.take 9, pi.T, ?_, ?_⟩
          · rw [List.length_append, List.length_cons, List.length_take]
            omega
          · have : t.unread = rest.drop 9 := by rw [← u2, State.unread, eb, eq]; rfl
            rw [this, pi.consumed, hu]
            simp only [List.append_assoc, List.cons_append, List.take_append_drop]
        unfold leafValueRead at h2'
        dsimp only at h2'
        split at h2'
        · rename_i hv
          split at h2'
          · exact .inl (corrupt9 _ h2' ⟨rfl, rfl⟩ rfl rfl)
          rename_i hns
          have hcons : r = bin 32 p.T ++ (serOpen p.stack ++ ser (.leaf ⟨v, hv⟩ 0)) ++ rest.drop 9 := by
            rw [pi.consumed, hu]
            simp only [ser, List.append_assoc, List.cons_append]
            rw [← hbin, List.take_append_drop]
          have hns' : (⟨v, hv⟩ : Symbol) ∉ openLeaves p.stack := fun h => hns ((pi.seen _).2 h)
          have hnd : ((Tree.leaf ⟨v, hv⟩ 0).leaves ++ openLeaves p.stack).Nodup := by
            simp [Tree.leaves, List.nodup_cons, hns', pi.nd]
          have pl := plug_ser (.leaf ⟨v, hv⟩ 0) p.stack
          split at h2'
          · rename_i root hroot
            obtain ⟨e1, e2⟩ := pl.1 root hroot
            unfold parseDone at h2'
            dsimp only at h2'
            split at h2'
            · exact .inl (corrupt9 _ h2' ⟨rfl, rfl⟩ rfl rfl)
            rename_i hcT
            split at h2'
            · exact .inl (corrupt9 _ h2' ⟨rfl, rfl⟩ rfl rfl)
            rename_i hEof
            refine .inr (.inl ⟨root, rest.drop 9, e2.nodup_iff.2 hnd, ?_, ?_⟩)
            · simp only [not_not, List.mem_cons] at hEof
              apply e2.mem_iff.2
              simp only [Tree.leaves, List.cons_append, List.nil_append, List.mem_cons]
              exact hEof.imp id (pi.seen _).1
            · have hlenT : p.T = (serOpen p.stack ++ ser (.leaf ⟨v, hv⟩ 0)).length := by
                simp only [ne_eq, not_not] at hcT
                rw [← hcT, hc]
                simp [ser]
              rw [hcons, headerTree, e1, hlenT]
          · rename_i st' hst
            obtain ⟨e1, e2⟩ := pl.2 st' hst
            unfold takeField at h2'
            split at h2'
            · exact .inl (corrupt9 _ h2' ⟨rfl, rfl⟩ rfl rfl)
            rename_i hT2
            let p' : ParseState := { p with c := p.c + 1 + 9, seen := ⟨v, hv⟩ :: p.seen, stack := st' }
            have next : ParseAt r (s3.goto (.read 1 0 (.token p'))) p' :=
              { consumed := by show r = bin 32 p.T ++ serOpen st' ++ (s2.moved br2 q2).unread; rw [hcons, e1, u2]
                T := pi.T
                c := by show p.c + 1 + 9 = _; rw [hc, e1]; simp [ser]
                room := by simp only [p']; dsimp only at hT2; omega
                nd := e2.nodup_iff.2 hnd
                seen := by
                  intro x
                  show x ∈ (⟨v, hv⟩ : Symbol) :: p.seen ↔ _
                  rw [e2.mem_iff]
                  simp [Tree.leaves, pi.seen] }
            have := ih (s3.goto (.read 1 0 (.token p'))) p'
              (by show (s2.moved br2 q2).unread.length ≤ n; rw [u2, List.length_drop]; omega) b2 rfl next
            exact this.imp (.of_reaches h2' ⟨rfl, rfl⟩) (.imp id (.of_reaches h2' ⟨rfl, rfl⟩ rfl))
        · exact .inl (corrupt9 _ h2' ⟨rfl, rfl⟩ rfl rfl)

/-- Past the header: no position from here raises HEADER_CORRUPTION (R177, R178). -/
def PastHeader (s : State) : Prop := s.errcode ≠ 3 ∧ match s.phase with
  | .idle => True | .busy .walk => True | .busy (.read _ _ .dataBit) => True | .busy (.emit _ .toWalk) => True | .busy (.ret _) => True | _ => False

theorem PastHeader.step (s : State) (h : PastHeader s) : PastHeader (blockStep s) := by
  cases hp : s.phase with
  | idle => rw [blockStep_idle hp]; exact h
  | busy p =>
    rw [blockStep_busy hp]
    obtain ⟨h1, h2⟩ := h
    rw [hp] at h2
    match p, h2 with
    | .walk, _ =>
      simp only [posStep, walkStep]; split
      · split <;> exact ⟨h1, trivial⟩
      · exact ⟨h1, trivial⟩
    | .read 0 v .dataBit, _ =>
      simp only [posStep, readDone, dataBitRead]; split <;> exact ⟨h1, trivial⟩
    | .read (n+1) v .dataBit, _ =>
      simp only [posStep, readBit]
      split
      · rcases inByte_cases s with ⟨b, r, hb, e⟩ | ⟨hb, ht, e⟩ | ⟨hb, ht, e⟩ | ⟨hb, ht, e⟩ <;> rw [e]
        · exact ⟨h1, trivial⟩
        · exact ⟨by show (4 : BitVec 4) ≠ 3; decide, trivial⟩
        · exact ⟨by show (1 : BitVec 4) ≠ 3; decide, trivial⟩
        · exact ⟨h1, by rw [hp]; trivial⟩
      · exact ⟨h1, trivial⟩
    | .emit [] .toWalk, _ => exact ⟨h1, trivial⟩
    | .emit (b :: r) .toWalk, _ => simp only [posStep]; rw [emitBit_frame]; exact ⟨h1, trivial⟩
    | .ret v, _ => exact ⟨by show (0 : BitVec 4) ≠ 3; decide, trivial⟩

end Sys2Proof.Machine
end

