-- ==== Sys2Proof/Laws/PerInstr.lean ====
section
/-! SUPPORT. The families of statements made for each instruction: one lemma per constructor of Instr. -/

namespace Sys2Proof.Laws.RoundTrip

/-- Decoding the word the encoder gives a well-formed instruction gives the instruction back (R80 to R82). -/
def Statement (i : Instr) : Prop := i.WellFormed → decode (encode i) = .ok i

theorem preprocess (fmt : HeaderFormat) : Statement (.preprocess fmt) := by
  intro _
  cases fmt <;> decide

theorem compress (force : Bool) : Statement (.compress force) := by
  intro _
  cases force <;> decide

theorem decompress (a : Bool) : Statement (.decompress a) := by
  intro h
  cases a
  · decide
  · exact absurd h (by decide)

end Sys2Proof.Laws.RoundTrip
end

