-- ==== Sys2Proof/Laws/Simulation.lean ====
section
/-! SUPPORT. Two states that agree on what a running command can look at go on agreeing (R29, R66, R225). -/

namespace Sys2Proof.Machine

/-- What of the plan the command at a position can look at; q when the plan it makes is to be compared. -/
def PlanSim (q : Bool) (a b : Plan) : Pos → Prop
  | .preprocess _ => True
  | .count _ _ => a.valid = false ∧ b.valid = false ∧ a.freq = b.freq
  | .compress _ => q = false ∧ a = b
  | .symbols => q = false ∧ a = b
  | .emit _ .toSymbols => q = false ∧ a = b
  | .emit _ .toFlush => q = false ∧ a = b
  | .emit _ .toReturn => q = false ∧ a = b
  | .ret _ => q = true → a.valid = b.valid ∧ (a.valid = true → a = b)
  | _ => q = false

/-- What of the decoder the command at a position can look at (R29). -/
def DecSim (a b : Decoder) : Pos → Prop
  | .walk => a = b
  | .read _ _ .dataBit => a = b
  | .emit _ .toWalk => a = b
  | _ => True

/-- The two states agree, and have delivered the same bytes since x and y. -/
structure Sim (q : Bool) (x y : List Byte) (s t : State) : Prop where
  params : s.params = t.params
  phase : s.phase = t.phase
  done : s.done = t.done
  err : s.err = t.err
  errcode : s.errcode = t.errcode
  result : s.result = t.result
  bw : s.bw = t.bw
  brk : s.br.k = t.br.k
  cur : s.br.k ≠ 0 → s.br.cur = t.br.cur
  inCur : s.inCur = t.inCur
  out : ∃ w, s.out = x ++ w ∧ t.out = y ++ w
  plan : match s.phase with | .idle => q = true → s.plan.valid = t.plan.valid ∧ (s.plan.valid = true → s.plan = t.plan) | .busy p => PlanSim q s.plan t.plan p
  dec : match s.phase with | .idle => True | .busy p => DecSim s.dec t.dec p

theorem Sim.raise {q x y s t} (h : Sim q x y s t) (e : Err) (hp : q = true → s.plan.valid = t.plan.valid ∧ (s.plan.valid = true → s.plan = t.plan)) : Sim q x y (raise e s) (raise e t) :=
  ⟨h.params, rfl, rfl, rfl, rfl, by show s.bw.nout = t.bw.nout; rw [h.bw], by show (⟨[], s.bw.nout⟩ : BitWriter) = ⟨[], t.bw.nout⟩; rw [h.bw], h.brk, h.cur, h.inCur, h.out, hp, trivial⟩

theorem Sim.goto {q x y s t} (h : Sim q x y s t) (p : Pos) (hp : PlanSim q s.plan t.plan p) (hd : DecSim s.dec t.dec p) : Sim q x y (s.goto p) (t.goto p) :=
  ⟨h.params, rfl, h.done, h.err, h.errcode, h.result, h.bw, h.brk, h.cur, h.inCur, h.out, hp, hd⟩

theorem Sim.setBytes {q x y s t} (h : Sim q x y s t) (r) : Sim q x y (s.setBytes r) (t.setBytes r) :=
  ⟨h.params, h.phase, h.done, h.err, h.errcode, h.result, h.bw, h.brk, h.cur, by show (⟨r, s.inCur.term⟩ : Machine.Stream) = ⟨r, t.inCur.term⟩; rw [h.inCur], h.out, h.plan, h.dec⟩

theorem Sim.startWalk {q x y s t} (h : Sim q x y s t) (hq : q = false) (u : Tree) : Sim q x y (startWalk u s) (startWalk u t) :=
  ⟨h.params, rfl, h.done, h.err, h.errcode, h.result, h.bw, h.brk, h.cur, h.inCur, h.out, hq, rfl⟩

theorem sim_emit {q x y s t} (h : Sim q x y s t) (b : Bool) (r k) (hp : PlanSim q s.plan t.plan (.emit r k)) (hd : DecSim s.dec t.dec (.emit r k)) : Sim q x y ((emitBit b s).goto (.emit r k)) ((emitBit b t).goto (.emit r k)) := by
  obtain ⟨w, h1, h2⟩ := h.out
  unfold emitBit
  rw [← h.bw]
  split
  · exact ⟨h.params, rfl, h.done, h.err, h.errcode, h.result, rfl, h.brk, h.cur, h.inCur, ⟨w ++ [_], by show s.out ++ _ = _; rw [h1, List.append_assoc], by show t.out ++ _ = _; rw [h2, List.append_assoc]⟩, hp, hd⟩
  · exact ⟨h.params, rfl, h.done, h.err, h.errcode, h.result, rfl, h.brk, h.cur, h.inCur, ⟨w, h1, h2⟩, hp, hd⟩

theorem sim_inByte {q x y s t} (h : Sim q x y s t) :
   (∃ b r, inByte s = .byte b (s.setBytes r) ∧ inByte t = .byte b (t.setBytes r)) ∨ (inByte s = .eos ∧ inByte t = .eos) ∨ (inByte s = .fail ∧ inByte t = .fail) ∨ (inByte s = .wait ∧ inByte t = .wait) := by
  have hi := h.inCur
  rcases inByte_cases s with ⟨b, r, hb, e⟩ | ⟨hb, ht, e⟩ | ⟨hb, ht, e⟩ | ⟨hb, ht, e⟩
  · exact .inl ⟨b, r, e, inByte_cons (hi ▸ hb)⟩
  · exact .inr (.inl ⟨e, inByte_eos (hi ▸ hb) (hi ▸ ht)⟩)
  · exact .inr (.inr (.inl ⟨e, inByte_fail (hi ▸ hb) (hi ▸ ht)⟩))
  · exact .inr (.inr (.inr ⟨e, inByte_wait (hi ▸ hb) (hi ▸ ht)⟩))

theorem PlanSim.q_false {q a b p} (h : PlanSim q a b p) (hp : p.ofPreprocess = false) (hr : ∀ v, p ≠ .ret v) : q = false := by
  match p, h with
  | .compress _, h => exact h.1
  | .symbols, h => exact h.1
  | .emit _ .toSymbols, h => exact h.1
  | .emit _ .toFlush, h => exact h.1
  | .emit _ .toReturn, h => exact h.1
  | .emit _ .toWalk, h => exact h
  | .decompress, h => exact h
  | .read _ _ _, h => exact h
  | .walk, h => exact h
  | .ret v, _ => exact absurd rfl (hr v)
  | .preprocess _, _ => cases hp
  | .count _ _, _ => cases hp

theorem sim_readDone {q x y s t} (h : Sim q x y s t) (hq : q = false) (k : ReadCont) (v : Nat) (hd : k = .dataBit → s.dec = t.dec) : Sim q x y (readDone k v s) (readDone k v t) := by
  have nq : q = true → s.plan.valid = t.plan.valid ∧ (s.plan.valid = true → s.plan = t.plan) := fun h => by rw [hq] at h; cases h
  have take : ∀ n (k : ParseState → ReadCont) p, (∀ p, k p ≠ .dataBit) → Sim q x y (takeField n k p s) (takeField n k p t) := by
    intro n k p hk; unfold takeField; split
    · exact h.raise _ nq
    · refine h.goto _ hq ?_
      generalize hkp : k p = z
      cases z <;> first | trivial | exact absurd hkp (hk p)
  cases k with
  | magic =>
    simp only [readDone, magicRead]; rw [← h.params]; split
    · exact h.raise _ nq
    · exact h.goto _ hq trivial
  | selector =>
    simp only [readDone, selectorRead]; rw [← h.params]; split
    · exact h.goto _ hq trivial
    · split
      · exact h.goto _ hq trivial
      · exact h.raise _ nq
  | count i F =>
    simp only [readDone, countRead]; split
    · exact h.goto _ hq trivial
    · exact h.startWalk hq _
  | treeLen => exact take _ _ _ (by simp)
  | token p =>
    simp only [readDone, tokenRead]; split
    · split
      · exact h.raise _ nq
      · exact take _ _ _ (by simp)
    · exact take _ _ _ (by simp)
  | leafValue p =>
    simp only [readDone, leafValueRead]; split
    · split
      · exact h.raise _ nq
      · split
        · rename_i root _
          simp only [parseDone]
          have h' : Sim q x y { s with dec := { s.dec with tree := root } } { t with dec := { t.dec with tree := root } } → ∀ e, Sim q x y (raise e { s with dec := { s.dec with tree := root } }) (raise e { t with dec := { t.dec with tree := root } }) := fun g e => g.raise e nq
          have g : ∀ e, Sim q x y (raise e { s with dec := { s.dec with tree := root } }) (raise e { t with dec := { t.dec with tree := root } }) := fun e =>
            ⟨h.params, rfl, rfl, rfl, rfl, by show s.bw.nout = t.bw.nout; rw [h.bw], by show (⟨[], s.bw.nout⟩ : BitWriter) = ⟨[], t.bw.nout⟩; rw [h.bw], h.brk, h.cur, h.inCur, h.out, nq, trivial⟩
          split
          · exact g _
          · split
            · exact g _
            · exact ⟨h.params, rfl, h.done, h.err, h.errcode, h.result, h.bw, h.brk, h.cur, h.inCur, h.out, hq, rfl⟩
        · exact take _ _ _ (by simp)
    · exact h.raise _ nq
  | dataBit =>
    have hd := hd rfl
    simp only [readDone, dataBitRead]
    rw [← hd]
    split
    · exact ⟨h.params, rfl, h.done, h.err, h.errcode, h.result, h.bw, h.brk, h.cur, h.inCur, h.out, hq, rfl⟩
    · exact h.goto _ hq hd

/-- A block step keeps the agreement. -/
theorem sim_step {q x y s t} (h : Sim q x y s t) : Sim q x y (blockStep s) (blockStep t) := by
  cases hp : s.phase with
  | idle => rw [blockStep_idle hp, blockStep_idle (h.phase ▸ hp)]; exact h
  | busy p =>
    rw [blockStep_busy hp, blockStep_busy (h.phase ▸ hp)]
    have hpl := h.plan; have hde := h.dec
    rw [hp] at hpl hde
    dsimp only at hpl hde
    match p, hp, hpl, hde with
    | .preprocess fmt, hp, hpl, hde =>
      exact ⟨h.params, rfl, h.done, h.err, h.errcode, h.result, h.bw, h.brk, h.cur, h.inCur, h.out, ⟨rfl, rfl, rfl⟩, trivial⟩
    | .count fmt n, hp, hpl, hde =>
      obtain ⟨v1, v2, hf⟩ := hpl
      have nq : q = true → s.plan.valid = t.plan.valid ∧ (s.plan.valid = true → s.plan = t.plan) := fun _ => ⟨by rw [v1, v2], fun g => by rw [v1] at g; cases g⟩
      simp only [posStep, countStep]
      rcases sim_inByte h with ⟨b, r, e, e'⟩ | ⟨e, e'⟩ | ⟨e, e'⟩ | ⟨e, e'⟩ <;> rw [e, e']
      · have h' := h.setBytes r
        show Sim q x y (countByte fmt n b (s.setBytes r)) (countByte fmt n b (t.setBytes r))
        unfold countByte
        have : freqOf (t.setBytes r).plan.freq b = freqOf (s.setBytes r).plan.freq b := by show freqOf t.plan.freq b = freqOf s.plan.freq b; rw [hf]
        rw [this]
        split
        · exact h'.raise _ nq
        · exact ⟨h'.params, rfl, h'.done, h'.err, h'.errcode, h'.result, h'.bw, h'.brk, h'.cur, h'.inCur, h'.out, ⟨v1, v2, by show s.plan.freq.set b.toNat (freqOf s.plan.freq b + 1) b.isLt = t.plan.freq.set b.toNat (freqOf s.plan.freq b + 1) b.isLt; rw [hf]⟩, trivial⟩
      · have : planOf fmt t.plan.freq n = planOf fmt s.plan.freq n := by rw [hf]
        refine ⟨h.params, ?_, h.done, h.err, h.errcode, h.result, h.bw, h.brk, h.cur, h.inCur, h.out, fun _ => ⟨rfl, fun _ => this.symm⟩, trivial⟩
        show Phase.busy (.ret ((planOf fmt s.plan.freq n).origBits - _)) = Phase.busy (.ret ((planOf fmt t.plan.freq n).origBits - (planOf fmt t.plan.freq n).projBits))
        rw [this]
      · exact h.raise _ nq
      · exact h
    | .compress f, hp, hpl, hde =>
      obtain ⟨hq, e⟩ := hpl
      have nq : q = true → s.plan.valid = t.plan.valid ∧ (s.plan.valid = true → s.plan = t.plan) := fun h => by rw [hq] at h; cases h
      simp only [posStep, startCompress]; rw [← e, ← h.params]
      split
      · exact h.raise _ nq
      · split
        · exact h.goto _ (fun h => by rw [hq] at h; cases h) trivial
        · exact h.goto _ ⟨hq, e⟩ trivial
    | .symbols, hp, hpl, hde =>
      obtain ⟨hq, epl⟩ := hpl
      have nq : q = true → s.plan.valid = t.plan.valid ∧ (s.plan.valid = true → s.plan = t.plan) := fun h => by rw [hq] at h; cases h
      simp only [posStep, symbolStep]
      rcases sim_inByte h with ⟨b, r, e, e'⟩ | ⟨e, e'⟩ | ⟨e, e'⟩ | ⟨e, e'⟩ <;> rw [e, e']
      · show Sim q x y (symbolByte b (s.setBytes r)) (symbolByte b (t.setBytes r))
        unfold symbolByte
        have : (t.setBytes r).plan = (s.setBytes r).plan := epl.symm
        rw [this]
        split
        · exact (h.setBytes r).raise _ nq
        · exact (h.setBytes r).goto _ ⟨hq, epl⟩ trivial
      · dsimp only; rw [← epl]; exact h.goto _ ⟨hq, epl⟩ trivial
      · exact h.raise _ nq
      · exact h
    | .decompress, hp, hpl, hde => exact h.goto _ hpl trivial
    | .read 0 v k, hp, hpl, hde => exact sim_readDone h hpl k v (by rintro rfl; exact hde)
    | .read (n+1) v k, hp, hpl, hde =>
      have hq : q = false := hpl
      have nq : q = true → s.plan.valid = t.plan.valid ∧ (s.plan.valid = true → s.plan = t.plan) := fun h => by rw [hq] at h; cases h
      have hdk : ∀ v n, DecSim s.dec t.dec (.read n v k) := by intro v n; cases k <;> trivial
      simp only [posStep, readBit]
      rw [← h.brk]
      split
      · rcases sim_inByte h with ⟨b, r, e, e'⟩ | ⟨e, e'⟩ | ⟨e, e'⟩ | ⟨e, e'⟩ <;> rw [e, e']
        · have h' := h.setBytes r
          exact ⟨h'.params, rfl, h'.done, h'.err, h'.errcode, h'.result, h'.bw, rfl, fun _ => rfl, h'.inCur, h'.out, hq, hdk _ _⟩
        · exact h.raise _ nq
        · exact h.raise _ nq
        · exact h
      · rename_i hk
        have hc := h.cur hk
        refine ⟨h.params, ?_, h.done, h.err, h.errcode, h.result, h.bw, ?_, fun _ => hc, h.inCur, h.out, hq, hdk _ _⟩
        · show Phase.busy (.read n (2 * v + (s.br.cur.getLsbD (s.br.k - 1)).toNat) k) = Phase.busy (.read n (2 * v + (t.br.cur.getLsbD (t.br.k - 1)).toNat) k)
          rw [hc, h.brk]
        · show s.br.k - 1 = t.br.k - 1; rw [h.brk]
    | .walk, hp, hpl, hde =>
      have hde : s.dec = t.dec := hde
      simp only [posStep, walkStep]; rw [← hde, ← h.bw]
      split
      · split
        · exact h.goto _ (fun g => by have : q = false := hpl; rw [this] at g; cases g) trivial
        · exact h.goto _ hpl hde
      · exact h.goto _ hpl hde
    | .emit [] k, hp, hpl, hde =>
      cases k with
      | toSymbols => exact h.goto _ hpl trivial
      | toFlush => simp only [posStep, emitDone]; rw [← h.bw]; exact h.goto _ hpl trivial
      | toReturn => simp only [posStep, emitDone]; rw [← h.bw]; exact h.goto _ (fun g => by have : q = false := hpl.1; rw [this] at g; cases g) trivial
      | toWalk =>
        have hde : s.dec = t.dec := hde
        exact ⟨h.params, rfl, h.done, h.err, h.errcode, h.result, h.bw, h.brk, h.cur, h.inCur, h.out, hpl, by show ({ s.dec with nsym := s.dec.nsym + 1, node := s.dec.tree } : Decoder) = { t.dec with nsym := t.dec.nsym + 1, node := t.dec.tree }; rw [hde]⟩
    | .emit (b :: r) k, hp, hpl, hde =>
      simp only [posStep]
      refine sim_emit h b r k ?_ ?_
      · cases k <;> exact hpl
      · cases k <;> trivial
    | .ret v, hp, hpl, hde =>
      exact ⟨h.params, rfl, rfl, rfl, rfl, rfl, h.bw, h.brk, h.cur, h.inCur, h.out, hpl, trivial⟩

theorem sim_run {q x y s t} (n) (h : Sim q x y s t) : Sim q x y (run n s) (run n t) := by
  induction n generalizing s t with
  | zero => exact h
  | succ n ih => rw [run_succ, run_succ]; exact ih (sim_step h)

end Sys2Proof.Machine
end

