-- ==== Sys2Proof/Tests/Slice0.lean ====
section
/-! SUPPORT. Tests of the model on words and vectors written out from the spec (30_encoding.md, 95_test_vectors.md), and for every
statement with hypotheses a concrete state that meets them. Every expected value is the spec's. -/

namespace Sys2Proof.Tests

open Sys2Proof Sys2Proof.Machine

/-! ### The encoding: RES, A and OP written out bit by bit (R80, R81) -/

theorem test_word_preprocess_counts :
    decode (0b000000000000000000000000000#27 ++ 0b0#1 ++ 0b0001#4) = .ok (.preprocess .counts) := by decide
theorem test_word_preprocess_tree :
    decode (0b000000000000000000000000000#27 ++ 0b1#1 ++ 0b0001#4) = .ok (.preprocess .tree) := by decide
theorem test_word_compress :
    decode (0b000000000000000000000000000#27 ++ 0b0#1 ++ 0b0010#4) = .ok (.compress false) := by decide
theorem test_word_compress_force :
    decode (0b000000000000000000000000000#27 ++ 0b1#1 ++ 0b0010#4) = .ok (.compress true) := by decide
theorem test_word_decompress :
    decode (0b000000000000000000000000000#27 ++ 0b0#1 ++ 0b0011#4) = .ok (.decompress false) := by decide

/-- R83: OP = 0, OP = 4, OP = 3 with A = 1, and the lowest and the highest reserved bit. -/
theorem test_word_illegal :
    decode 0x00 = .error .reservedOp ∧ decode 0x04 = .error .reservedOp ∧ decode 0x0F = .error .reservedOp ∧
    decode 0x13 = .error .argumentNotZero ∧ decode 0x21 = .error .reservedBits ∧
    decode 0x80000001 = .error .reservedBits := by decide

/-- What the host asks of the decoder and the step. -/
theorem test_table_word : decodeTableWord 32 0x11 = some (.preprocess .tree) ∧ decodeTableWord 32 0x12 = some (.compress true) ∧
    decodeTableWord 32 3 = some (.decompress false) ∧ decodeTableWord 32 0x13 = none := by decide

/-! ### WellFormed: the one ill-formed term is refused -/

theorem test_wellformed_refuses : Instr.wellFormed (.decompress true) = false := by decide
theorem test_wellformed_accepts : Instr.wellFormed (.decompress false) = true := by decide

/-! ### Small states -/

/-- Parameters for tests; the values are no spec's (R6 leaves them open). -/
def params : Params := { MAGIC_NUMBER := 0x4D414749, SEL_COUNTS := 0xC0000001, SEL_TREE := 0x7EE00002, CORE_BASE := 0x4000 }

/-- The block after reset with those parameters and the stream st presented. -/
def presented (st : Machine.Stream) : State := { State.reset with params := params, inNext := st }

/-- The same with the plan of the counts F. -/
def planned (fmt : HeaderFormat) (F : FreqTable) (st : Machine.Stream) : State :=
  { presented st with plan := planOf fmt F (BitVec.ofNat 64 (total F)) }

/-- The same with a command at position p. -/
def running (p : Pos) (st : Machine.Stream) : State := { presented Stream.unsupplied with phase := .busy p, inCur := st }

/-- "aaab" (EX1). -/
def aaab : List Byte := [0x61, 0x61, 0x61, 0x62]

/-- The stream of CP1: magic, selector, T = 32, S, DATA and EOF_CODE. -/
def aaabStream : List Byte := [0x4D, 0x41, 0x47, 0x49, 0x7E, 0xE0, 0x00, 0x02, 0x00, 0x00, 0x00, 0x20, 0x26, 0x2C, 0x02, 0x61, 0xE2]

/-- The tree of TB1. -/
def aaabTree : Tree := .node (.node (.leaf 0x62 1) (.leaf pseudoEof 1) 2) (.leaf 0x61 3) 5

theorem presented_inv (st : Machine.Stream) : (presented st).Inv where
  params := by show params.SEL_COUNTS ≠ params.SEL_TREE; decide
  status := { exclusive := fun _ => rfl, err := rfl, produced := Nat.zero_le _, running := fun _ => ⟨rfl, rfl⟩ }
  ports := { acc := by show 0 < 8; decide, nout := rfl, br := by show 0 < 8; decide }
  plan := fun h => by simp [presented, State.reset, Plan.reset] at h
  pos := fun p h => by simp [presented, State.reset] at h

/-- The premise Ready of the command statements holds for every stream. -/
theorem presented_ready (st : Machine.Stream) : Ready (presented st) st :=
  { inv := presented_inv st, idle := rfl, alone := rfl, stream := rfl }

theorem planned_inv (fmt : HeaderFormat) (F : FreqTable) (st : Machine.Stream) : (planned fmt F st).Inv where
  params := (presented_inv st).params
  status := { exclusive := fun _ => rfl, err := rfl, produced := Nat.zero_le _, running := fun _ => ⟨rfl, rfl⟩ }
  ports := { acc := by show 0 < 8; decide, nout := rfl, br := by show 0 < 8; decide }
  plan := fun _ => rfl
  pos := fun p h => by simp [planned, presented, State.reset] at h

theorem planned_ready (fmt : HeaderFormat) (F : FreqTable) (st : Machine.Stream) : Ready (planned fmt F st) st :=
  { inv := planned_inv fmt F st, idle := rfl, alone := rfl, stream := rfl }

theorem running_inv (p : Pos) (hp : ∀ u, PosOk u p) (st : Machine.Stream) : (running p st).Inv where
  params := (presented_inv st).params
  status := { exclusive := fun _ => rfl, err := rfl, produced := Nat.zero_le _, running := fun _ => ⟨rfl, rfl⟩ }
  ports := { acc := by show 0 < 8; decide, nout := rfl, br := by show 0 < 8; decide }
  plan := fun h => by simp [running, presented, State.reset, Plan.reset] at h
  pos := fun q h => by
    simp [running] at h
    subst h
    exact hp _

/-- The state a step answers, and the state before it when it answers none. -/
def after (o : Host.Outcome State Fault Refusal) : Option State :=
  match o with
  | .next t => some t
  | _       => none

/-! ### One step on the spec's vectors -/

/-- CP1, EX1: PREPROCESS TREE of "aaab": FREQ, tree, codes, ORIG_BITS 32, PROJ_BITS 136, savings −104, STATUS DONE, PLAN_VALID, PLAN_FMT. -/
theorem test_preprocess_aaab :
    (after (exec (.preprocess .tree) (presented ⟨aaab, some .eos⟩))).map
      (fun t => ((t.status, t.result, t.plan.origBits, t.plan.projBits), t.plan.tree,
        [Symbol.ofByte 0x61, Symbol.ofByte 0x62, pseudoEof].map (codeBits t.plan.code)))
    = some ((0x1A, -104, 32, 136), aaabTree, [[true], [false, false], [false, true]]) := by decide +kernel

/-- FC4: "61 62" and FAIL: STREAM_READ_FAILURE, the plan invalid, STATUS DONE and ERR. -/
theorem test_preprocess_fail :
    (after (exec (.preprocess .counts) (presented ⟨[0x61, 0x62], some .fail⟩))).map
      (fun t => (t.status, t.errcode, t.result, t.inCur.bytes)) = some (0x06, 1, 0, []) := by decide +kernel

/-- CP1: COMPRESS FORCE of "aaab" in the tree format. -/
theorem test_compress_aaab :
    (after (exec (.compress true) (planned .tree (countOf aaab) ⟨aaab, some .eos⟩))).map (fun t => (t.out, t.errcode, t.result))
    = some (aaabStream, 0, 136) := by decide +kernel

/-- EX1: without FORCE it is skipped: no output, RESULT 0, no error. -/
theorem test_compress_skipped :
    (after (exec (.compress false) (planned .tree (countOf aaab) ⟨aaab, some .eos⟩))).map
      (fun t => (t.out, t.errcode, t.result, t.done, t.inCur.bytes)) = some ([], 0, 0, true, aaab) := by decide +kernel

/-- EX1: DECOMPRESS of that stream gives "aaab", RESULT 32; the two bytes after it stay unread. -/
theorem test_decompress_aaab :
    (after (exec (.decompress false) (presented ⟨aaabStream ++ [0x55, 0x66], some .eos⟩))).map
      (fun t => (t.out, t.errcode, t.result, t.inCur.bytes)) = some (aaab, 0, 32, [0x55, 0x66]) := by decide +kernel

/-- A stream of 9 bytes that ends inside the header (R176): HEADER_CORRUPTION. -/
theorem test_decompress_cut :
    (after (exec (.decompress false) (presented ⟨aaabStream.take 9, some .eos⟩))).map (fun t => (t.out, t.errcode, t.result))
    = some ([], 3, 0) := by decide +kernel

/-- R83: an illegal word from the host's first access after reset. -/
theorem test_illegal_word :
    (after (step ((presented Stream.unsupplied).withFetchWord 32 0x13))).map (fun t => (t.status, t.errcode)) = some (0x06, 5) := by
  decide +kernel

/-- R301, RS: a reset while COMPRESS waits for its stream. -/
theorem test_reset_while_busy :
    (after (act .reset (running .symbols ⟨[], none⟩))).map (fun t => (t.status, t.errcode)) = some (0, 0) := by decide +kernel

/-! ### Witnesses: the hypotheses of each statement can be met -/

theorem witness_DecodeInvertsEncode : (Instr.preprocess .tree).WellFormed ∧ (Instr.compress true).WellFormed ∧
    (Instr.decompress false).WellFormed := by decide

theorem witness_IllegalWordsEndWithIllegalCommand :
    (presented Stream.unsupplied).busy = false ∧ Illegal 0 ∧ Illegal 4 ∧ Illegal 0x13 ∧ Illegal 0x20 ∧ Illegal 0xFFFFFFFF ∧
    ¬ Illegal 1 ∧ ¬ Illegal 0x12 ∧ ¬ Illegal 3 := by
  refine ⟨rfl, ?_, ?_, ?_, ?_, ?_, ?_, ?_, ?_⟩ <;> (unfold Illegal; decide)

theorem witness_StepRunsTheDecodedCommand :
    (presented Stream.unsupplied).phase = .idle ∧ decode 0x11 = .ok (.preprocess .tree) ∧
    decodeTableWord 32 0x12 = some (.compress true) ∧ (presented Stream.unsupplied).events = [] :=
  ⟨rfl, by decide, by decide, rfl⟩

theorem witness_CmdIsTheCommandPort :
    (presented Stream.unsupplied).busy = false ∧ decode 3 = .ok (.decompress false) ∧ decode 0x13 = .error .argumentNotZero ∧
    (running .symbols ⟨[], none⟩).busy = true := ⟨rfl, by decide, by decide, rfl⟩

/-- A short access, a misaligned one and the first offset above the window; the first and the last offset inside. -/
theorem witness_OtherAccessesHaveNoEffect :
    (¬ (2 = 4 ∧ 0 % 4 = 0 ∧ 0 < 32)) ∧ (¬ (4 = 4 ∧ 2 % 4 = 0 ∧ 2 < 32)) ∧ (¬ (4 = 4 ∧ 32 % 4 = 0 ∧ 32 < 32)) ∧ 0 < 32 ∧ 31 < 32 := by
  decide

theorem witness_ReadsAndOtherWritesHaveNoSideEffect : (¬ (4 = 0 ∧ 4 = 4)) ∧ ¬ (0 = 0 ∧ 2 = 4) := by decide

theorem witness_WaitPollsUntilNotBusy :
    (presented Stream.unsupplied).busy = false ∧ (running .symbols ⟨[], none⟩).busy = true ∧
    (running .decompress ⟨[], some .eos⟩).Inv ∧ (running .decompress ⟨[], some .eos⟩).busy = true ∧
    (running .decompress ⟨[], some .eos⟩).inCur.term ≠ none :=
  ⟨rfl, rfl, running_inv .decompress (fun _ => trivial) _, rfl, by simp [running]⟩

theorem witness_AcceptanceInitialises :
    ({ presented Stream.unsupplied with pace := some 0 } : State).busy = false ∧
    ({ presented Stream.unsupplied with pace := some 0 } : State).pace = some 0 ∧ (Instr.compress false).WellFormed :=
  ⟨rfl, rfl, by decide⟩

theorem witness_NormalCompletion : (running (.ret 136) ⟨[], some .eos⟩).phase = .busy (.ret 136) := rfl

/-- The premises, and both sides of the equivalence: at a FAIL terminator the left side holds, at an END terminator it does not. -/
theorem witness_ReadFailureExactlyAtAFailTerminator :
    (running (.read 32 0 .magic) ⟨[], some .fail⟩).Inv ∧
    (running (.read 32 0 .magic) ⟨[], some .fail⟩).phase = .busy (.read 32 0 .magic) ∧
    (Pos.read 32 0 .magic).fetches 0 = true ∧
    (running (.read 32 0 .magic) ⟨[], some .eos⟩).Inv :=
  ⟨running_inv (.read 32 0 .magic) (fun _ => trivial) _, rfl, rfl, running_inv (.read 32 0 .magic) (fun _ => trivial) _⟩

/-- Exactly as many bits as the stream has. -/
theorem witness_ReadBitsTakesTheNextBits :
    PortsOk (running (.read 8 0 .magic) ⟨[0xA5], none⟩) ∧ (running (.read 8 0 .magic) ⟨[0xA5], none⟩).phase = .busy (.read 8 0 .magic) ∧
    8 ≤ (running (.read 8 0 .magic) ⟨[0xA5], none⟩).unread.length :=
  ⟨(running_inv (.read 8 0 .magic) (fun _ => trivial) _).ports, rfl, by decide⟩

/-- One bit more than the stream has, with each terminator, for each of the three errors. -/
theorem witness_ShortReadsEndTheCommand : ∀ (k : ReadCont) (x : Terminator),
    PortsOk (running (.read 9 0 k) ⟨[0xA5], some x⟩) ∧ (running (.read 9 0 k) ⟨[0xA5], some x⟩).unread.length < 9 ∧
    (running (.read 9 0 k) ⟨[0xA5], some x⟩).inCur.term = some x :=
  fun _ _ => ⟨{ acc := by show 0 < 8; decide, nout := rfl, br := by show 0 < 8; decide }, by show 8 < 9; decide, rfl⟩

theorem witness_WrittenBitsReachOut :
    PortsOk (running (.emit [true, false] .toSymbols) ⟨[], none⟩) ∧
    (running (.emit [true, false] .toSymbols) ⟨[], none⟩).phase = .busy (.emit [true, false] .toSymbols) :=
  ⟨{ acc := by show 0 < 8; decide, nout := rfl, br := by show 0 < 8; decide }, rfl⟩

/-- Seven pending bits (one zero is appended) and none (no bit is appended). -/
theorem witness_FlushPadsToAByte :
    PortsOk { running (.emit [] .toFlush) ⟨[], none⟩ with bw := { acc := List.replicate 7 true, nout := 8 } } ∧
    PortsOk (running (.emit [] .toFlush) ⟨[], none⟩) ∧ (running (.emit [] .toFlush) ⟨[], none⟩).phase = .busy (.emit [] .toFlush) :=
  ⟨{ acc := by show 7 < 8; decide, nout := rfl, br := by show 0 < 8; decide },
    { acc := by show 0 < 8; decide, nout := rfl, br := by show 0 < 8; decide }, rfl⟩

/-- The worklist of TB1 before its first merge. -/
theorem witness_WorklistStaysOrdered : Ordered [.leaf 0x62 1, .leaf pseudoEof 1, .leaf 0x61 3] := by unfold Ordered; decide
theorem witness_InsertionPlacesAfterEquals : Ordered [.leaf 0x62 1, .leaf 0x61 3] := by unfold Ordered; decide

theorem witness_BuildCoversTheOccurringSymbols :
    freqOf (countOf aaab) 0x61 ≠ 0 ∧ build (countOf aaab) = aaabTree ∧ aaabTree.follow [true] = some (.leaf 0x61 3) := by decide +kernel

/-- What the counts of a short list are, by the law of COUNT. -/
theorem freq_of {bs : List Byte} (h : bs.length < 2 ^ 32) (b : Byte) : (freqOf (countOf bs) b).toNat = bs.count b :=
  freqOf_countOf b (lt_of_le_of_lt List.count_le_length h)

/-- A byte that is not in the list has the count 0. -/
theorem freq_zero {bs : List Byte} (h : bs.length < 2 ^ 32) {b : Byte} (hb : b ∉ bs) : freqOf (countOf bs) b = 0 :=
  BitVec.eq_of_toNat_eq (by rw [freq_of h, List.count_eq_zero_of_not_mem hb]; rfl)

/-- No byte; one byte once; one byte twice. -/
theorem witness_SmallestTrees :
    (∀ b, freqOf (countOf []) b = 0) ∧ (∀ b, b ≠ 0x61 → freqOf (countOf [0x61]) b = 0) ∧ freqOf (countOf [0x61]) 0x61 = 1 ∧
    (∀ b, b ≠ 0x61 → freqOf (countOf [0x61, 0x61]) b = 0) ∧ 1 < (freqOf (countOf [0x61, 0x61]) 0x61).toNat := by
  refine ⟨fun b => freq_zero (by decide) (by simp), fun b h => freq_zero (by decide) (by simpa using h), by decide +kernel,
    fun b h => freq_zero (by decide) (by simpa using h), ?_⟩
  rw [freq_of (by decide)]
  decide

theorem witness_CodesArePrefixFreeLeafPaths :
    (0x61 : Symbol) ≠ 0x62 ∧ (genCodes (build (countOf aaab)))[(0x61 : Symbol)] = some [true] ∧
    (genCodes (build (countOf aaab)))[(0x62 : Symbol)] = some [false, false] := by decide +kernel

/-- The least number of leaves to which R152 applies. -/
theorem witness_CodesFillTheTree : (build (countOf [0x61])).leaves.length = 2 := by decide +kernel

theorem witness_EmptyCodeOnlyForTheEmptyInput :
    (∀ b, freqOf (countOf []) b = 0) ∧ (0 : Symbol) ≠ pseudoEof ∧ (genCodes (build (countOf [])))[pseudoEof] = some [] :=
  ⟨fun b => freq_zero (by decide) (by simp), by decide, by decide +kernel⟩

theorem witness_TreeSerializationLength : aaabTree.leaves.Nodup ∧ (Tree.leaf pseudoEof 1).leaves.Nodup := by decide

theorem witness_CountsHeaderLayout : (planOf .counts (countOf []) 0).fmt = .counts ∧
    (planOf .counts (countOf []) 0).hdr
      = headerOf (planOf .counts (countOf []) 0).fmt (planOf .counts (countOf []) 0).freq (planOf .counts (countOf []) 0).tree ∧
    ∃ bytes, streamHead params (planOf .counts (countOf []) 0) <+: bitsOf bytes := by
  refine ⟨rfl, rfl, ?_⟩
  obtain ⟨bs, h⟩ := exists_bitsOf (s := streamHead params (planOf .counts (countOf []) 0)) (by
    simp [streamHead, planOf, headerOf])
  exact ⟨bs, by rw [h]⟩

theorem witness_TreeSerializationIsUniquelyDecodable : ser aaabTree ++ [true] = ser aaabTree.unweighted ++ [true] := by decide

theorem aaab_fits : CountsFit aaab := fun b => lt_of_le_of_lt List.count_le_length (by decide)

theorem witness_PreprocessMakesThePlan : Ready (presented ⟨aaab, some .eos⟩) ⟨aaab, some .eos⟩ ∧ CountsFit aaab :=
  ⟨presented_ready _, aaab_fits⟩

/-- One copy of a byte fewer than overflows, then one more. -/
theorem witness_PreprocessErrorsLeaveNoPlan :
    (Ready (presented ⟨aaab, some .fail⟩) ⟨aaab, some .fail⟩ ∧ CountsFit aaab) ∧
    (Ready (presented ⟨List.replicate (2 ^ 32 - 1) 0x41 ++ 0x41 :: [0x42], none⟩)
        ⟨List.replicate (2 ^ 32 - 1) 0x41 ++ 0x41 :: [0x42], none⟩ ∧
      CountsFit (List.replicate (2 ^ 32 - 1) (0x41 : Byte)) ∧
      (List.replicate (2 ^ 32 - 1) (0x41 : Byte)).count 0x41 = 2 ^ 32 - 1) := by
  refine ⟨⟨presented_ready _, aaab_fits⟩, presented_ready _, fun b => ?_, List.count_replicate_self⟩
  exact lt_of_le_of_lt List.count_le_length (by rw [List.length_replicate]; decide)

theorem witness_ProjectedSizeBounds :
    (planned .tree (countOf aaab) Stream.unsupplied).Inv ∧ (planned .tree (countOf aaab) Stream.unsupplied).plan.valid = true ∧
    (planned .counts (countOf aaab) Stream.unsupplied).Inv ∧ (planned .counts (countOf aaab) Stream.unsupplied).plan.valid = true :=
  ⟨planned_inv _ _ _, rfl, planned_inv _ _ _, rfl⟩

theorem witness_PlanWidthsNeverOverflow :
    (planned .tree (countOf aaab) Stream.unsupplied).Inv ∧ (planned .tree (countOf aaab) Stream.unsupplied).plan.valid = true :=
  ⟨planned_inv _ _ _, rfl⟩

theorem witness_CompressWithoutPlan :
    Ready (presented ⟨aaab, some .eos⟩) ⟨aaab, some .eos⟩ ∧ (presented ⟨aaab, some .eos⟩).plan.valid = false := ⟨presented_ready _, rfl⟩

theorem aaab_coded (fmt : HeaderFormat) (st : Machine.Stream) : Coded (planned fmt (countOf aaab) st).plan aaab := by
  show ∀ b ∈ aaab, freqOf (countOf aaab) b ≠ 0
  decide +kernel

/-- CP9: 17 × "a" in the tree format has PROJ_BITS = ORIG_BITS, which does not skip; EX1 skips without FORCE. -/
theorem witness_ForcePolicy :
    (planned .tree (countOf aaab) Stream.unsupplied).plan.origBits < (planned .tree (countOf aaab) Stream.unsupplied).plan.projBits ∧
    (planned .tree (countOf (List.replicate 17 0x61)) Stream.unsupplied).plan.projBits
      = (planned .tree (countOf (List.replicate 17 0x61)) Stream.unsupplied).plan.origBits ∧
    (∀ b ∈ List.replicate 17 (0x61 : Byte), freqOf (countOf (List.replicate 17 0x61)) b ≠ 0) := by decide +kernel

theorem witness_CompressWritesTheStream :
    Ready (planned .tree (countOf aaab) ⟨aaab, some .eos⟩) ⟨aaab, some .eos⟩ ∧
    (planned .tree (countOf aaab) ⟨aaab, some .eos⟩).plan.valid = true ∧
    Coded (planned .tree (countOf aaab) ⟨aaab, some .eos⟩).plan aaab := ⟨planned_ready _ _ _, rfl, aaab_coded _ _⟩

/-- A byte without a code after two that have one, and a FAIL terminator. -/
theorem witness_CompressErrorsKeepWhatWasDelivered :
    Ready (planned .tree (countOf aaab) ⟨aaab ++ 0x63 :: [], some .eos⟩) ⟨aaab ++ 0x63 :: [], some .eos⟩ ∧
    freqOf (countOf aaab) 0x63 = 0 ∧ Coded (planned .tree (countOf aaab) ⟨aaab, some .fail⟩).plan aaab ∧
    Ready (planned .tree (countOf aaab) ⟨aaab, some .fail⟩) ⟨aaab, some .fail⟩ :=
  ⟨planned_ready _ _ _, by decide +kernel, aaab_coded _ _, planned_ready _ _ _⟩

theorem witness_CompressResultIsTheProjection :
    Ready (planned .tree (countOf aaab) ⟨aaab, some .eos⟩) ⟨aaab, some .eos⟩ ∧ ∀ b, (freqOf (countOf aaab) b).toNat = aaab.count b := by
  exact ⟨planned_ready _ _ _, fun b => freq_of (by decide) b⟩

/-- The tree header of "aaab" describes its tree. -/
theorem aaab_describes :
    Describes params (bin 32 params.SEL_TREE.toNat ++ headerTree aaabTree) aaabTree.unweighted :=
  .inl ⟨aaabTree, by decide, by unfold EofTree; decide, rfl, rfl⟩

/-- The codes of TB1 (GC1): a = 1, b = 00. -/
def aaabCode (b : Byte) : Bits := if b = 0x61 then [true] else [false, false]

theorem aaab_paths : ∀ b ∈ aaab, ∃ w, aaabTree.unweighted.follow (aaabCode b) = some (.leaf (Symbol.ofByte b) w) := by
  have h : ∀ b ∈ aaab, aaabTree.unweighted.follow (aaabCode b) = some (.leaf (Symbol.ofByte b) 0) := by decide
  exact fun b hb => ⟨0, h b hb⟩

theorem witness_DecompressDecodes :
    Ready (presented ⟨aaabStream, some .eos⟩) ⟨aaabStream, some .eos⟩ ∧
    Describes params (bin 32 params.SEL_TREE.toNat ++ headerTree aaabTree) aaabTree.unweighted ∧
    (∀ b ∈ aaab, ∃ w, aaabTree.unweighted.follow (aaabCode b) = some (.leaf (Symbol.ofByte b) w)) ∧
    (∃ w, aaabTree.unweighted.follow [false, true] = some (.leaf pseudoEof w)) ∧
    bitsOf aaabStream = bin 32 params.MAGIC_NUMBER.toNat ++ (bin 32 params.SEL_TREE.toNat ++ headerTree aaabTree)
      ++ aaab.flatMap aaabCode ++ [false, true] ++ [false] :=
  ⟨presented_ready _, aaab_describes, aaab_paths, ⟨0, by decide⟩, by decide +kernel⟩

/-- The counts format describes a tree too. -/
theorem witness_Describes_counts : Describes params (bin 32 params.SEL_COUNTS.toNat ++ headerCounts (countOf aaab)) (build (countOf aaab)) :=
  .inr ⟨countOf aaab, rfl, rfl⟩

/-- A magic number that matches, then a selector that matches neither format, and one byte more. -/
def wrongSelector : List Byte := aaabStream.take 4 ++ [0, 0, 0, 0, 9]

/-- Each way a magic number or a selector can fail, and what is left unread: a magic number or a selector that differs, with one byte
after it; three bytes, seven, with each terminator. -/
theorem witness_DecompressChecksMagicAndSelector :
    (∀ st, Ready (presented st) st) ∧
    (4 ≤ [(0 : Byte), 0, 0, 0, 9].length ∧ val ((bitsOf [0, 0, 0, 0, 9]).take 32) ≠ params.MAGIC_NUMBER.toNat ∧
      ([9] : List Byte) = [0, 0, 0, 0, 9].drop 4) ∧
    (8 ≤ wrongSelector.length ∧ val ((bitsOf wrongSelector).take 32) = params.MAGIC_NUMBER.toNat ∧
      val (((bitsOf wrongSelector).drop 32).take 32) ≠ params.SEL_COUNTS.toNat ∧
      val (((bitsOf wrongSelector).drop 32).take 32) ≠ params.SEL_TREE.toNat ∧ ([9] : List Byte) = wrongSelector.drop 8) ∧
    (aaabStream.take 3).length < 4 ∧
    ((aaabStream.take 7).length < 8 ∧ val ((bitsOf (aaabStream.take 7)).take 32) = params.MAGIC_NUMBER.toNat) :=
  ⟨presented_ready, by decide +kernel, by decide +kernel, by decide, by decide +kernel⟩

/-- A selector that matches neither format: the byte after it stays unread (DE6). -/
theorem test_wrong_selector :
    (after (exec (.decompress false) (presented ⟨wrongSelector, some .eos⟩))).map
      (fun t => (t.out, t.errcode, t.result, t.inCur.bytes)) = some ([], 2, 0, [9]) := by decide +kernel

/-- The stream of the tree format that declares T = 0 and has a byte after the length field. -/
def zeroLength : List Byte := aaabStream.take 8 ++ [0, 0, 0, 0, 0x2A]

theorem zeroLength_not_valid {x : Bits} (hx : x.length < 2 ^ 32) : ¬ ValidTreeHeader (bin 32 0 ++ x) := by
  rintro ⟨u, rest, -, -, h⟩
  rw [headerTree, List.append_assoc] at h
  obtain ⟨h1, h2⟩ := List.append_inj h (by simp)
  have h3 := congrArg List.length h2
  rw [List.length_append] at h3
  have h4 : (ser u).length = 0 := (bin_injective (Nat.two_pow_pos 32) (by omega) h1).symm
  cases u <;> simp [ser] at h4

/-- A header that is valid, with END and FAIL after it; one that is not, since no bit stands there; and T = 0 with a byte after it, the
least body there is, with END and FAIL after it. -/
theorem witness_OnlyValidTreeHeadersAreAccepted :
    (∀ st, Ready (presented st) st) ∧
    bitsOf aaabStream = bin 32 params.MAGIC_NUMBER.toNat ++ bin 32 params.SEL_TREE.toNat ++ (bitsOf aaabStream).drop 64 ∧
    ValidTreeHeader ((bitsOf aaabStream).drop 64) ∧
    bitsOf (aaabStream.take 8) = bin 32 params.MAGIC_NUMBER.toNat ++ bin 32 params.SEL_TREE.toNat ++ [] ∧ ¬ ValidTreeHeader [] ∧
    bitsOf zeroLength = bin 32 params.MAGIC_NUMBER.toNat ++ bin 32 params.SEL_TREE.toNat ++ (bin 32 0 ++ [] ++ bitsOf [0x2A]) ∧
    ¬ ValidTreeHeader (bin 32 0 ++ [] ++ bitsOf [0x2A]) := by
  refine ⟨presented_ready, by decide +kernel, ⟨aaabTree, (bitsOf aaabStream).drop 128, by decide, by unfold EofTree; decide,
    by decide +kernel⟩, by decide +kernel, ?_, by decide +kernel, zeroLength_not_valid (by decide)⟩
  rintro ⟨u, rest, -, -, h⟩
  have := congrArg List.length h
  simp [headerTree] at this
  omega

/-- A header cut short inside its tree, where a valid one could still go on. -/
theorem witness_HeaderCouldGoOn :
    bitsOf (aaabStream.take 13) = bin 32 params.MAGIC_NUMBER.toNat ++ bin 32 params.SEL_TREE.toNat ++ (bin 32 32 ++ bin 8 0x26) ∧
    ¬ ValidTreeHeader (bin 32 32 ++ bin 8 0x26) ∧ ValidTreeHeader ((bin 32 32 ++ bin 8 0x26) ++ bitsOf [0x2C, 0x02, 0x61]) := by
  refine ⟨by decide +kernel, ?_, aaabTree, [], by decide, by unfold EofTree; decide, by decide +kernel⟩
  rintro ⟨u, rest, -, -, h⟩
  rw [headerTree, List.append_assoc] at h
  obtain ⟨h1, h2⟩ := List.append_inj h (by simp)
  have h3 := congrArg List.length h2
  rw [List.length_append, bin_length] at h3
  have := bin_injective (by decide) (by omega) h1
  omega

/-- R178: there END is HEADER_CORRUPTION and FAIL is STREAM_READ_FAILURE. -/
theorem test_header_cut_in_the_tree :
    [Terminator.eos, .fail].map (fun x => (after (exec (.decompress false) (presented ⟨aaabStream.take 13, some x⟩))).map
      (fun t => (t.out, t.errcode, t.result, t.inCur.bytes))) = [some ([], 3, 0, []), some ([], 1, 0, [])] := by decide +kernel

/-- The positions at which TAKE tests its bound, at its boundary: no bit, one bit, and nine bits left. -/
theorem witness_TakeTestsItsBound :
    (running (.read 0 0 .treeLen) ⟨[], some .fail⟩).phase = .busy (.read 0 0 .treeLen) ∧
    (∀ p : ParseState, (running (.read 0 0 (.token p)) ⟨[], some .fail⟩).phase = .busy (.read 0 0 (.token p))) ∧
    (∃ p : ParseState, ParseOk p ∧ p.T < p.c + 2 ∧ p.T < p.c + 10) :=
  ⟨rfl, fun _ => rfl, { T := 1, c := 0, ni := 0, seen := [], stack := [] }, ⟨by decide, by decide, by simp [openLeaves]⟩, by decide, by decide⟩

/-- R178: T = 0 with a FAIL terminator is HEADER_CORRUPTION and not STREAM_READ_FAILURE; the byte after the length field is unread. -/
theorem test_take_bound_before_read :
    [some Terminator.fail, some .eos, none].map (fun x => (after (exec (.decompress false) (presented ⟨zeroLength, x⟩))).map
      (fun t => (t.out, t.errcode, t.result, t.inCur.bytes)))
    = [some ([], 3, 0, [0x2A]), some ([], 3, 0, [0x2A]), some ([], 3, 0, [0x2A])] := by decide +kernel

/-- No header bit at all, and all of them but the last byte, with each terminator. -/
theorem witness_CountsHeaderCutShort : ∀ x : Terminator,
    Ready (presented ⟨[0x4D, 0x41, 0x47, 0x49, 0xC0, 0, 0, 1], some x⟩) ⟨[0x4D, 0x41, 0x47, 0x49, 0xC0, 0, 0, 1], some x⟩ ∧
    bitsOf [0x4D, 0x41, 0x47, 0x49, 0xC0, 0, 0, 1] = bin 32 params.MAGIC_NUMBER.toNat ++ bin 32 params.SEL_COUNTS.toNat ++ [] ∧
    bitsOf ([0x4D, 0x41, 0x47, 0x49, 0xC0, 0, 0, 1] ++ List.replicate 1023 0)
      = bin 32 params.MAGIC_NUMBER.toNat ++ bin 32 params.SEL_COUNTS.toNat ++ bitsOf (List.replicate 1023 0) ∧
    (bitsOf (List.replicate 1023 0)).length < 8192 :=
  fun _ => ⟨presented_ready _, by decide +kernel, by rw [bitsOf_append]; congr 1, by
    rw [bitsOf_length, List.length_replicate]; decide⟩

/-- A stream that ends inside the code of "b" or of PSEUDO_EOF. -/
theorem witness_TruncatedDataIsReported : ∀ x : Terminator,
    Ready (presented ⟨aaabStream.take 16 ++ [0xFE], some x⟩) ⟨aaabStream.take 16 ++ [0xFE], some x⟩ ∧
    Describes params (bin 32 params.SEL_TREE.toNat ++ headerTree aaabTree) aaabTree.unweighted ∧
    (∃ l r w, aaabTree.unweighted.follow [false] = some (.node l r w)) ∧
    bitsOf (aaabStream.take 16 ++ [0xFE]) = bin 32 params.MAGIC_NUMBER.toNat ++ (bin 32 params.SEL_TREE.toNat ++ headerTree aaabTree)
      ++ (List.replicate 7 (0x61 : Byte)).flatMap aaabCode ++ [false] :=
  fun _ => ⟨presented_ready _, aaab_describes, ⟨_, _, _, rfl⟩, by decide +kernel⟩

theorem witness_RoundTripReproducesTheInput : Ready (presented ⟨aaab, some .eos⟩) ⟨aaab, some .eos⟩ ∧ CountsFit aaab :=
  ⟨presented_ready _, aaab_fits⟩

/-- Two states that differ in everything a command must not look at. -/
theorem witness_NothingCarriesOverButThePlan :
    Ready (presented ⟨aaab, some .eos⟩) ⟨aaab, some .eos⟩ ∧
    Ready (planned .counts (countOf [0x7A]) ⟨aaab, some .eos⟩) ⟨aaab, some .eos⟩ ∧
    (presented ⟨aaab, some .eos⟩).params = (planned .counts (countOf [0x7A]) ⟨aaab, some .eos⟩).params ∧
    (Instr.decompress false).WellFormed ∧ ¬ ∃ force, Instr.decompress false = .compress force :=
  ⟨presented_ready _, planned_ready _ _ _, rfl, by decide, by simp⟩

theorem witness_CommandFrames : (presented Stream.unsupplied).busy = false ∧ (running .symbols ⟨[], none⟩).busy = true ∧
    (Instr.compress true).wellFormed = true ∧ (Instr.decompress true).wellFormed = false := ⟨rfl, rfl, rfl, rfl⟩

theorem witness_EveryStepKeepsTheInvariant : (planned .tree (countOf aaab) ⟨aaab, some .eos⟩).Inv := planned_inv _ _ _

theorem witness_EveryCommandCompletes : Ready (presented ⟨aaab, some .eos⟩) ⟨aaab, some .eos⟩ := presented_ready _

/-- PREPROCESS with two bytes supplied and no terminator waits. -/
theorem waits : ∃ t, exec (.preprocess .tree) (presented ⟨[0x61, 0x61], none⟩) = .next t ∧ t.busy = true :=
  ⟨_, rfl, by decide +kernel⟩

theorem witness_WaitsOnlyForItsStream : Ready (presented ⟨[0x61, 0x61], none⟩) ⟨[0x61, 0x61], none⟩ ∧
    ∃ t, exec (.preprocess .tree) (presented ⟨[0x61, 0x61], none⟩) = .next t ∧ t.busy = true := ⟨presented_ready _, waits⟩

/-- A command that ends within the first part of its stream, whose terminator is not supplied yet. -/
theorem ends_early : ∃ t, exec (.decompress false) (presented ⟨aaabStream, none⟩) = .next t ∧ t.busy = false :=
  ⟨_, rfl, by decide +kernel⟩

theorem witness_SplitSupplyIsTheSameAsWhole :
    (Ready (presented ⟨[0x61, 0x61], none⟩) ⟨[0x61, 0x61], none⟩ ∧
      ∃ t, exec (.preprocess .tree) (presented ⟨[0x61, 0x61], none⟩) = .next t ∧ t.busy = true) ∧
    (Ready (presented ⟨aaabStream, none⟩) ⟨aaabStream, none⟩ ∧ (Instr.decompress false).WellFormed ∧
      ∃ t, exec (.decompress false) (presented ⟨aaabStream, none⟩) = .next t ∧ t.busy = false) :=
  ⟨⟨presented_ready _, waits⟩, presented_ready _, by decide, ends_early⟩

theorem witness_PaceDoesNotMatter : Ready (presented ⟨aaab, some .eos⟩) ⟨aaab, some .eos⟩ ∧
    ∃ t, exec (.preprocess .tree) (presented ⟨aaab, some .eos⟩) = .next t := ⟨presented_ready _, _, rfl⟩

theorem witness_StatusChangesOnlyAtCompletion : (run 3 (running (.emit [true, true, true, true] .toSymbols) ⟨[], none⟩)).busy = true := by
  decide +kernel

theorem witness_DeliveredBytesAndParametersStay : ∃ t, step ((presented Stream.unsupplied).withFetchWord 32 0x11) = .next t :=
  ⟨_, rfl⟩

/-- A PREPROCESS word as the next event changes the plan. -/
theorem witness_PlanChangesOnlyByPreprocessOrReset :
    ∃ t, step ((presented ⟨aaab, some .eos⟩).withFetchWord 32 0x11) = .next t ∧
      t.plan ≠ ((presented ⟨aaab, some .eos⟩).withFetchWord 32 0x11).plan := ⟨_, rfl, by decide +kernel⟩

end Sys2Proof.Tests
end

/-! The invariant over the whole machine: the reset state meets it, and every step keeps it (R6, R23 to R26, R30, R33, R84, R85). -/

namespace Sys2Proof.Machine

/-! ### Reset -/

/-- R6, by the construction of the tree selector (assumption log 2): no word is its own complement. -/
theorem config_params_distinct : Config.params.Distinct := by
  show Config.SEL_COUNTS ≠ Config.SEL_TREE
  unfold Config.SEL_TREE
  split
  · simp
  · rename_i hne
    exact Ne.symm hne

/-- The block after the reset input (R300): IDLE, so no position is to be justified, and with no plan. -/
theorem resetBlock_inv {s : State} (h : s.params.Distinct) : (resetBlock s).Inv where
  params := h
  status := { exclusive := fun _ => rfl, err := rfl, produced := Nat.zero_le _, running := fun _ => ⟨rfl, rfl⟩ }
  ports := { acc := Nat.zero_lt_succ 7, nout := rfl, br := Nat.zero_lt_succ 7 }
  plan := fun hv => by simp [Plan.reset] at hv
  pos := fun p hp => by simp at hp

theorem reset_inv : State.reset.Inv := resetBlock_inv (s := State.reset) config_params_distinct

/-! ### Commands -/

/-- The outcome is a next state that meets the invariant. -/
def AnswersInv (o : Host.Outcome State Fault Refusal) : Prop := ∃ t, o = .next t ∧ t.Inv

theorem answersInv_next {t : State} (h : t.Inv) : AnswersInv (.next t) := ⟨t, rfl, h⟩

theorem answersInv_progress {s : State} (h : s.Inv) : AnswersInv (.next (progress s)) :=
  answersInv_next (progress_inv h)

/-- R83: the acceptance has reset BW and BR, so the error entry finds the ports as they must be. -/
theorem illegalCommand_inv {s : State} (h : s.Inv) : (illegalCommand s).Inv :=
  raise_inv .illegalCommand h.params rfl (Nat.zero_lt_succ 7) h.plan

theorem command_answersInv {s : State} (h : s.Inv) {p : Pos} (hp : ∀ u, PosOk u p) : AnswersInv (command p s) := by
  unfold command
  split
  · exact answersInv_next h
  · exact answersInv_progress (accepted_inv h hp)

theorem exec_answersInv {s : State} (h : s.Inv) (i : Instr) : AnswersInv (exec i s) := by
  rcases exec_cases i with ⟨p, hp, -, e⟩ | rfl
  · rw [e]
    exact command_answersInv h hp
  · show AnswersInv (if s.busy then .next s else .next (illegalCommand s))
    split
    · exact answersInv_next h
    · exact answersInv_next (illegalCommand_inv h)

/-! ### The events of the host -/

theorem writeCmd_answersInv {s : State} (h : s.Inv) (w : Word) : AnswersInv (writeCmd w s) := by
  unfold writeCmd
  split
  · exact answersInv_progress h
  · split
    · exact exec_answersInv h _
    · exact answersInv_next (illegalCommand_inv h)

theorem writeWindow_answersInv {s : State} (h : s.Inv) (off size : Nat) (v : Word) :
    AnswersInv (writeWindow off size v s) := by
  unfold writeWindow
  split
  · exact writeCmd_answersInv h v
  · exact answersInv_progress h

theorem hostRead_inv {s : State} (h : s.Inv) (off size : Nat) : (hostRead off size s).Inv :=
  around_inv h (readWindow s off size) s.events s.pace s.inNext

theorem waitTurn_inv {s : State} (h : s.Inv) : (waitTurn s).Inv := by
  cases hb : s.busy with
  | true =>
    rw [waitTurn_busy hb]
    exact around_inv h _ _ _ s.inNext
  | false =>
    rw [waitTurn_done hb]
    exact around_inv h _ s.events s.pace s.inNext

theorem supplyMore_inv {s : State} (h : s.Inv) (bytes : List Byte) (term : Option Terminator) :
    (supplyMore bytes term s).Inv := by
  unfold supplyMore
  split
  · exact withInCur_inv h _
  · exact h

/-- Whatever lands next, the block answers a next state and keeps the invariant (R20, R60, R73, R300). -/
theorem act_answersInv {s : State} (h : s.Inv) (e : Event) : AnswersInv (act e s) := by
  cases e with
  | write off size v => exact writeWindow_answersInv h off size v
  | read off size => exact answersInv_progress (hostRead_inv h off size)
  | busWrite addr size v =>
    simp only [act]
    split
    · exact writeWindow_answersInv h _ size v
    · exact answersInv_progress h
  | busRead addr size =>
    simp only [act]
    split
    · exact answersInv_progress (hostRead_inv h _ size)
    · exact answersInv_progress h
  | wait => exact answersInv_progress (waitTurn_inv h)
  | present st => exact answersInv_progress (around_inv h s.rdata s.events s.pace st)
  | supply bytes term => exact answersInv_progress (supplyMore_inv h bytes term)
  | reset => exact answersInv_next (resetBlock_inv h.params)
  | pass => exact answersInv_progress h

/-- One step: the block alone, or the next event with the surroundings it finds (R73, R321). -/
theorem step_answersInv {s : State} (h : s.Inv) : AnswersInv (step s) := by
  unfold step advance
  split
  · exact answersInv_next (run_inv _ h)
  · exact act_answersInv (around_inv h s.rdata _ _ s.inNext) _

/-! ### The obligations -/

/-- Settles O51: the reset state is the block after the reset input, with parameters that R6 makes distinct. -/
theorem resetHasTheInvariant : Obligations.ResetHasTheInvariant := reset_inv

/-- Settles O52, by cases on the next event; the block steps that follow it keep the invariant position by position (posStep_inv). -/
theorem everyStepKeepsTheInvariant : Obligations.EveryStepKeepsTheInvariant := fun _ h => step_answersInv h

end Sys2Proof.Machine

/-! The command port and the registers as the host sees them, and what each command and each step leaves unchanged (R21 to R26, R29,
R33, R66, R72, R217). -/

namespace Sys2Proof.Machine

/-! ### The step and the command port -/

/-- R61: the accesses that reach CMD. -/
theorem regAt_eq_cmd {off size : Nat} : regAt off size = some .CMD ↔ off = 0 ∧ size = 4 := by
  constructor
  · intro h
    unfold regAt at h
    split at h
    next hsize =>
      split at h
      · exact ⟨rfl, hsize⟩
      all_goals cases h
    · cases h
  · rintro ⟨rfl, rfl⟩
    rfl

/-- R61: a bus address in the window is CORE_BASE plus the offset it reaches. -/
theorem windowOffset_eq_some {p : Params} {addr off : Nat} (h : windowOffset p addr = some off) : addr = p.CORE_BASE + off := by
  unfold windowOffset at h
  split at h
  · obtain rfl : addr - p.CORE_BASE = off := by simpa using h
    omega
  · cases h

theorem writeCmd_busy {s : State} (h : s.busy = true) (w : Word) : writeCmd w s = .next (progress s) := by
  simp [writeCmd, h]

theorem writeCmd_ok {s : State} {w : Word} {i : Instr} (h : s.busy = false) (hd : decode w = .ok i) :
    writeCmd w s = exec i s := by
  simp [writeCmd, h, hd]

theorem writeCmd_error {s : State} {w : Word} {e : IllegalWord} (h : s.busy = false) (hd : decode w = .error e) :
    writeCmd w s = .next (illegalCommand s) := by
  simp [writeCmd, h, hd]

/-- R72: a write that does not reach CMD is the same as no access. -/
theorem writeWindow_other {off size : Nat} (h : ¬ (off = 0 ∧ size = 4)) (v : Word) (s : State) :
    writeWindow off size v s = .next (progress s) := by
  unfold writeWindow
  split
  · exact absurd (regAt_eq_cmd.1 ‹_›) h
  · rfl

theorem step_cons {s : State} {e : Timed} {rest : List Timed} (h : s.events = e :: rest) :
    step s = act e.event { s with events := rest, pace := e.pace } := by
  simp [step, advance, h]

theorem step_nil {s : State} (h : s.events = []) : step s = .next (run (horizon s) s) := by
  simp [step, advance, h]

/-- R22, R73: a step whose event writes a legal word to the CMD of an IDLE block runs the command. -/
theorem step_write_cmd {s : State} {w : Word} {i : Instr} (p : Option Nat) (rest : List Timed) (hidle : s.phase = .idle)
    (hd : decode w = .ok i) :
    step { s with events := { event := .write 0 4 w, pace := p } :: rest } = exec i { s with events := rest, pace := p } :=
  (step_cons (e := { event := .write 0 4 w, pace := p }) rfl).trans (writeCmd_ok (busy_of_idle hidle) hd)

theorem decode_of_decodeTableWord {nbits w : Nat} {i : Instr} (h : decodeTableWord nbits w = some i) :
    decode (BitVec.ofNat 32 (w % 2 ^ nbits)) = .ok i := by
  unfold decodeTableWord at h
  split at h
  · rename_i hd
    rw [hd, Option.some.inj h]
  · cases h

/-! ### The fields of a command word (R80) -/

theorem fieldOP_toNat (w : Word) : (fieldOP w).toNat = w.toNat % 16 := by
  simp [fieldOP]

theorem fieldA_iff (w : Word) : fieldA w = true ↔ w.toNat / 16 % 2 = 1 := by
  simp [fieldA, BitVec.getLsbD, Nat.testBit_eq_decide_div_mod_eq]

theorem fieldRES_toNat (w : Word) : (fieldRES w).toNat = w.toNat / 32 := by
  rw [fieldRES, BitVec.extractLsb'_toNat, Nat.shiftRight_eq_div_pow]
  omega

/-- Settles O5: a legal word for CMD as the first event of an IDLE block is run (step_write_cmd), withFetchWord puts one there, and
with no event the block runs alone. -/
theorem stepRunsTheDecodedCommand : Obligations.StepRunsTheDecodedCommand :=
  ⟨fun _ _ _ p rest hidle hd => step_write_cmd p rest hidle hd,
    fun s _ _ _ hd => step_write_cmd (s := { s with phase := .idle }) none s.events rfl (decode_of_decodeTableWord hd),
    fun _ => step_nil⟩

/-- Settles O6: the three cases of writeCmd, and the value of each field of the word. -/
theorem cmdIsTheCommandPort : Obligations.CmdIsTheCommandPort :=
  ⟨fun _ _ _ => writeCmd_ok, fun _ _ _ => writeCmd_error, fun _ w hb => writeCmd_busy hb w, fun _ => rfl,
    fun w => ⟨fieldOP_toNat w, fieldA_iff w, fieldRES_toNat w⟩⟩

/-! ### The registers and the reset state -/

/-- R23: STATUS bit by bit, from bit 0 on; the bits past the list are 0. -/
theorem status_getLsbD (s : State) (i : Nat) :
    s.status.getLsbD i = [s.busy, s.done, s.err, s.plan.valid, s.planFmt].getD i false := by
  unfold State.status
  rw [BitVec.getLsbD_append (n := 31) (m := 1), BitVec.getLsbD_append (n := 30) (m := 1),
    BitVec.getLsbD_append (n := 29) (m := 1), BitVec.getLsbD_append (n := 28) (m := 1),
    BitVec.getLsbD_append (n := 27) (m := 1)]
  match i with
  | 0 | 1 | 2 | 3 | 4 => simp
  | i + 5 => simp

/-- R23: with no flag set and no valid plan STATUS reads 0. -/
theorem status_eq_zero {s : State} (hbusy : s.busy = false) (hdone : s.done = false) (herr : s.err = false)
    (hvalid : s.plan.valid = false) : s.status = 0 := by
  simp [State.status, State.planFmt, hbusy, hdone, herr, hvalid]

theorem errcode_readReg_toNat (s : State) : (readReg s .ERRCODE).toNat = s.errcode.toNat :=
  BitVec.toNat_setWidth_of_le (by decide)

/-- Settles O8: each register of the window is readReg's, STATUS bit by bit (status_getLsbD). -/
theorem registersReadAsSpecified : Obligations.RegistersReadAsSpecified := by
  intro s
  have status : readWindow s 0x04 4 = s.status := rfl
  simp only [status, status_getLsbD]
  exact ⟨rfl, rfl, rfl, rfl, rfl, rfl, fun i hi => List.getD_eq_default _ _ hi, errcode_readReg_toNat s,
    BitVec.extractLsb'_append_extractLsb' .., rfl, rfl, rfl⟩

/-- Settles O50: the registers read the reset state's own fields, and the three IDs its parameters. -/
theorem resetState : Obligations.ResetState :=
  ⟨rfl, status_eq_zero rfl rfl rfl rfl, rfl, rfl, rfl, rfl, rfl, rfl, rfl⟩

/-! ### What a command leaves unchanged -/

theorem outsideKept_refl (s : State) : OutsideKept s s := ⟨rfl, rfl, rfl, rfl⟩

theorem command_busy {s : State} (h : s.busy = true) (p : Pos) : command p s = .next s := by
  simp [command, h]

/-- A command accepted (R84, R66) is followed by a run of the block, whatever the pace. -/
theorem command_accepted {s : State} (h : s.busy = false) (p : Pos) :
    ∃ n, command p s = .next (run n (takeStream (accept p s))) := by
  obtain ⟨n, hn⟩ := progress_eq_run (takeStream (accept p s))
  exact ⟨n, by simp [command, h, hn]⟩

/-- A run from a command's acceptance keeps what is outside and what was delivered, and the presented stream is used up. -/
theorem run_accepted_frame (n : Nat) (p : Pos) (s : State) :
    OutsideKept s (run n (takeStream (accept p s))) ∧ s.out <+: (run n (takeStream (accept p s))).out ∧
      (run n (takeStream (accept p s))).inNext = Stream.unsupplied := by
  obtain ⟨hout, hparams⟩ := run_out_params n (takeStream (accept p s))
  obtain ⟨hrdata, hevents, hpace, hnext⟩ := run_surroundings n (takeStream (accept p s))
  exact ⟨⟨hparams, hrdata, hevents, hpace⟩, hout, hnext⟩

/-- The frame of a command at its first line p, with whatever else its own runs keep. -/
theorem command_frame (p : Pos) (s : State) {Keeps : State → Prop} (ignored : s.busy = true → Keeps s)
    (accepted : s.busy = false → ∀ n, Keeps (run n (takeStream (accept p s)))) :
    ∃ t, command p s = .next t ∧ OutsideKept s t ∧ s.out <+: t.out ∧ (s.busy = true → t = s) ∧
      (s.busy = false → t.inNext = Stream.unsupplied) ∧ Keeps t := by
  cases hb : s.busy with
  | true => exact ⟨s, command_busy hb p, outsideKept_refl s, List.prefix_rfl, fun _ => rfl, nofun, ignored hb⟩
  | false =>
    obtain ⟨n, hn⟩ := command_accepted hb p
    obtain ⟨houtside, hout, hnext⟩ := run_accepted_frame n p s
    exact ⟨_, hn, houtside, hout, nofun, fun _ => hnext, accepted hb n⟩

theorem illegalCommand_outside (s : State) : OutsideKept s (illegalCommand s) := ⟨rfl, rfl, rfl, rfl⟩

/-- R83: the ill-formed DECOMPRESS completes with ILLEGAL_COMMAND, or is ignored while BUSY = 1. -/
theorem exec_decompress_true (s : State) :
    exec (.decompress true) s = .next (if s.busy then s else illegalCommand s) := by
  show (if s.busy then Host.Outcome.next s else .next (illegalCommand s)) = _
  split <;> rfl

/-- Settles O49, by the command: each is a run from its first line in which only its own part of the block moves, and the ill-formed
DECOMPRESS is the completion of an illegal word. -/
theorem commandFrames : Obligations.CommandFrames := by
  intro i s
  cases i with
  | preprocess fmt =>
    refine command_frame (.preprocess fmt) s (fun hb => ⟨rfl, rfl, rfl, by simp [hb]⟩) (fun _ n => ?_)
    obtain ⟨hdec, hout, -, hbr, -⟩ := preprocess_run n (s := takeStream (accept (.preprocess fmt) s)) (within_busy rfl rfl)
    exact ⟨hdec, hout, by rw [hbr]; rfl, fun _ => by rw [hbr]; rfl⟩
  | compress force =>
    refine command_frame (.compress force) s (fun hb => ⟨rfl, rfl, rfl, by simp [hb]⟩) (fun _ n => ?_)
    obtain ⟨hplan, hdec, -, -, hbr⟩ := compress_run n (s := takeStream (accept (.compress force) s)) (within_busy rfl rfl)
    exact ⟨hplan, hdec, by rw [hbr]; rfl, fun _ => by rw [hbr]; rfl⟩
  | decompress a =>
    cases a with
    | false =>
      refine command_frame .decompress s (fun _ => rfl) (fun _ n => ?_)
      exact (decompress_run n (s := takeStream (accept .decompress s)) (within_busy rfl rfl)).1
    | true =>
      refine ⟨_, exec_decompress_true s, ?_⟩
      cases hb : s.busy with
      | true => exact ⟨outsideKept_refl s, List.prefix_rfl, fun _ => rfl, nofun, rfl⟩
      | false => exact ⟨illegalCommand_outside s, List.prefix_rfl, nofun, fun _ => rfl, rfl⟩

/-! ### What can change the plan -/

/-- A PREPROCESS is running and has not reached its return (R210). -/
def State.preprocessing (s : State) : Prop :=
  ∃ fmt, s.phase = .busy (.preprocess fmt) ∨ ∃ n, s.phase = .busy (.count fmt n)

/-- A state in which no PREPROCESS is running is within one of the commands that leave the plan alone. -/
theorem within_of_not_preprocessing {s : State} (h : ¬ s.preprocessing) :
    Within Pos.ofCompress s ∨ Within Pos.ofDecompress s := by
  rcases within_some s with w | w
  · cases hp : s.phase with
    | idle => exact .inl (within_idle hp)
    | busy p =>
      rw [Within, hp] at w
      match p, w with
      | .preprocess fmt, _ => exact absurd ⟨fmt, .inl hp⟩ h
      | .count fmt n, _ => exact absurd ⟨fmt, .inr ⟨n, hp⟩⟩ h
      | .ret _, _ => exact .inl (within_ret hp)
  · exact w

/-- Block steps change the plan only while a PREPROCESS runs (R26, R29, R225). -/
theorem run_plan {s : State} (h : ¬ s.preprocessing) (n : Nat) : (run n s).plan = s.plan := by
  rcases within_of_not_preprocessing h with w | w
  · exact (compress_run n w).1
  · exact (decompress_run n w).1

theorem progress_plan {s : State} (h : ¬ s.preprocessing) : (progress s).plan = s.plan := by
  obtain ⟨n, hn⟩ := progress_eq_run s
  rw [hn, run_plan h]

theorem waitTurn_frame (s : State) : (waitTurn s).phase = s.phase ∧ (waitTurn s).plan = s.plan := by
  cases hb : s.busy with
  | true => rw [waitTurn_busy hb]; exact ⟨rfl, rfl⟩
  | false => rw [waitTurn_done hb]; exact ⟨rfl, rfl⟩

theorem supplyMore_frame (bytes : List Byte) (term : Option Terminator) (s : State) :
    (supplyMore bytes term s).phase = s.phase ∧ (supplyMore bytes term s).plan = s.plan := by
  unfold supplyMore
  split <;> exact ⟨rfl, rfl⟩

/-- An access that moves neither the phase nor the plan (u, from s) lets the block steps after it change the plan only while a
PREPROCESS runs in s. -/
theorem preprocessing_of_progress {s u t : State}
    (h : (.next (progress u) : Host.Outcome State Fault Refusal) = .next t) (hc : t.plan ≠ s.plan)
    (hphase : u.phase = s.phase) (hplan : u.plan = s.plan) : s.preprocessing := by
  cases h
  by_contra hn
  have hu : ¬ u.preprocessing := by rwa [State.preprocessing, hphase]
  exact hc ((progress_plan hu).trans hplan)

/-- R26: of the commands only PREPROCESS changes the plan. -/
theorem exec_changes_plan {i : Instr} {s t : State} (h : exec i s = .next t) (hc : t.plan ≠ s.plan) :
    ∃ fmt, i = .preprocess fmt := by
  obtain ⟨u, hu, -, -, -, -, hframe⟩ := commandFrames i s
  obtain rfl : u = t := by simpa [hu] using h
  cases i with
  | preprocess fmt => exact ⟨fmt, rfl⟩
  | compress _ => exact absurd hframe.1 hc
  | decompress _ => exact absurd hframe hc

/-- R26: a write to the window that changes the plan is a PREPROCESS word for CMD, or finds a PREPROCESS running. -/
theorem writeWindow_changes_plan {off size : Nat} {w : Word} {s t : State} (h : writeWindow off size w s = .next t)
    (hc : t.plan ≠ s.plan) :
    (s.busy = false ∧ off = 0 ∧ size = 4 ∧ ∃ fmt, decode w = .ok (.preprocess fmt)) ∨ s.preprocessing := by
  by_cases hcmd : off = 0 ∧ size = 4
  · obtain ⟨rfl, rfl⟩ := hcmd
    change writeCmd w s = .next t at h
    cases hb : s.busy with
    | true =>
      rw [writeCmd_busy hb] at h
      exact .inr (preprocessing_of_progress h hc rfl rfl)
    | false =>
      cases hd : decode w with
      | ok i =>
        rw [writeCmd_ok hb hd] at h
        obtain ⟨fmt, rfl⟩ := exec_changes_plan h hc
        exact .inl ⟨rfl, rfl, rfl, fmt, rfl⟩
      | error e =>
        rw [writeCmd_error hb hd] at h
        cases h
        exact absurd rfl hc
  · rw [writeWindow_other hcmd] at h
    exact .inr (preprocessing_of_progress h hc rfl rfl)

/-- R26, R217: an event that changes the plan is reset or a PREPROCESS word for CMD, or finds a PREPROCESS running. -/
theorem act_changes_plan {e : Event} {s t : State} (h : act e s = .next t) (hc : t.plan ≠ s.plan) :
    e = .reset ∨
    (s.busy = false ∧ ∃ off size w fmt, (e = .write off size w ∨ e = .busWrite (s.params.CORE_BASE + off) size w) ∧
      off = 0 ∧ size = 4 ∧ decode w = .ok (.preprocess fmt)) ∨
    s.preprocessing := by
  cases e with
  | reset => exact .inl rfl
  | write off size w =>
    rcases writeWindow_changes_plan h hc with ⟨hb, hoff, hsize, fmt, hd⟩ | hp
    · exact .inr (.inl ⟨hb, off, size, w, fmt, .inl rfl, hoff, hsize, hd⟩)
    · exact .inr (.inr hp)
  | busWrite addr size w =>
    simp only [act] at h
    split at h
    next off hwin =>
      obtain rfl := windowOffset_eq_some hwin
      rcases writeWindow_changes_plan h hc with ⟨hb, hoff, hsize, fmt, hd⟩ | hp
      · exact .inr (.inl ⟨hb, off, size, w, fmt, .inr rfl, hoff, hsize, hd⟩)
      · exact .inr (.inr hp)
    next => exact .inr (.inr (preprocessing_of_progress h hc rfl rfl))
  | busRead addr size =>
    simp only [act] at h
    split at h
    · exact .inr (.inr (preprocessing_of_progress h hc rfl rfl))
    · exact .inr (.inr (preprocessing_of_progress h hc rfl rfl))
  | wait => exact .inr (.inr (preprocessing_of_progress h hc (waitTurn_frame s).1 (waitTurn_frame s).2))
  | supply bytes term =>
    exact .inr (.inr (preprocessing_of_progress h hc (supplyMore_frame bytes term s).1 (supplyMore_frame bytes term s).2))
  | read _ _ | present _ | pass => exact .inr (.inr (preprocessing_of_progress h hc rfl rfl))

/-- Settles O60, by the next event (act_changes_plan); with none the block runs alone, and only a PREPROCESS changes the plan then. -/
theorem planChangesOnlyByPreprocessOrReset : Obligations.PlanChangesOnlyByPreprocessOrReset := by
  intro s t h hc
  cases he : s.events with
  | nil =>
    rw [step_nil he] at h
    cases h
    exact .inr (.inr (by_contra fun hn => hc (run_plan hn _)))
  | cons e rest =>
    rw [step_cons he] at h
    rcases act_changes_plan h hc with hreset | ⟨hb, off, size, w, fmt, hevent, hcmd⟩ | hp
    · exact .inl ⟨e, rest, rfl, hreset⟩
    · exact .inr (.inl ⟨hb, e, rest, off, size, w, fmt, rfl, hevent, hcmd⟩)
    · exact .inr (.inr hp)

end Sys2Proof.Machine

/-! The register window's accesses without an effect, the ports' bit strings, and what a step keeps of the status, OUT and the
parameters (R21, R24, R25, R61, R64 to R69, R72, R73); a command's outcome depends on nothing but its stream and, for COMPRESS, the
plan (R29, R66, R225). -/

namespace Sys2Proof.Machine

/-! ### Accesses without an effect -/

/-- R61: an access that is not 32 bits wide, not aligned, or outside the 32 bytes reaches no register. -/
theorem regAt_eq_none {off size : Nat} (h : ¬ (size = 4 ∧ off % 4 = 0 ∧ off < 32)) : regAt off size = none := by
  unfold regAt
  split
  next hsize =>
    split
    iterate 8 exact absurd ⟨hsize, by decide, by decide⟩ h
    rfl
  next => rfl

/-- R61: a read that reaches no register returns 0. -/
theorem readWindow_eq_zero {off size : Nat} (h : ¬ (size = 4 ∧ off % 4 = 0 ∧ off < 32)) (s : State) :
    readWindow s off size = 0 := by
  simp [readWindow, regAt_eq_none h]

/-- R61: the window is the 32 bytes from CORE_BASE on. -/
theorem windowOffset_base_add (p : Params) {off : Nat} (h : off < 32) : windowOffset p (p.CORE_BASE + off) = some off := by
  simp [windowOffset, h]

/-- Settles O7: such an access reaches no register (regAt_eq_none), so a write is ignored and a read finds 0; a bus access in the
window is the access at its offset. -/
theorem otherAccessesHaveNoEffect : Obligations.OtherAccessesHaveNoEffect := by
  refine ⟨fun s off size v h => ⟨?_, ?_⟩, fun s off size v hoff => ⟨?_, ?_⟩⟩
  · exact writeWindow_other (by omega) v s
  · simp [act, hostRead, readWindow_eq_zero h]
  · simp [act, windowOffset_base_add s.params hoff]
  · simp [act, windowOffset_base_add s.params hoff]

/-- R72: no block step looks at the value the host read last. -/
theorem run_rdata (n : Nat) (s : State) (v : Word) : run n { s with rdata := v } = { run n s with rdata := v } := by
  obtain ⟨-, hevents, hpace, hnext⟩ := run_surroundings n s
  rw [show ({ s with rdata := v } : State) = s.around v s.events s.pace s.inNext from rfl, run_around, State.around,
    ← hevents, ← hpace, ← hnext]

theorem progress_of_some {s : State} {n : Nat} (h : s.pace = some n) : progress s = run n s := by simp [progress, h]

theorem progress_of_none {s : State} (h : s.pace = none) : progress s = run (horizon s) s := by simp [progress, h]

theorem progress_rdata (s : State) (v : Word) : progress { s with rdata := v } = { progress s with rdata := v } := by
  rcases Option.eq_none_or_eq_some s.pace with hpace | ⟨n, hpace⟩
  · rw [progress_of_none hpace, progress_of_none (s := { s with rdata := v }) hpace]
    exact run_rdata (horizon s) s v
  · rw [progress_of_some hpace, progress_of_some (s := { s with rdata := v }) hpace]
    exact run_rdata n s v

/-- Settles O9: the block steps after a read are those without it (progress_rdata), and only CMD takes a write (writeWindow_other). -/
theorem readsAndOtherWritesHaveNoSideEffect : Obligations.ReadsAndOtherWritesHaveNoSideEffect :=
  ⟨fun s off size => ⟨progress s, rfl, congrArg _ (progress_rdata s (readWindow s off size))⟩,
    fun s _ _ v hcmd => writeWindow_other hcmd v s⟩

/-! ### Reading and writing bit strings -/

/-- Settles O16: read_reaches, with the first n unread bits as those to take. -/
theorem readBitsTakesTheNextBits : Obligations.ReadBitsTakesTheNextBits := by
  intro s n k hports hphase hn
  have hlen : (s.unread.take n).length = n := List.length_take_of_le hn
  obtain ⟨br, r, ⟨m, hm⟩, hrest, hbr⟩ :=
    read_reaches (bits := s.unread.take n) (rest := s.unread.drop n) hports.br (by rwa [hlen]) (List.take_append_drop n _).symm
  rw [Nat.zero_mul, Nat.zero_add] at hm
  exact ⟨m, br, r, hm, hbr, hrest⟩

/-- R279: the block after the error entry. -/
theorem raise_ended (e : Err) (s : State) : Ended (raise e s) e.code s.bw.nout := ⟨rfl, rfl, rfl, rfl, rfl, rfl⟩

/-- Settles O17: the bits run out (read_exhausted), and the error entry carries the caller's error or STREAM_READ_FAILURE. -/
theorem shortReadsEndTheCommand : Obligations.ShortReadsEndTheCommand := by
  intro s n k x hports hphase hn hterm
  obtain ⟨br, p, ⟨m, hm⟩, -⟩ := read_exhausted hports.br hphase hn hterm
  refine ⟨m, _, hm, ?_, rfl, rfl, rfl, rfl, rfl, rfl, rfl, rfl⟩
  have hended := raise_ended (endError k x) ((s.moved br []).goto p)
  cases x with
  | fail => exact hended
  | eos => cases k <;> exact hended

/-- R67: of the bits pending before and those written, the first are the whole bytes delivered and the rest stay pending. -/
theorem Wrote.pending {s : State} {d : Bits} {o : List Byte} {bw : BitWriter} (h : Wrote s d (s.out ++ o) bw) :
    s.bw.acc ++ d = bitsOf o ++ bw.acc := by
  have hbits := h.bits
  simp only [State.written, bitsOf_append, List.append_assoc] at hbits
  exact (List.append_cancel_left hbits).symm

/-- R67, R69: WriteString(rest) reaches its end with the whole bytes o delivered. -/
theorem emit_delivers {rest : Bits} {s : State} {k : EmitCont} (h : s.bw.k < 8) (hp : s.phase = .busy (.emit rest k)) :
    ∃ o bw, Reaches s ((s.wrote (s.out ++ o) bw).goto (.emit [] k)) ∧ s.bw.acc ++ rest = bitsOf o ++ bw.acc ∧ bw.k < 8 ∧
      bw.nout = s.bw.nout + BitVec.ofNat 64 (8 * o.length) := by
  obtain ⟨_, bw, hreach, hwrote⟩ := emit_reaches h hp
  obtain ⟨o, rfl, hnout⟩ := hwrote.grew
  exact ⟨o, bw, hreach, hwrote.pending, hwrote.acc, hnout⟩

/-- Settles O18: emit_delivers. -/
theorem writtenBitsReachOut : Obligations.WrittenBitsReachOut := by
  intro s bits k hports hphase
  obtain ⟨o, bw, ⟨m, hm⟩, hbits, hacc, hnout⟩ := emit_delivers hports.acc hphase
  exact ⟨m, o, bw, hm, hbits, hacc, hnout⟩

/-- R68: with the zero bits of Flush the pending bits are whole bytes. -/
theorem flush_length_mod {bw : BitWriter} (h : bw.k < 8) : (bw.acc ++ flushBits bw).length % 8 = 0 := by
  simp only [BitWriter.k] at h
  simp only [flushBits, BitWriter.k, List.length_append, List.length_replicate]
  omega

/-- R67, R68: when all that was written is whole bytes, nothing stays pending. -/
theorem pending_eq_nil {o : List Byte} {bw : BitWriter} (h : bw.k < 8) (hmod : (bitsOf o ++ bw.acc).length % 8 = 0) :
    bw.acc = [] := by
  simp only [BitWriter.k] at h
  rw [List.length_append, bitsOf_length] at hmod
  exact List.eq_nil_of_length_eq_zero (by omega)

/-- Settles O19: one block step begins the zero bits, and as they complete a byte, nothing is left pending when they are written. -/
theorem flushPadsToAByte : Obligations.FlushPadsToAByte := by
  intro s hports hphase
  have hbegin : blockStep s = s.goto (.emit (flushBits s.bw) .toReturn) := by rw [blockStep_busy hphase]; rfl
  obtain ⟨o, ⟨acc, nout⟩, hreach, hbits, hacc, rfl⟩ :=
    emit_delivers (s := s.goto (.emit (flushBits s.bw) .toReturn)) hports.acc rfl
  obtain rfl : acc = [] := pending_eq_nil hacc (hbits ▸ flush_length_mod hports.acc)
  obtain ⟨m, hm⟩ := Reaches.of_step (s := s) (by rw [hbegin]; exact hreach)
  exact ⟨m, o, hm, by rw [← List.append_nil (bitsOf o), ← hbits]; rfl, by omega⟩

/-! ### What a step keeps -/

/-- Settles O57: a block that is still BUSY was BUSY, and its status is what it was (run_status). -/
theorem statusChangesOnlyAtCompletion : Obligations.StatusChangesOnlyAtCompletion := by
  intro s n hbusy
  cases hs : s.busy with
  | false =>
    rw [run_of_quiescent (quiescent_idle (busy_eq_false.1 hs)), hs] at hbusy
    cases hbusy
  | true =>
    obtain ⟨-, ⟨hidle, -⟩ | ⟨-, hstatus⟩⟩ := run_status n hs
    · rw [busy_of_idle hidle] at hbusy
      cases hbusy
    · exact hstatus

/-- The outcome is a next state with what s has delivered still delivered, and with the parameters of s. -/
def AnswersGrown (s : State) (o : Host.Outcome State Fault Refusal) : Prop :=
  ∃ t, o = .next t ∧ s.out <+: t.out ∧ t.params = s.params

theorem answersGrown_run (n : Nat) (s : State) : AnswersGrown s (.next (run n s)) := ⟨_, rfl, run_out_params n s⟩

theorem answersGrown_progress (s : State) : AnswersGrown s (.next (progress s)) := by
  obtain ⟨n, hn⟩ := progress_eq_run s
  rw [hn]
  exact answersGrown_run n s

theorem exec_answersGrown (i : Instr) (s : State) : AnswersGrown s (exec i s) := by
  obtain ⟨t, ht, houtside, hout, -⟩ := commandFrames i s
  exact ⟨t, ht, hout, houtside.params⟩

theorem writeCmd_answersGrown (w : Word) (s : State) : AnswersGrown s (writeCmd w s) := by
  unfold writeCmd
  split
  · exact answersGrown_progress s
  · split
    · exact exec_answersGrown _ s
    · exact ⟨illegalCommand s, rfl, List.prefix_rfl, rfl⟩

theorem writeWindow_answersGrown (off size : Nat) (v : Word) (s : State) : AnswersGrown s (writeWindow off size v s) := by
  unfold writeWindow
  split
  · exact writeCmd_answersGrown v s
  · exact answersGrown_progress s

theorem waitTurn_answersGrown (s : State) : AnswersGrown s (.next (progress (waitTurn s))) := by
  have h := answersGrown_progress (waitTurn s)
  cases hb : s.busy with
  | true => rw [waitTurn_busy hb] at h ⊢; exact h
  | false => rw [waitTurn_done hb] at h ⊢; exact h

theorem supplyMore_answersGrown (bytes : List Byte) (term : Option Terminator) (s : State) :
    AnswersGrown s (.next (progress (supplyMore bytes term s))) := by
  unfold supplyMore
  split
  · exact answersGrown_progress { s with inCur := s.inCur.supply bytes term }
  · exact answersGrown_progress s

/-- Whatever lands, nothing delivered is withdrawn and no parameter is written (R21, R69, R72, R301). -/
theorem act_answersGrown (e : Event) (s : State) : AnswersGrown s (act e s) := by
  cases e with
  | write off size v => exact writeWindow_answersGrown off size v s
  | read off size => exact answersGrown_progress (hostRead off size s)
  | busWrite addr size v =>
    simp only [act]
    split
    · exact writeWindow_answersGrown _ size v s
    · exact answersGrown_progress s
  | busRead addr size =>
    simp only [act]
    split
    · exact answersGrown_progress (hostRead _ size s)
    · exact answersGrown_progress s
  | wait => exact waitTurn_answersGrown s
  | present st => exact answersGrown_progress { s with inNext := st }
  | supply bytes term => exact supplyMore_answersGrown bytes term s
  | reset => exact ⟨resetBlock s, rfl, List.prefix_rfl, rfl⟩
  | pass => exact answersGrown_progress s

theorem step_answersGrown (s : State) : AnswersGrown s (step s) := by
  cases he : s.events with
  | nil => rw [step_nil he]; exact answersGrown_run _ s
  | cons e rest => rw [step_cons he]; exact act_answersGrown e.event { s with events := rest, pace := e.pace }

/-- Settles O59, by the next event (act_answersGrown); with none the block runs alone. -/
theorem deliveredBytesAndParametersStay : Obligations.DeliveredBytesAndParametersStay := by
  intro s t h
  obtain ⟨u, hu, hgrown⟩ := step_answersGrown s
  obtain rfl : u = t := by simpa [hu] using h
  exact hgrown

/-! ### What carries over between commands -/

/-- Two ready states with the same parameters and stream agree once the same command is accepted, if it can look at nothing else of
the plan and the decoder (R66, R84). -/
theorem sim_accepted {q : Bool} {s s' : State} {st : Stream} {p : Pos} (h : Ready s st) (h' : Ready s' st)
    (hparams : s.params = s'.params) (hplan : PlanSim q s.plan s'.plan p) (hdec : DecSim s.dec s'.dec p) :
    Sim q s.out s'.out (takeStream (accept p s)) (takeStream (accept p s')) where
  params := hparams
  phase := rfl
  done := rfl
  err := rfl
  errcode := rfl
  result := rfl
  bw := rfl
  brk := rfl
  cur := fun hk => absurd rfl hk
  inCur := h.stream.trans h'.stream.symm
  out := ⟨[], (List.append_nil _).symm, (List.append_nil _).symm⟩
  plan := hplan
  dec := hdec

/-- Two commands that agree at their acceptance agree where they end or wait: each run is continued to the longer of the two
horizons. -/
theorem sim_command {q : Bool} {x y : List Byte} {s s' : State} {st : Stream} {p : Pos} (h : Ready s st) (h' : Ready s' st)
    (hp : ∀ u, PosOk u p) (hsim : Sim q x y (takeStream (accept p s)) (takeStream (accept p s'))) :
    ∃ t t', command p s = .next t ∧ command p s' = .next t' ∧ t.quiescent = true ∧ Sim q x y t t' := by
  have hq := run_horizon_quiescent (accepted_inv h.inv hp)
  have hq' := run_horizon_quiescent (accepted_inv h'.inv hp)
  refine ⟨_, _, command_eq h p, command_eq h' p, hq, ?_⟩
  rw [← run_of_le (Nat.le_max_left _ (horizon (takeStream (accept p s')))) hq,
    ← run_of_le (Nat.le_max_right (horizon (takeStream (accept p s))) _) hq']
  exact sim_run _ hsim

/-- Where a PREPROCESS ends or waits, both plans are valid or neither is, and valid plans are the same (R210, R217). -/
theorem Sim.plan_of_quiescent {x y : List Byte} {t t' : State} (h : Sim true x y t t') (hq : t.quiescent = true) :
    t.plan.valid = t'.plan.valid ∧ (t.plan.valid = true → t.plan = t'.plan) := by
  have hplan := h.plan
  cases hphase : t.phase with
  | idle => rw [hphase] at hplan; exact hplan rfl
  | busy p =>
    rw [hphase] at hplan
    obtain ⟨hfetch, -⟩ := (quiescent_busy hphase).1 hq
    match p, hfetch, hplan with
    | .count _ _, _, ⟨hv, hv', _⟩ => exact ⟨hv.trans hv'.symm, by simp [hv]⟩
    | .symbols, _, ⟨hfalse, _⟩ => cases hfalse
    | .read (_ + 1) _ _, _, hfalse => cases hfalse

/-- Of the plans PREPROCESS looks at nothing, COMPRESS at the one both states hold, DECOMPRESS at nothing; none looks at the decoder
it finds, and only a PREPROCESS has its plan compared at the end (R29, R225). -/
theorem wellFormed_command_sim {i : Instr} {s s' : State} (hwf : i.WellFormed)
    (hplan : (∃ force, i = .compress force) → s.plan = s'.plan) :
    ∃ p q, (∀ u, exec i u = command p u) ∧ (∀ u, PosOk u p) ∧ PlanSim q s.plan s'.plan p ∧ DecSim s.dec s'.dec p ∧
      ((∃ fmt, i = .preprocess fmt) → q = true) := by
  cases i with
  | preprocess fmt => exact ⟨.preprocess fmt, true, fun _ => rfl, fun _ => trivial, trivial, trivial, fun _ => rfl⟩
  | compress force =>
    exact ⟨.compress force, false, fun _ => rfl, fun _ => trivial, ⟨rfl, hplan ⟨force, rfl⟩⟩, trivial, nofun⟩
  | decompress a =>
    cases a with
    | false => exact ⟨.decompress, false, fun _ => rfl, fun _ => trivial, rfl, trivial, nofun⟩
    | true => exact absurd hwf (by decide)

theorem Sim.busy {q : Bool} {x y : List Byte} {t t' : State} (h : Sim q x y t t') : t.busy = t'.busy := by
  simp [State.busy, h.phase]

/-- Settles O48: the two states agree at the command's acceptance on all it can look at (sim_accepted), so they agree at its end
(sim_command). -/
theorem nothingCarriesOverButThePlan : Obligations.NothingCarriesOverButThePlan := by
  intro i s s' st hwf h h' hparams hplan
  obtain ⟨p, q, hexec, hpos, hplanSim, hdecSim, hpre⟩ := wellFormed_command_sim hwf hplan
  obtain ⟨t, t', ht, ht', hq, hsim⟩ := sim_command h h' hpos (sim_accepted h h' hparams hplanSim hdecSim)
  obtain ⟨w, hout, hout'⟩ := hsim.out
  refine ⟨t, t', w, (hexec s).trans ht, (hexec s').trans ht', hout, hout', hsim.busy, hsim.done, hsim.err, hsim.errcode,
    hsim.result, hsim.inCur, fun hi => ?_⟩
  obtain rfl := hpre hi
  exact hsim.plan_of_quiescent hq

end Sys2Proof.Machine

/-! The command word and its illegal forms, the acceptance and completion of a command, the WAIT loop, and the stream COMPRESS writes
with its two headers (R80 to R86, R90 to R94, R170, R180, R220, R321). -/

namespace Sys2Proof.Machine

/-! ### The command word -/

/-- R80: the word with RES = 0, by its fields. -/
theorem commandWord_toNat (a : Bool) (op : BitVec 4) : (commandWord a op).toNat = 16 * a.toNat + op.toNat := by
  rw [commandWord, BitVec.toNat_append, ← Nat.shiftLeft_add_eq_or_of_lt op.isLt, BitVec.toNat_append, Nat.shiftLeft_eq]
  simp [Nat.mul_comm]

theorem fieldA_toNat (w : Word) : (fieldA w).toNat = w.toNat / 16 % 2 := by
  simp [fieldA, BitVec.getLsbD, Nat.toNat_testBit]

/-- R80: a word whose reserved bits are 0 is the one its two other fields make. -/
theorem eq_commandWord {w : Word} (h : fieldRES w = 0) : w = commandWord (fieldA w) (fieldOP w) := by
  have hres : w.toNat / 32 = 0 := by rw [← fieldRES_toNat, h]; rfl
  apply BitVec.eq_of_toNat_eq
  rw [commandWord_toNat, fieldA_toNat, fieldOP_toNat]
  omega

@[simp] theorem headerFormat_bit_ofBit (b : Bool) : (HeaderFormat.ofBit b).bit = b := by cases b <;> rfl

/-- Settles O2: one lemma per constructor of Instr (Laws.RoundTrip). -/
theorem decodeInvertsEncode : Obligations.DecodeInvertsEncode := by
  intro i
  cases i with
  | preprocess fmt => exact Laws.RoundTrip.preprocess fmt
  | compress force => exact Laws.RoundTrip.compress force
  | decompress a => exact Laws.RoundTrip.decompress a

/-- Settles O1: the five words are the encodings of the five commands. -/
theorem opcodeMapWordsDecode : Obligations.OpcodeMapWordsDecode :=
  ⟨decodeInvertsEncode (.preprocess .counts) rfl, decodeInvertsEncode (.preprocess .tree) rfl,
    decodeInvertsEncode (.compress false) rfl, decodeInvertsEncode (.compress true) rfl,
    decodeInvertsEncode (.decompress false) rfl⟩

/-- R83: an illegal word by its fields. -/
theorem illegal_iff_fields (w : Word) :
    Illegal w ↔ fieldRES w ≠ 0 ∨ (fieldOP w ≠ 1 ∧ fieldOP w ≠ 2 ∧ fieldOP w ≠ 3) ∨ (fieldOP w = 3 ∧ fieldA w = true) := by
  simp [Illegal, fieldA_iff, ← fieldOP_toNat, ← fieldRES_toNat, ← BitVec.toNat_inj]

/-- R81 to R83: the decoder rejects a word that is illegal, and any other is the encoding of the well-formed instruction it decodes
to. -/
theorem decode_cases (w : Word) :
    (Illegal w ∧ ∃ e, decode w = .error e) ∨ (¬ Illegal w ∧ ∃ i, decode w = .ok i ∧ i.WellFormed ∧ w = encode i) := by
  rw [illegal_iff_fields]
  by_cases hres : fieldRES w = 0
  case neg => exact .inl ⟨.inl hres, .reservedBits, by rw [decode, if_pos hres]⟩
  have hw := eq_commandWord hres
  by_cases hpre : fieldOP w = 1
  · rw [hpre] at hw
    exact .inr ⟨by simp [hres, hpre], .preprocess (.ofBit (fieldA w)), by simp [decode, hres, hpre], rfl, by simpa [encode] using hw⟩
  by_cases hcomp : fieldOP w = 2
  · rw [hcomp] at hw
    exact .inr ⟨by simp [hres, hcomp], .compress (fieldA w), by simp [decode, hres, hcomp], rfl, hw⟩
  by_cases hdec : fieldOP w = 3
  case neg =>
    exact .inl ⟨.inr (.inl ⟨hpre, hcomp, hdec⟩), .reservedOp,
      by rw [decode, if_neg (not_not.2 hres), if_neg hpre, if_neg hcomp, if_neg hdec]⟩
  cases ha : fieldA w with
  | true => exact .inl ⟨.inr (.inr ⟨hdec, rfl⟩), .argumentNotZero, by simp [decode, hres, hdec, ha]⟩
  | false =>
    rw [hdec, ha] at hw
    exact .inr ⟨by simp [hres, hdec], .decompress false, by simp [decode, hres, hdec, ha], rfl, hw⟩

/-- R83: the decoder rejects exactly the illegal words. -/
theorem illegal_iff_decode_error (w : Word) : Illegal w ↔ ∃ e, decode w = .error e := by
  rcases decode_cases w with ⟨hillegal, herr⟩ | ⟨hlegal, i, hi, -⟩
  · exact iff_of_true hillegal herr
  · exact iff_of_false hlegal (by simp [hi])

/-- Settles O3: a word that decodes is the encoding of what it decodes to (decode_cases), and encodings decode (O2). -/
theorem decodesExactlyTheEncodedWords : Obligations.DecodesExactlyTheEncodedWords := by
  intro w i
  constructor
  · intro h
    rcases decode_cases w with ⟨-, e, he⟩ | ⟨-, j, hj, hencoded⟩
    · simp [he] at h
    · obtain rfl : j = i := by simpa [hj] using h
      exact hencoded
  · rintro ⟨hwf, rfl⟩
    exact decodeInvertsEncode i hwf

/-- Settles O4: the decoder rejects exactly the illegal words, and both the write of one and exec of the ill-formed DECOMPRESS are
the completion of an illegal word. -/
theorem illegalWordsEndWithIllegalCommand : Obligations.IllegalWordsEndWithIllegalCommand := by
  refine ⟨illegal_iff_decode_error, fun s hidle o ho => ?_⟩
  have hillegal : o = .next (illegalCommand s) := by
    rcases ho with ⟨w, hw, rfl⟩ | rfl
    · obtain ⟨e, he⟩ := (illegal_iff_decode_error w).1 hw
      exact writeCmd_error hidle he
    · simp [exec_decompress_true, hidle]
  exact ⟨_, hillegal, raise_ended .illegalCommand _, rfl, rfl, rfl, rfl, rfl, rfl, rfl, illegalCommand_outside s⟩

/-! ### Acceptance and completion -/

/-- The first line of the command an instruction selects (R81, R84). -/
def firstLine : Instr → Pos
  | .preprocess fmt => .preprocess fmt
  | .compress force => .compress force
  | .decompress _   => .decompress

/-- R81: a well-formed instruction runs its command from the first line. -/
theorem exec_of_wellFormed {i : Instr} (hwf : i.WellFormed) (s : State) : exec i s = command (firstLine i) s := by
  cases i with
  | preprocess fmt => rfl
  | compress force => rfl
  | decompress a =>
    cases a with
    | false => rfl
    | true => exact absurd hwf (by decide)

/-- R84: an accepted command before its first block step. -/
theorem command_of_pace_zero {s : State} (hidle : s.busy = false) (hpace : s.pace = some 0) (p : Pos) :
    command p s = .next (takeStream (accept p s)) := by
  simp [command, hidle, progress_of_some (s := takeStream (accept p s)) hpace]

/-- Settles O11: exec is the acceptance at the command's first line, before any block step. -/
theorem acceptanceInitialises : Obligations.AcceptanceInitialises := by
  intro s i hidle hpace hwf
  have hexec := (exec_of_wellFormed hwf s).trans (command_of_pace_zero hidle hpace (firstLine i))
  exact ⟨_, hexec, rfl, rfl, rfl, rfl, rfl, rfl, rfl, rfl, rfl, by cases i <;> rfl, rfl, rfl, rfl, ⟨rfl, rfl, rfl, rfl⟩⟩

/-- Settles O12: the block step at a return is the completion with code 0. -/
theorem normalCompletion : Obligations.NormalCompletion := by
  intro s v hphase
  have hstep : run 1 s = complete 0 v s := by rw [run_succ, run_zero, blockStep_busy hphase]; rfl
  exact ⟨_, hstep, rfl, rfl, rfl, rfl, rfl, rfl, rfl, rfl, rfl, rfl, rfl, rfl, ⟨rfl, rfl, rfl, rfl⟩⟩

/-! ### WAIT -/

theorem progress_of_idle {s : State} (h : s.busy = false) : progress s = s := by
  obtain ⟨n, hn⟩ := progress_eq_run s
  rw [hn, run_of_quiescent (quiescent_idle (busy_eq_false.1 h))]

theorem progress_term (s : State) : (progress s).inCur.term = s.inCur.term := by
  obtain ⟨n, hn⟩ := progress_eq_run s
  rw [hn, run_term]

/-- R86: a poll that finds the block not BUSY is the whole step, and WAIT is done. -/
theorem step_wait_done {s : State} {p : Option Nat} {rest : List Timed} (hevents : s.events = { event := .wait, pace := p } :: rest)
    (hidle : s.busy = false) : step s = .next (s.around s.status rest p s.inNext) := by
  rw [step_cons hevents]
  simp only [act]
  rw [waitTurn_done (s := { s with events := rest, pace := p }) hidle]
  exact congrArg _ (progress_of_idle (s := s.around s.status rest p s.inNext) hidle)

/-- R86, R321: a poll that finds the block BUSY is followed by block steps, and WAIT is still the next event. -/
theorem step_wait_busy {s : State} {p : Option Nat} {rest : List Timed} (hevents : s.events = { event := .wait, pace := p } :: rest)
    (hbusy : s.busy = true) : step s = .next (progress (s.around s.status s.events (nextPoll p) s.inNext)) := by
  rw [step_cons hevents]
  simp only [act]
  rw [waitTurn_busy (s := { s with events := rest, pace := p }) hbusy, hevents]
  rfl

/-- The measure of a running command does not look at the surroundings. -/
theorem cost_around (s : State) (v : Word) (ev : List Timed) (p : Option Nat) (st : Stream) : (s.around v ev p st).cost = s.cost :=
  rfl

/-- After some number of steps the block is not BUSY and the events rest come next. -/
def WaitEnds (s : State) (rest : List Timed) : Prop := ∃ n t, Steps n s t ∧ t.busy = false ∧ t.events = rest

theorem waitEnds_of_idle {s : State} {p : Option Nat} {rest : List Timed}
    (hevents : s.events = { event := .wait, pace := p } :: rest) (hidle : s.busy = false) : WaitEnds s rest :=
  ⟨1, _, ⟨_, step_wait_done hevents hidle, rfl⟩, hidle, rfl⟩

theorem waitEnds_of_step {s u : State} {rest : List Timed} (hstep : step s = .next u) (h : WaitEnds u rest) : WaitEnds s rest := by
  obtain ⟨n, t, hsteps, ht⟩ := h
  exact ⟨n + 1, t, ⟨u, hstep, hsteps⟩, ht⟩

/-- R86, R321: a WAIT for a command whose stream has its terminator ends, since every poll that finds the block BUSY makes the measure
of the command smaller (progress_cost). -/
theorem waitEnds {s : State} {p : Option Nat} {rest : List Timed} (hinv : s.Inv) (hterm : s.busy = true → s.inCur.term ≠ none)
    (hevents : s.events = { event := .wait, pace := p } :: rest) : WaitEnds s rest := by
  induction hcost : s.cost using Nat.strong_induction_on generalizing s with
  | h n ih =>
    cases hb : s.busy with
    | false => exact waitEnds_of_idle hevents hb
    | true =>
      have hinv' := around_inv hinv s.status s.events (nextPoll p) s.inNext
      refine waitEnds_of_step (step_wait_busy hevents hb) ?_
      have hnext := (progress_surroundings (s.around s.status s.events (nextPoll p) s.inNext)).2.trans hevents
      rcases progress_cost hinv' (hterm hb) (nextPoll_ne_zero p) hb with hidle | hless
      · exact waitEnds_of_idle hnext hidle
      · refine ih _ (by rwa [cost_around, hcost] at hless) (progress_inv hinv') (fun _ => ?_) hnext rfl
        rw [progress_term]
        exact hterm hb

/-- Settles O10: one turn by the value BUSY has (step_wait_done, step_wait_busy), and the loop by the measure of the running command
(waitEnds). -/
theorem waitPollsUntilNotBusy : Obligations.WaitPollsUntilNotBusy := by
  refine ⟨fun s p rest => ⟨fun hidle => ?_, fun hbusy => ?_⟩, fun s p rest hinv hterm => ?_⟩
  · exact ⟨_, step_wait_done rfl hidle, rfl, rfl⟩
  · exact ⟨_, step_wait_busy rfl hbusy, (progress_surroundings _).1, (progress_surroundings _).2⟩
  · exact waitEnds (around_inv hinv s.rdata _ s.pace s.inNext) hterm rfl

/-! ### The headers -/

/-- What a list says at a position, every list it begins says there. -/
theorem take_drop_of_prefix {α : Type} {a b : List α} (h : a <+: b) {i n : Nat} (hlen : i + n ≤ a.length) :
    (b.drop i).take n = (a.drop i).take n := by
  obtain ⟨c, rfl⟩ := h
  rw [List.drop_append_of_le_length (by omega), List.take_append_of_le_length (by rw [List.length_drop]; omega)]

/-- R92, R170: in the explicit-counts header the count of b is field b of 32 bits. -/
theorem headerCounts_field (F : FreqTable) (b : Byte) : ((headerCounts F).drop (32 * b.toNat)).take 32 = bin 32 (freqOf F b).toNat := by
  have hfield := flat_take F.toList b.toNat (by simpa using b.isLt) []
  rwa [List.append_nil, Vector.getElem_toList] at hfield

/-- Settles O31: the field of the header (headerCounts_field) behind the 64 bits of magic number and selector, and any bytes that begin
with these bits hold it at the same place (take_drop_of_prefix). -/
theorem countsHeaderLayout : Obligations.CountsHeaderLayout := by
  intro p plan hfmt hhdr
  have hcounts : plan.hdr = headerCounts plan.freq := by rw [hhdr, hfmt, headerOf]
  have hlen : plan.hdr.length = 8192 := by rw [hcounts, headerCounts_length]
  refine ⟨hlen, fun b => ?_⟩
  have hfield : ((streamHead p plan).drop (64 + 32 * b.toNat)).take 32 = bin 32 (freqOf plan.freq b).toNat := by
    rw [← List.drop_drop, streamHead, List.drop_left' (by simp), hcounts, headerCounts_field]
  refine ⟨hfield, fun bytes hprefix => ?_⟩
  have hroom : 64 + 32 * b.toNat + 32 ≤ (streamHead p plan).length := by
    have := b.isLt
    simp [streamHead, hlen]
    omega
  rw [bitsOf_take, bitsOf_drop, ← hfield, ← take_drop_of_prefix hprefix hroom]
  congr 2
  omega

/-- Settles O32, by induction on the first tree: the first bit tells a leaf from a node, a leaf's symbol is a field of 9 bits, and a
node's children are told apart in turn. -/
theorem treeSerializationIsUniquelyDecodable : Obligations.TreeSerializationIsUniquelyDecodable := by
  intro t
  induction t with
  | leaf x v =>
    intro u a b h
    cases u with
    | leaf y w =>
      obtain ⟨hsym, hrest⟩ := List.append_inj (List.cons.inj h).2 (by simp)
      obtain rfl : x = y := Fin.ext (bin_injective (by omega) (by omega) hsym)
      exact ⟨rfl, hrest⟩
    | node l r w => cases (List.cons.inj h).1
  | node l r v hl hr =>
    intro u a b h
    cases u with
    | leaf y w => cases (List.cons.inj h).1
    | node l' r' w =>
      simp only [ser, List.cons_append, List.append_assoc, List.cons.injEq, true_and] at h
      obtain ⟨hleft, hrest⟩ := hl _ _ _ h
      obtain ⟨hright, hrest⟩ := hr _ _ _ hrest
      exact ⟨by rw [Tree.unweighted, Tree.unweighted, hleft, hright], hrest⟩

/-! ### The stream of COMPRESS -/

/-- R90, R68: the stream before its padding, in bits. -/
theorem streamBits_length (p : Params) (plan : Plan) (bs : List Byte) :
    (streamBits p plan bs).length =
      64 + plan.hdr.length + (dataOf plan bs).length + (codeBits plan.code pseudoEof).length := by
  simp [streamBits, streamHead]
  omega

/-- R220: at the END of the stream the symbol loop goes on to the EOF code, and with it and the zero bits of Flush to the
completion. -/
theorem symbols_eos_reaches {s : State} {d : Bits} (s0 : State) (h0 : s0.bw.acc = []) (hwrote : Wrote s0 d s.out s.bw)
    (hphase : s.phase = .busy .symbols) (hbytes : s.inCur.bytes = []) (hterm : s.inCur.term = some .eos) :
    ∃ o w, Reaches s (complete 0 w.nout (s.wrote o w)) ∧ Wrote s0 (padded (d ++ codeBits s.plan.code pseudoEof)) o w := by
  have heof : blockStep s = s.goto (.emit (codeBits s.plan.code pseudoEof) .toFlush) := by
    rw [blockStep_busy hphase]
    simp only [posStep, symbolStep, inByte_eos hbytes hterm]
  obtain ⟨o, w, hend, hwrote'⟩ :=
    eofCode_reaches (s := s.goto (.emit (codeBits s.plan.code pseudoEof) .toFlush)) s0 h0 hwrote rfl
  exact ⟨o, w, .of_step (by rw [heof]; exact hend), hwrote'⟩

/-- R220, R94: a COMPRESS that is not skipped, on bytes that have codes, runs from its acceptance to its completion and writes the
padded stream. -/
theorem compress_reaches_finished {s : State} {bs : List Byte} {force : Bool} (h : Ready s ⟨bs, some .eos⟩)
    (hvalid : s.plan.valid = true) (hcoded : Coded s.plan bs) (hforce : s.plan.projBits ≤ s.plan.origBits ∨ force = true) :
    let u := takeStream (accept (.compress force) s)
    ∃ o w, Reaches u (finished u [] o w) ∧ Wrote u (padded (streamBits s.params s.plan bs)) o w := by
  intro u
  have hstream : s.inNext = ⟨bs, some .eos⟩ := h.stream
  obtain ⟨o₁, w₁, hsymbols, hwrote⟩ := compress_symbols_reaches (r := []) (by rwa [List.append_nil]) hvalid hcoded hforce
  obtain ⟨o, w, hend, hwrote'⟩ :=
    symbols_eos_reaches (s := ((u.setBytes []).wrote o₁ w₁).goto .symbols) u rfl hwrote rfl rfl (congrArg Stream.term hstream)
  exact ⟨o, w, hsymbols.trans hend, hwrote'⟩

/-- Settles O39: the run reaches its end with the padded stream written (compress_reaches_finished); as that is whole bytes, all of
it is delivered (pending_eq_nil). -/
theorem compressWritesTheStream : Obligations.CompressWritesTheStream := by
  intro s bs force h hvalid hcoded hforce
  obtain ⟨o, ⟨acc, nout⟩, hreach, hwrote⟩ := compress_reaches_finished h hvalid hcoded hforce
  obtain ⟨d, rfl, hbits, hacc, rfl⟩ := hwrote.shape
  change padded (streamBits s.params s.plan bs) = bitsOf d ++ acc at hbits
  obtain rfl : acc = [] := pending_eq_nil hacc (hbits ▸ padded_length_mod _)
  have hrun := hreach.horizon (accepted_inv h.inv (posOk_compress force)) (quiescent_idle rfl)
  refine ⟨_, d, _, (command_eq h (.compress force)).trans (congrArg _ hrun), rfl, ?_, rfl, ?_, ?_, rfl, rfl, ⟨rfl, rfl, rfl, rfl⟩⟩
  · rw [← List.append_nil (bitsOf d), ← hbits, padded, streamBits_length]
    rfl
  · exact ⟨rfl, rfl, rfl, rfl, BitVec.zero_add _, rfl⟩
  · exact congrArg (Stream.mk []) (congrArg Stream.term h.stream)

end Sys2Proof.Machine

/-! PREPROCESS: COUNT over a whole stream, the number of symbols behind ORIG_BITS, and the plan and savings made of the counts (R110,
R111, R210, R214). -/

namespace Sys2Proof.Machine

/-! ### The number of symbols counted -/

/-- R110: where one more byte and the bytes after it fit the counts, the ceiling is not met at that byte, and the rest fits what
counting it leaves. -/
theorem fits_cons {F : FreqTable} {b : Byte} {bs : List Byte}
    (h : ∀ c, (freqOf F c).toNat + (b :: bs).count c < 2 ^ 32) :
    freqOf F b ≠ BitVec.allOnes 32 ∧ ∀ c, (freqOf (countOne F b) c).toNat + bs.count c < 2 ^ 32 := by
  have hroom : (freqOf F b).toNat + 1 + bs.count b < 2 ^ 32 := by
    have := h b
    rw [List.count_cons_self] at this
    omega
  refine ⟨fun hfull => ?_, fun c => ?_⟩
  · rw [hfull, BitVec.toNat_allOnes] at hroom
    omega
  · rw [freqOf_countOne]
    split
    · next heq =>
      subst heq
      rwa [BitVec.toNat_add_of_lt (by simp; omega)]
    · next hne =>
      have := h c
      rwa [List.count_cons_of_ne hne] at this

/-- R110, R111: the counts add up to the number of bytes counted. -/
theorem total_countInto {F : FreqTable} {bs : List Byte} (h : ∀ c, (freqOf F c).toNat + bs.count c < 2 ^ 32) :
    total (countInto F bs) = total F + bs.length := by
  induction bs generalizing F with
  | nil => rfl
  | cons b bs ih =>
    obtain ⟨hceiling, hfits⟩ := fits_cons h
    calc total (countInto (countOne F b) bs)
      _ = total (countOne F b) + bs.length := ih hfits
      _ = total F + 1 + bs.length := by rw [countOne, total_count hceiling]
      _ = total F + (bs.length + 1) := by omega

/-- R110: a stream fits the counts when it fits on top of the cleared table. -/
theorem CountsFit.from_zero {bs : List Byte} (h : CountsFit bs) (c : Byte) :
    (freqOf (Vector.replicate 256 0) c).toNat + bs.count c < 2 ^ 32 := by
  rw [freqOf_replicate]
  simpa using h c

theorem total_countOf {bs : List Byte} (h : CountsFit bs) : total (countOf bs) = bs.length := by
  rw [countOf, total_countInto h.from_zero, total_replicate, Nat.zero_add]

/-- R114: 256 counts below 2^32 leave room for no more bytes than this. -/
theorem CountsFit.length_le {bs : List Byte} (h : CountsFit bs) : bs.length ≤ 256 * (2 ^ 32 - 1) :=
  total_countOf h ▸ total_le (countOf bs)

/-! ### The plan of fitting counts -/

/-- R111: the symbol count times 8, exact in 64 bits. -/
theorem origBits_toNat {bs : List Byte} (h : CountsFit bs) (fmt : HeaderFormat) :
    (planOf fmt (countOf bs) (BitVec.ofNat 64 bs.length)).origBits.toNat = 8 * bs.length := by
  have hlength := h.length_le
  have hwidth : (8 : DWord).toNat = 8 := rfl
  simp only [planOf, BitVec.toNat_mul, BitVec.toNat_ofNat, hwidth]
  omega

/-- R212, R219: the projection, far below 2^62. -/
theorem projected_lt (fmt : HeaderFormat) (F : FreqTable) :
    projected F (genCodes (build F)) (headerOf fmt F (build F)) < 2 ^ 62 := by
  have hle := total_le F
  obtain ⟨hbound, -, -⟩ := projected_bounds fmt F
  omega

/-- R212, R219: the projection is exact in 64 bits. -/
theorem projBits_toNat (fmt : HeaderFormat) (F : FreqTable) (n : DWord) :
    (planOf fmt F n).projBits.toNat = projected F (genCodes (build F)) (headerOf fmt F (build F)) := by
  have hlt := projected_lt fmt F
  simp only [planOf, BitVec.toNat_ofNat]
  omega

/-- R214, R219: the savings as a signed value are the exact difference of the two sizes. -/
theorem savings_toInt {p : Plan} (horig : p.origBits.toNat < 2 ^ 62) (hproj : p.projBits.toNat < 2 ^ 62) :
    (p.origBits - p.projBits).toInt = (p.origBits.toNat : Int) - p.projBits.toNat := by
  simpa using toInt_sub p.origBits.toNat p.projBits.toNat horig hproj

/-! ### The run of PREPROCESS -/

/-- R210, R110: PREPROCESS counts bytes that fit the counts from its acceptance on, with r still unread. -/
theorem preprocess_count_reaches {s : State} {fmt : HeaderFormat} {bs r : List Byte} {x : Option Terminator}
    (h : Ready s ⟨bs ++ r, x⟩) (hfit : CountsFit bs) :
    let u := takeStream (accept (.preprocess fmt) s)
    Reaches u (counted fmt 0 bs r (startCount fmt u)) := by
  intro u
  have hstart : blockStep u = startCount fmt u := blockStep_busy (p := .preprocess fmt) rfl
  exact .of_step (hstart ▸ count_reaches rfl (congrArg Stream.bytes h.stream) hfit.from_zero)

/-- The state a PREPROCESS without error ends in (R210, R214, R85): the plan of the table F and its n symbols, and the savings. -/
def planMade (fmt : HeaderFormat) (F : FreqTable) (n : DWord) (s : State) : State :=
  complete 0 ((planOf fmt F n).origBits - (planOf fmt F n).projBits)
    { s.setBytes [] with plan := planOf fmt F n }

/-- R210: at the END of the stream the plan is made, and the command completes with the savings. -/
theorem count_eos_reaches {s : State} {fmt : HeaderFormat} {n : DWord} (hphase : s.phase = .busy (.count fmt n))
    (hbytes : s.inCur.bytes = []) (hterm : s.inCur.term = some .eos) : Reaches s (planMade fmt s.plan.freq n s) := by
  have heos : blockStep s = finishPlan fmt n s := by
    rw [blockStep_busy hphase]
    simp only [posStep, countStep, inByte_eos hbytes hterm]
  have hret : blockStep (finishPlan fmt n s) = planMade fmt s.plan.freq n s := by
    rw [blockStep_busy (finishPlan_phase fmt n s), planMade, State.setBytes, ← hbytes]
    rfl
  exact .of_step (heos ▸ .of_step (hret ▸ .refl _))

/-- R210, R110: PREPROCESS on a stream that ends normally and fits the counts. -/
theorem preprocess_reaches_planMade {s : State} {fmt : HeaderFormat} {bs : List Byte} (h : Ready s ⟨bs, some .eos⟩)
    (hfit : CountsFit bs) :
    let u := takeStream (accept (.preprocess fmt) s)
    Reaches u (planMade fmt (countOf bs) (BitVec.ofNat 64 bs.length) u) := by
  intro u
  have hcount := preprocess_count_reaches (fmt := fmt) (r := []) (by rwa [List.append_nil]) hfit
  have hend := count_eos_reaches (s := counted fmt 0 bs [] (startCount fmt u)) rfl rfl (congrArg Stream.term h.stream)
  rw [show (0 : DWord) + BitVec.ofNat 64 bs.length = BitVec.ofNat 64 bs.length from BitVec.zero_add _] at hend
  exact hcount.trans hend

/-- Settles O33: the run reaches the plan of the stream's counts (preprocess_reaches_planMade), whose sizes are exact
(origBits_toNat, projBits_toNat) and so is their difference (savings_toInt). -/
theorem preprocessMakesThePlan : Obligations.PreprocessMakesThePlan := by
  intro s fmt bs h hfit
  have hexec := command_of_reaches h (posOk_preprocess fmt) (preprocess_reaches_planMade h hfit) (quiescent_idle rfl)
  have horig := origBits_toNat hfit fmt
  have hproj := projBits_toNat fmt (countOf bs) (BitVec.ofNat 64 bs.length)
  have hsavings := savings_toInt (p := planOf fmt (countOf bs) (BitVec.ofNat 64 bs.length))
    (by have := hfit.length_le; omega)
    (hproj ▸ projected_lt fmt (countOf bs))
  rw [horig, hproj, Nat.cast_mul] at hsavings
  exact ⟨_, _, hexec, ⟨rfl, rfl, rfl, rfl, rfl, rfl⟩, rfl, rfl, fun b => freqOf_countOf b (hfit b), horig, rfl, rfl, rfl, hproj,
    hsavings, congrArg (Stream.mk []) (congrArg Stream.term h.stream), rfl, rfl, rfl, ⟨rfl, rfl, rfl, rfl⟩⟩

end Sys2Proof.Machine

/-! The Tree Builder: the order of the worklist (R130, R131), the leaves, the sizes and the weights of the tree BUILD returns
(R132 to R138), and the two smallest trees with their codes (R137). -/

namespace Sys2Proof.Machine

/-! ### What holds of every node of the worklist -/

theorem forall_mem_insertNode {P : Tree → Prop} {n : Tree} {wl : List Tree} :
    (∀ t ∈ insertNode n wl, P t) ↔ P n ∧ ∀ t ∈ wl, P t := by
  simp only [mem_insertNode, forall_eq_or_imp]

/-- R132: the nodes before the first merge are the PSEUDO_EOF leaf and those of the counted byte symbols. -/
theorem initialWorklist_forall {P : Tree → Prop} {F : FreqTable} (heof : P (.leaf pseudoEof 1))
    (hbyte : ∀ sc ∈ symbolCounts F, sc.2 ≠ 0 → P (.leaf sc.1.castSucc (sc.2.setWidth 64))) :
    ∀ t ∈ initialWorklist F, P t :=
  have hbytes : ∀ t ∈ insertLeaves F, P t :=
    insertLeaves_fold (P := fun wl => ∀ t ∈ wl, P t)
      (fun sc hsc _ hwl hne => forall_mem_insertNode.2 ⟨hbyte sc hsc hne, hwl⟩) (List.forall_mem_nil P)
  forall_mem_insertNode.2 ⟨heof, hbytes⟩

/-! ### Insertion into an ordered worklist -/

theorem ordered_nil : Ordered [] := List.Pairwise.nil

theorem ordered_cons {x : Tree} {wl : List Tree} : Ordered (x :: wl) ↔ (∀ t ∈ wl, x.weight ≤ t.weight) ∧ Ordered wl :=
  List.pairwise_cons

theorem insertNode_cons_of_le {n x : Tree} (h : x.weight ≤ n.weight) (wl : List Tree) :
    insertNode n (x :: wl) = x :: insertNode n wl := if_pos h

theorem insertNode_cons_of_lt {n x : Tree} (h : n.weight < x.weight) (wl : List Tree) :
    insertNode n (x :: wl) = n :: x :: wl := if_neg (BitVec.not_le.2 h)

/-- The entries after one of greater weight than the node to be inserted are of greater weight too. -/
theorem lt_of_ordered_cons {n x : Tree} {wl : List Tree} (h : Ordered (x :: wl)) (hx : n.weight < x.weight) :
    ∀ t ∈ x :: wl, n.weight < t.weight := by
  obtain ⟨hle, -⟩ := ordered_cons.1 h
  exact List.forall_mem_cons.2 ⟨hx, fun t ht => Nat.lt_of_lt_of_le (BitVec.lt_def.1 hx) (BitVec.le_def.1 (hle t ht))⟩

/-- R130: insertion keeps the order. -/
theorem insertNode_ordered (n : Tree) {wl : List Tree} (h : Ordered wl) : Ordered (insertNode n wl) := by
  induction wl with
  | nil => exact List.pairwise_singleton _ n
  | cons x wl ih =>
    obtain ⟨hle, htail⟩ := ordered_cons.1 h
    by_cases hx : x.weight ≤ n.weight
    · rw [insertNode_cons_of_le hx, ordered_cons]
      exact ⟨forall_mem_insertNode.2 ⟨hx, hle⟩, ih htail⟩
    · rw [BitVec.not_le] at hx
      rw [insertNode_cons_of_lt hx, ordered_cons]
      exact ⟨fun t ht => BitVec.le_of_lt (lt_of_ordered_cons h hx t ht), h⟩

/-- R131: the entries of smaller or equal weight, the node, the entries of greater weight. -/
theorem insertNode_eq_filter (n : Tree) {wl : List Tree} (h : Ordered wl) :
    insertNode n wl = wl.filter (fun t => t.weight ≤ n.weight) ++ n :: wl.filter (fun t => n.weight < t.weight) := by
  induction wl with
  | nil => rfl
  | cons x wl ih =>
    by_cases hx : x.weight ≤ n.weight
    · rw [insertNode_cons_of_le hx, ih (ordered_cons.1 h).2, List.filter_cons_of_pos (by simpa using hx),
        List.filter_cons_of_neg (by simpa using hx), List.cons_append]
    · rw [BitVec.not_le] at hx
      have hgreater := lt_of_ordered_cons h hx
      have hleft : (x :: wl).filter (fun t => t.weight ≤ n.weight) = [] :=
        List.filter_eq_nil_iff.2 fun t ht => by simpa using hgreater t ht
      have hright : (x :: wl).filter (fun t => n.weight < t.weight) = x :: wl :=
        List.filter_eq_self.2 fun t ht => by simpa using hgreater t ht
      rw [insertNode_cons_of_lt hx, hleft, hright, List.nil_append]

/-- R132: the worklist before the first merge is made by insertions. -/
theorem initialWorklist_ordered (F : FreqTable) : Ordered (initialWorklist F) :=
  insertNode_ordered _ (insertLeaves_fold (fun _ _ _ h _ => insertNode_ordered _ h) ordered_nil)

/-- R133: a merge takes the first two nodes away and inserts one. -/
theorem mergeAll_ordered (k : Nat) {wl : List Tree} (h : Ordered wl) : Ordered (mergeAll k wl) :=
  mergeAll_keeps (fun _ _ _ hab => insertNode_ordered _ (ordered_cons.1 (ordered_cons.1 hab).2).2) k h

/-- Settles O20: every insertion keeps the order (insertNode_ordered), and the worklist changes only by insertions and by dropping
its first nodes. -/
theorem worklistStaysOrdered : Obligations.WorklistStaysOrdered :=
  ⟨ordered_nil, fun n _ => insertNode_ordered n, fun F k => mergeAll_ordered k (initialWorklist_ordered F)⟩

/-- Settles O21: insertNode_eq_filter, by induction on the worklist. -/
theorem insertionPlacesAfterEquals : Obligations.InsertionPlacesAfterEquals :=
  fun n _ => insertNode_eq_filter n

/-! ### The leaves of the tree -/

/-- R132: the leaves BUILD starts from, as symbol and weight. -/
def InitialLeaf (F : FreqTable) (s : Symbol) (w : DWord) : Prop :=
  (s = pseudoEof ∧ w = 1) ∨ ∃ b : Byte, s = Symbol.ofByte b ∧ freqOf F b ≠ 0 ∧ w = (freqOf F b).setWidth 64

theorem InitialLeaf.weight_eof {F : FreqTable} {w : DWord} (h : InitialLeaf F pseudoEof w) : w = 1 := by
  rcases h with ⟨-, rfl⟩ | ⟨b, hb, -⟩
  · rfl
  · exact absurd hb.symm (ofByte_ne b)

theorem InitialLeaf.weight_byte {F : FreqTable} {b : Byte} {w : DWord} (h : InitialLeaf F (Symbol.ofByte b) w) :
    w = (freqOf F b).setWidth 64 := by
  rcases h with ⟨hb, -⟩ | ⟨c, hc, -, rfl⟩
  · exact absurd hb (ofByte_ne b)
  · rw [ofByte_inj hc]

/-- The entry of symbolCounts for a byte symbol that occurs makes its leaf. -/
theorem initialLeaf_of_mem_symbolCounts {F : FreqTable} {sc : Fin 256 × Word} (h : sc ∈ symbolCounts F) (hne : sc.2 ≠ 0) :
    InitialLeaf F sc.1.castSucc (sc.2.setWidth 64) := by
  rw [symbolCounts_eq, List.mem_map] at h
  obtain ⟨s, -, rfl⟩ := h
  exact .inr ⟨BitVec.ofFin s, rfl, hne, rfl⟩

/-- R134: a merge makes no leaf, so BUILD's tree has only those it started from. -/
theorem build_allLeaves (F : FreqTable) : AllLeaves (InitialLeaf F) (build F) := by
  have hroot : ∀ t ∈ [build F], AllLeaves (InitialLeaf F) t := by
    refine build_keeps (P := fun wl => ∀ t ∈ wl, AllLeaves (InitialLeaf F) t)
      (initialWorklist_forall (.inl ⟨rfl, rfl⟩) fun _ => initialLeaf_of_mem_symbolCounts) fun a b wl h => ?_
    simp only [List.forall_mem_cons] at h
    obtain ⟨ha, hb, hwl⟩ := h
    exact forall_mem_insertNode.2 ⟨⟨ha, hb⟩, hwl⟩
  exact hroot _ (.head _)

/-- A path to the leaf of each symbol of the tree, with a weight of R132. -/
theorem build_follow_leaf {F : FreqTable} {s : Symbol} (h : s ∈ (build F).leaves) :
    ∃ p w, (build F).follow p = some (.leaf s w) ∧ InitialLeaf F s w := by
  obtain ⟨p, w, hp⟩ := exists_follow h
  exact ⟨p, w, hp, allLeaves_follow (build_allLeaves F) hp⟩

theorem ofByte_mem_build_leaves {F : FreqTable} {b : Byte} (h : freqOf F b ≠ 0) : Symbol.ofByte b ∈ (build F).leaves :=
  (build_leaves F).mem_iff.2 (.tail _ (ofByte_mem_occurring.2 h))

/-- Settles O22: the symbols of the leaves are PSEUDO_EOF and those that occur (build_leaves), and each leaf has the weight it was
made with (build_allLeaves). -/
theorem buildCoversTheOccurringSymbols : Obligations.BuildCoversTheOccurringSymbols := by
  intro F
  refine ⟨build_leaves_nodup F, ?_, fun b hb => ?_, fun p s w hp => allLeaves_follow (build_allLeaves F) hp⟩
  · obtain ⟨p, w, hp, hw⟩ := build_follow_leaf (build_eofTree F)
    exact ⟨p, hw.weight_eof ▸ hp⟩
  · obtain ⟨p, w, hp, hw⟩ := build_follow_leaf (ofByte_mem_build_leaves hb)
    exact ⟨p, hw.weight_byte ▸ hp⟩

/-! ### Sizes -/

/-- R136: K + 1 leaves. -/
theorem build_leaves_length (F : FreqTable) :
    (build F).leaves.length = (F.toList.filter fun c => c ≠ 0).length + 1 := by
  rw [(build_leaves F).length_eq, List.length_cons, occurring_length]

/-- Settles O23: the number of leaves fixes that of the internal nodes (leaves_length), which bounds the depth
(depth_le_internals). -/
theorem builtTreeSizes : Obligations.BuiltTreeSizes := by
  intro F K
  have hK : K ≤ 256 := (List.length_filter_le _ _).trans_eq F.length_toList
  have hleaves : (build F).leaves.length = K + 1 := build_leaves_length F
  have hinternals : (build F).internals = K := by
    have := leaves_length (build F)
    omega
  have hdepth : (build F).depth ≤ K := hinternals ▸ depth_le_internals (build F)
  refine ⟨hleaves, ?_, hinternals, ?_, ?_, hdepth, hK⟩ <;> omega

/-! ### Weights -/

/-- R132: the leaves of counted symbols add their counts to the worklist's weight. -/
theorem worklistWeight_fold (Q : List (Fin 256 × Word)) (wl : List Tree) :
    worklistWeight (Q.foldl (fun wl sc => if sc.2 = 0 then wl
      else insertNode (.leaf sc.1.castSucc (sc.2.setWidth 64)) wl) wl) =
    worklistWeight wl + (Q.map fun sc => sc.2.toNat).sum := by
  induction Q generalizing wl with
  | nil => rfl
  | cons sc Q ih =>
    rw [List.foldl_cons, ih, List.map_cons, List.sum_cons, ← Nat.add_assoc]
    congr 1
    split
    next hzero => simp [hzero]
    next =>
      rw [worklistWeight_insertNode, Nat.add_comm, Tree.weight, BitVec.toNat_setWidth_of_le (by decide)]

theorem symbolCounts_map_toNat (F : FreqTable) : ((symbolCounts F).map fun sc => sc.2.toNat).sum = total F := by
  have hsnd : (symbolCounts F).map Prod.snd = F.toList := List.map_snd_zip (by simp)
  rw [total, ← hsnd, List.map_map]
  rfl

/-- R138: the worklist before the first merge weighs the counts and the 1 of PSEUDO_EOF. -/
theorem worklistWeight_initialWorklist (F : FreqTable) : worklistWeight (initialWorklist F) = 1 + total F := by
  rw [initialWorklist, worklistWeight_insertNode, insertLeaves, worklistWeight_fold, symbolCounts_map_toNat]
  exact congrArg (1 + ·) (Nat.zero_add _)

theorem total_succ_lt (F : FreqTable) : 1 + total F < 2 ^ 40 := by
  have := total_le F
  omega

/-- What holds of BUILD's worklist throughout (R138): its nodes weigh 1 plus the sum of the counts, and none of their weights wraps. -/
def WorklistExact (F : FreqTable) (wl : List Tree) : Prop :=
  worklistWeight wl = 1 + total F ∧ ∀ t ∈ wl, t.WeightsExact

theorem initialWorklist_exact (F : FreqTable) : WorklistExact F (initialWorklist F) :=
  ⟨worklistWeight_initialWorklist F, initialWorklist_forall trivial fun _ _ _ => trivial⟩

/-- R133, R138: a merge leaves the worklist's weight as it is, and as that is below 2^64 the new node's weight does not wrap. -/
theorem merge_exact {F : FreqTable} {a b : Tree} {wl : List Tree} (h : WorklistExact F (a :: b :: wl)) :
    WorklistExact F (insertNode (.node a b (a.weight + b.weight)) wl) := by
  obtain ⟨hsum, hexact⟩ := h
  replace hsum : a.weight.toNat + (b.weight.toNat + worklistWeight wl) = 1 + total F := hsum
  have hadd : (a.weight + b.weight).toNat = a.weight.toNat + b.weight.toNat := by
    have := total_succ_lt F
    exact BitVec.toNat_add_of_lt (by omega)
  simp only [List.forall_mem_cons] at hexact
  obtain ⟨ha, hb, hwl⟩ := hexact
  refine ⟨?_, forall_mem_insertNode.2 ⟨⟨ha, hb, hadd⟩, hwl⟩⟩
  rw [worklistWeight_insertNode, Tree.weight, hadd, Nat.add_assoc, hsum]

/-- Settles O24: WorklistExact holds before the first merge and every merge keeps it, down to the root alone. -/
theorem weightsAreExact : Obligations.WeightsAreExact := by
  intro F
  have hroot : WorklistExact F [build F] := build_keeps (initialWorklist_exact F) fun _ _ _ => merge_exact
  exact ⟨hroot.1, total_succ_lt F, hroot.2 _ (.head _)⟩

/-! ### The smallest trees -/

/-- R132: only the byte symbols that occur are inserted. -/
theorem insertLeaves_eq_foldl_filter (F : FreqTable) :
    insertLeaves F = (((List.finRange 256).filter fun s => F[s] ≠ 0).map fun s => Tree.leaf s.castSucc (F[s].setWidth 64)).foldl
      (fun wl n => insertNode n wl) [] := by
  rw [List.foldl_map, List.foldl_filter, insertLeaves, symbolCounts_eq, List.foldl_map]
  simp

/-- With no byte symbol none is inserted. -/
theorem insertLeaves_none {F : FreqTable} (h : ∀ b, freqOf F b = 0) : insertLeaves F = [] := by
  have hnone : ((List.finRange 256).filter fun s => F[s] ≠ 0) = [] :=
    List.filter_eq_nil_iff.2 fun s _ => by simpa [freqOf] using h (BitVec.ofFin s)
  rw [insertLeaves_eq_foldl_filter, hnone]
  rfl

/-- With one byte symbol its leaf alone is inserted. -/
theorem insertLeaves_one {F : FreqTable} {s : Byte} (h : ∀ b, b ≠ s → freqOf F b = 0) (hs : freqOf F s ≠ 0) :
    insertLeaves F = [.leaf (Symbol.ofByte s) ((freqOf F s).setWidth 64)] := by
  have hiff : ∀ x ∈ List.finRange 256, decide (F[x] ≠ 0) = (x == s.toFin) := by
    intro x _
    by_cases hx : x = s.toFin
    · subst hx
      simpa [freqOf] using hs
    · have hzero : F[x] = 0 := h (BitVec.ofFin x) fun e => hx (congrArg BitVec.toFin e)
      simp [hzero, hx]
  have hone : ((List.finRange 256).filter fun x => F[x] ≠ 0) = [s.toFin] := by
    rw [List.filter_congr hiff, List.filter_beq, List.count_finRange]
    rfl
  rw [insertLeaves_eq_foldl_filter, hone]
  rfl

/-- R133: two nodes are merged once. -/
theorem build_of_pair {F : FreqTable} {a b : Tree} (h : initialWorklist F = [a, b]) :
    build F = .node a b (a.weight + b.weight) := by
  rw [build, h]
  rfl

/-- R150: the codes of a tree of two leaves. -/
theorem genCodes_pair {x y : Symbol} (h : x ≠ y) (v w u : DWord) :
    (genCodes (.node (.leaf x v) (.leaf y w) u))[x] = some [false] ∧
    (genCodes (.node (.leaf x v) (.leaf y w) u))[y] = some [true] := by
  have hne : y.val ≠ x.val := fun e => h (Fin.ext e.symm)
  constructor <;> simp [genCodes, genInto, hne]

/-- A byte symbol of count 1 has its leaf before PSEUDO_EOF's of equal weight. -/
theorem build_one_of_count_one {F : FreqTable} {s : Byte} (h : ∀ b, b ≠ s → freqOf F b = 0) (hs : freqOf F s = 1) :
    build F = .node (.leaf (Symbol.ofByte s) 1) (.leaf pseudoEof 1) 2 := by
  apply build_of_pair
  rw [initialWorklist, insertLeaves_one h (by simp [hs]), hs]
  exact insertNode_cons_of_le (n := .leaf pseudoEof 1) (x := .leaf (Symbol.ofByte s) 1) (BitVec.le_refl _) []

/-- A byte symbol of a greater count has its leaf after PSEUDO_EOF's. -/
theorem build_one_of_one_lt_count {F : FreqTable} {s : Byte} (h : ∀ b, b ≠ s → freqOf F b = 0)
    (hs : 1 < (freqOf F s).toNat) :
    build F = .node (.leaf pseudoEof 1) (.leaf (Symbol.ofByte s) ((freqOf F s).setWidth 64))
      ((freqOf F s).setWidth 64 + 1) := by
  have hne : freqOf F s ≠ 0 := fun e => by simp [e] at hs
  have hlt : (1 : DWord) < (freqOf F s).setWidth 64 := by
    rw [BitVec.lt_def, BitVec.toNat_setWidth_of_le (by decide)]
    exact hs
  rw [BitVec.add_comm]
  apply build_of_pair
  rw [initialWorklist, insertLeaves_one h hne]
  exact insertNode_cons_of_lt (n := .leaf pseudoEof 1) (x := .leaf (Symbol.ofByte s) _) hlt []

/-- Settles O25: the worklist before the first merge has the PSEUDO_EOF leaf alone, or that and the leaf of the one byte symbol, in
the order of R131. -/
theorem smallestTrees : Obligations.SmallestTrees := by
  refine ⟨fun F h => ?_, fun F s h => ⟨fun hs => ?_, fun hs => ?_⟩⟩
  · rw [build, initialWorklist, insertLeaves_none h]
    rfl
  · rw [build_one_of_count_one h hs]
    exact ⟨rfl, genCodes_pair (ofByte_ne s) _ _ _⟩
  · rw [build_one_of_one_lt_count h hs]
    exact ⟨rfl, genCodes_pair (ofByte_ne s).symm _ _ _⟩

end Sys2Proof.Machine

/-! The code table: each code is the path of its symbol's leaf (R151), which symbols have one (R154), the lengths and the Kraft sum
(R152), and the only case of an empty code (R153). -/

namespace Sys2Proof.Machine

/-! ### Codes and paths -/

/-- The empty path leads to the root. -/
@[simp] theorem follow_nil (t : Tree) : t.follow [] = some t := by cases t <;> rfl

/-- No path leads on from a leaf. -/
theorem follow_leaf_eq_some {s : Symbol} {w : DWord} {p : Bits} {t : Tree} :
    (Tree.leaf s w).follow p = some t ↔ p = [] ∧ t = .leaf s w := by
  cases p with
  | nil => simp [eq_comm]
  | cons b p => simp [Tree.follow]

/-- R151: when no symbol has two leaves, CODE[s] is the path of the leaf of s. -/
theorem genCodes_eq_some {t : Tree} (nd : t.leaves.Nodup) {s : Symbol} {q : Bits} :
    (genCodes t)[s] = some q ↔ ∃ w, t.follow q = some (.leaf s w) := by
  constructor
  · intro h
    have hs : s ∈ t.leaves := (genCodes_isSome nd s).1 (by rw [h]; rfl)
    obtain ⟨p, w, hp, -, hpath⟩ := genCodes_of_mem nd hs
    obtain rfl : p = q := Option.some.inj (hp.symm.trans h)
    exact ⟨w, hpath⟩
  · rintro ⟨w, hpath⟩
    obtain ⟨p, v, hp, -, hpath'⟩ := genCodes_of_mem nd (mem_leaves_of_follow hpath)
    rw [hp, follow_unique nd hpath' hpath]

/-- A path that begins with the path of a leaf leads to that leaf. -/
theorem leaf_eq_of_prefix {t : Tree} {q r : Bits} {s x : Symbol} {w v : DWord} (hq : t.follow q = some (.leaf s w))
    (hr : t.follow r = some (.leaf x v)) (h : q <+: r) : s = x := by
  obtain ⟨p, rfl⟩ := h
  rw [follow_append, hq, Option.bind_some, follow_leaf_eq_some] at hr
  exact (Tree.leaf.inj hr.2).1.symm

/-- Settles O27: codes are the paths of leaves (genCodes_eq_some), and of the paths of two leaves neither begins the other
(leaf_eq_of_prefix). -/
theorem codesArePrefixFreeLeafPaths : Obligations.CodesArePrefixFreeLeafPaths := by
  intro F
  refine ⟨fun s q => genCodes_eq_some (build_leaves_nodup F), fun s x q r hne hq hr => ?_⟩
  obtain ⟨w, hpath⟩ := (genCodes_eq_some (build_leaves_nodup F)).1 hq
  obtain ⟨v, hpath'⟩ := (genCodes_eq_some (build_leaves_nodup F)).1 hr
  have hprefix : ¬ q <+: r := fun h => hne (leaf_eq_of_prefix hpath hpath' h)
  exact ⟨fun e => hprefix (e ▸ List.prefix_rfl), hprefix⟩

/-! ### The symbols with a code -/

/-- R132: a byte symbol has a leaf exactly when it occurs. -/
theorem ofByte_mem_build_leaves_iff {F : FreqTable} {b : Byte} : Symbol.ofByte b ∈ (build F).leaves ↔ freqOf F b ≠ 0 := by
  rw [(build_leaves F).mem_iff, List.mem_cons, or_iff_right (ofByte_ne b), ofByte_mem_occurring]

/-- Settles O26: the symbols with a code are those of the leaves (genCodes_isSome), so PSEUDO_EOF (build_eofTree) and the byte
symbols that occur (ofByte_mem_build_leaves_iff). -/
theorem codePresentExactlyWhenItOccurs : Obligations.CodePresentExactlyWhenItOccurs := by
  intro F
  refine ⟨(genCodes_isSome (build_leaves_nodup F) pseudoEof).2 (build_eofTree F), fun b => ⟨?_, fun hzero => ?_⟩⟩
  · rw [genCodes_isSome (build_leaves_nodup F), ofByte_mem_build_leaves_iff, Nat.pos_iff_ne_zero, BitVec.toNat_ne]
    rfl
  · have hleaf : Symbol.ofByte b ∉ (build F).leaves := fun h => ofByte_mem_build_leaves_iff.1 h hzero
    exact ⟨hleaf, genCodes_of_notMem hleaf⟩

/-! ### The empty code -/

/-- Settles O29: with no byte the tree is the PSEUDO_EOF leaf (smallestTrees); conversely an empty path leads to the root, and when
that is a leaf no byte symbol has one beside PSEUDO_EOF. -/
theorem emptyCodeOnlyForTheEmptyInput : Obligations.EmptyCodeOnlyForTheEmptyInput := by
  refine fun F => ⟨fun hzero => ?_, fun s hs b => ?_⟩
  · have heof : (build F).follow [] = some (.leaf pseudoEof 1) := by rw [smallestTrees.1 F hzero, follow_nil]
    refine ⟨(genCodes_eq_some (build_leaves_nodup F)).2 ⟨1, heof⟩, fun s hs => genCodes_of_notMem ?_⟩
    rw [smallestTrees.1 F hzero]
    exact fun h => hs (List.mem_singleton.1 h)
  · obtain ⟨w, hpath⟩ := (genCodes_eq_some (build_leaves_nodup F)).1 hs
    have hroot : build F = .leaf s w := Option.some.inj ((follow_nil _).symm.trans hpath)
    have heof : s = pseudoEof := eofTree_root_leaf (hroot ▸ build_eofTree F)
    by_contra hb
    have hleaf : Symbol.ofByte b ∈ (Tree.leaf s w).leaves := hroot ▸ ofByte_mem_build_leaves hb
    exact ofByte_ne b ((List.mem_singleton.1 hleaf).trans heof)

/-! ### The Kraft sum -/

/-- 2^(−|q|) for a code q, times 2^256; an ABSENT code has none. -/
def kraftTerm : Option Bits → Nat
  | some q => 2 ^ (256 - q.length)
  | none   => 0

/-- R152's sum over the present codes of a table, times 2^256. -/
def kraftSum (code : CodeTable) : Nat := (code.toList.map kraftTerm).sum

theorem kraftSum_absent : kraftSum (Vector.replicate 257 none) = 0 := by
  rw [kraftSum, Vector.toList_replicate, List.map_replicate, List.sum_replicate]
  rfl

/-- A code written over an ABSENT one adds its term. -/
theorem kraftSum_set {code : CodeTable} {s : Symbol} (h : code[s] = none) (q : Bits) :
    kraftSum (code.set s (some q)) = kraftSum code + 2 ^ (256 - q.length) := by
  have hlen : s.val < (code.toList.map kraftTerm).length := by simp
  have hold : (code.toList.map kraftTerm)[s.val] = kraftTerm none := by
    simpa using congrArg kraftTerm h
  have hset := sum_set hlen (kraftTerm (some q))
  rw [hold, ← List.map_set, ← Vector.toList_set] at hset
  exact hset

/-- GEN from a node reached by the path p adds 2^(−|p|): a leaf takes it all, and an internal node splits it in two halves. -/
theorem kraftSum_genInto {t : Tree} {p : Bits} {code : CodeTable} (nd : t.leaves.Nodup)
    (absent : ∀ s ∈ t.leaves, code[s] = none) (deep : p.length + t.depth ≤ 256) :
    kraftSum (genInto t p code) = kraftSum code + 2 ^ (256 - p.length) := by
  induction t generalizing p code with
  | leaf s w => exact kraftSum_set (absent s (.head _)) p
  | node l r w hl hr =>
    obtain ⟨ndl, ndr, hdisjoint⟩ := List.nodup_append.1 nd
    obtain ⟨absentl, absentr⟩ := List.forall_mem_append.1 absent
    simp only [Tree.depth] at deep
    have hleft := hl (p := p ++ [false]) ndl absentl (by simp; omega)
    have hright := hr (p := p ++ [true]) (code := genInto l (p ++ [false]) code) ndr
      (fun s hs => by rw [genInto_of_notMem fun h => hdisjoint s h s hs rfl, absentr s hs]) (by simp; omega)
    have hhalves : 2 ^ (256 - p.length) = 2 ^ (256 - (p.length + 1)) + 2 ^ (256 - (p.length + 1)) := by
      rw [← two_mul, ← Nat.pow_succ']
      congr 1
      omega
    rw [List.length_append, List.length_singleton] at hleft hright
    rw [genInto, hright, hleft, hhalves, Nat.add_assoc]

/-- R152: the codes of a tree with no symbol twice fill it. -/
theorem kraftSum_genCodes {t : Tree} (nd : t.leaves.Nodup) : kraftSum (genCodes t) = 2 ^ 256 := by
  have hdeep : t.depth ≤ 256 := (depth_le_internals t).trans (internals_le_of_nodup nd)
  rw [genCodes, kraftSum_genInto nd (fun s _ => by simp) (by simpa using hdeep), kraftSum_absent]
  rfl

/-- A tree with two leaves or more has no leaf at the empty path. -/
theorem path_ne_nil {t : Tree} {q : Bits} {s : Symbol} {w : DWord} (hsize : 2 ≤ t.leaves.length)
    (h : t.follow q = some (.leaf s w)) : q ≠ [] := by
  rintro rfl
  obtain rfl : t = .leaf s w := Option.some.inj ((follow_nil t).symm.trans h)
  simp [Tree.leaves] at hsize

/-- Settles O28: a code is the path of a leaf, which is not the root (path_ne_nil) and not deeper than the internal nodes are many
(depth_le_internals); the sum is kraftSum_genCodes. -/
theorem codesFillTheTree : Obligations.CodesFillTheTree := by
  intro F hsize
  have nd := build_leaves_nodup F
  refine ⟨fun s q hq => ?_, kraftSum_genCodes nd⟩
  obtain ⟨w, hpath⟩ := (genCodes_eq_some nd).1 hq
  have hpos : 0 < q.length := List.length_pos_of_ne_nil (path_ne_nil hsize hpath)
  have hinternals : q.length ≤ (build F).internals := (follow_length_le hpath).trans (depth_le_internals _)
  have hleaves := leaves_length (build F)
  have hbound := internals_le_of_nodup nd
  omega

end Sys2Proof.Machine

/-! The Header Codec: the length of a tree serialization (R172), and the headers DECOMPRESS does not accept: an explicit-counts header cut
short (R175), and every explicit-tree header but the valid ones (R176 to R178). -/

namespace Sys2Proof.Machine

/-! ### The length of a tree serialization -/

theorem headerTree_length (t : Tree) : (headerTree t).length = 32 + (ser t).length := by
  simp [headerTree]

/-- Settles O30: the serialization is 11 bits for each leaf less one (ser_length), and a tree with no symbol twice has at most 257
leaves. -/
theorem treeSerializationLength : Obligations.TreeSerializationLength := by
  intro t
  have hser := ser_length t
  have hleaves := leaves_length t
  have hheader := headerTree_length t
  refine ⟨by omega, by omega, by omega, fun hnodup => ?_, by omega, by omega⟩
  have hmost := leaves_length_le_of_nodup hnodup
  omega

/-! ### Where a run ends -/

/-- A run that ends at rest goes on to that end from every state it passes (R302, R314). -/
theorem Reaches.continues {s t e : State} (ht : Reaches s t) (he : Reaches s e) (hrest : e.quiescent = true) : Reaches t e := by
  obtain ⟨m, rfl⟩ := ht
  obtain ⟨n, rfl⟩ := he
  refine ⟨n, ?_⟩
  rw [← run_add, Nat.add_comm, run_add, run_of_quiescent hrest]

/-- A state at rest that is reached is where the run ends. -/
theorem Reaches.unique {s t e : State} (ht : Reaches s t) (he : Reaches s e) (hrest : t.quiescent = true)
    (hrest' : e.quiescent = true) : t = e := by
  obtain ⟨n, hn⟩ := ht.continues he hrest'
  rw [← hn, run_of_quiescent hrest]

/-! ### From the acceptance of DECOMPRESS to its header -/

/-- R242, R243: the counts selector starts the first count. -/
theorem selectorRead_counts (s : State) :
    selectorRead s.params.SEL_COUNTS.toNat s = s.goto (.read 32 0 (.count 0 (Vector.replicate 256 0))) := by
  simp [selectorRead]

/-- R242, R243: the tree selector starts the length field. -/
theorem selectorRead_tree {s : State} (h : s.params.Distinct) :
    selectorRead s.params.SEL_TREE.toNat s = s.goto (.read 32 0 .treeLen) := by
  simp [selectorRead, h.symm]

/-- R240: behind the magic number and a selector v of the format whose first field is k, DECOMPRESS begins that field. -/
theorem decompress_header_reaches {s : State} {st : Stream} {v : Word} {k : ReadCont} {r : Bits} (h : Ready s st)
    (hselector : ∀ w : State, w.params = s.params → selectorRead v.toNat w = w.goto (.read 32 0 k))
    (hbits : bitsOf st.bytes = bin 32 s.params.MAGIC_NUMBER.toNat ++ bin 32 v.toNat ++ r) :
    let u := takeStream (accept .decompress s)
    ∃ br q, Reaches u ((u.moved br q).goto (.read 32 0 k)) ∧ (u.moved br q).unread = r ∧ br.k < 8 := by
  intro u
  obtain ⟨hstart, hk, hunread⟩ := decompress_start s
  rw [h.stream, hbits, List.append_assoc] at hunread
  obtain ⟨br₁, q₁, hmagic, hunread₁, hbr₁⟩ := magic_reaches (s := u) (hk ▸ by decide) hunread
  obtain ⟨br, q, hselect, hunread₂, hbr⟩ := selector_val (s := u.moved br₁ q₁) v hbr₁ hunread₁
  rw [hselector (State.goto ((u.moved br₁ q₁).moved br q) (.read 0 v.toNat .selector)) rfl] at hselect
  exact ⟨br, q, hstart.trans (hmagic.trans hselect), hunread₂, hbr⟩

/-- The error of a header decoder that needs a bit and finds the terminator (R175, R176, R271). -/
def headerError : Terminator → Err
  | .eos  => .headerCorruption
  | .fail => .streamReadFailure

theorem endError_of_header {k : ReadCont} (h : eosError k = .headerCorruption) (x : Terminator) : endError k x = headerError x := by
  cases x with
  | eos => exact h
  | fail => rfl

/-! ### The counts header cut short -/

/-- R175: a count read before the last is followed by the next count. -/
theorem countRead_of_lt {i : Fin 256} (h : i.val + 1 < 256) (F : FreqTable) (v : Nat) (s : State) :
    countRead i F v s = s.goto (.read 32 0 (.count ⟨i.val + 1, h⟩ (F.set i (BitVec.ofNat 32 v)))) := dif_pos h

/-- R175: with fewer bits left than the counts from i on take, one of these counts is read with fewer bits than it needs. -/
theorem counts_reaches_short {i : Fin 256} {F : FreqTable} {s : State} (hb : s.br.k < 8)
    (hp : s.phase = .busy (.read 32 0 (.count i F))) (hshort : s.unread.length < 32 * (256 - i.val)) :
    ∃ br q j G, Reaches s ((s.moved br q).goto (.read 32 0 (.count j G))) ∧ (s.moved br q).unread.length < 32 ∧ br.k < 8 := by
  induction hd : 256 - i.val generalizing i F s with
  | zero => have := i.isLt; omega
  | succ d ih =>
    rcases Nat.lt_or_ge s.unread.length 32 with hlast | hfield
    · have hself : (s.moved s.br s.inCur.bytes).goto (.read 32 0 (.count i F)) = s := by rw [moved_self, State.goto, ← hp]
      exact ⟨s.br, s.inCur.bytes, i, F, hself.symm ▸ .refl s, hlast, hb⟩
    · have hnext : i.val + 1 < 256 := by omega
      let v := val (s.unread.take 32)
      let G := F.set i (BitVec.ofNat 32 v)
      obtain ⟨br₁, q₁, hcount, hunread, hbr₁⟩ := read_field (v := v) (rest := s.unread.drop 32) (val_take_lt 32 s.unread) hb hp
        (by rw [← val_take hfield, List.take_append_drop])
      obtain ⟨br, q, j, H, hlater, hlen, hbr⟩ := ih (i := ⟨i.val + 1, hnext⟩) (F := G)
        (s := (s.moved br₁ q₁).goto (.read 32 0 (.count ⟨i.val + 1, hnext⟩ G))) hbr₁ rfl
        (by show (s.moved br₁ q₁).unread.length < 32 * (256 - (i.val + 1)); rw [hunread, List.length_drop]; omega)
        (by show 256 - (i.val + 1) = d; omega)
      have hread : readDone (.count i F) v ((s.moved br₁ q₁).goto (.read 0 v (.count i F))) =
          (s.moved br₁ q₁).goto (.read 32 0 (.count ⟨i.val + 1, hnext⟩ G)) := countRead_of_lt hnext F v _
      exact ⟨br, q, j, H, (hread ▸ hcount).trans hlater, hlen, hbr⟩

/-- Settles O45: one of the 256 counts is read with fewer bits than it needs (counts_reaches_short), and that read ends the command. -/
theorem countsHeaderCutShort : Obligations.CountsHeaderCutShort := by
  intro s bytes r x h hbits hshort
  let u := takeStream (accept .decompress s)
  obtain ⟨br₁, q₁, hheader, hunread, hbr₁⟩ :=
    decompress_header_reaches h (fun w hw => hw ▸ selectorRead_counts w) hbits
  rw [← hunread] at hshort
  obtain ⟨br₂, q₂, i, F, hcount, hlen, hbr₂⟩ :=
    counts_reaches_short (s := (u.moved br₁ q₁).goto (.read 32 0 (.count 0 (Vector.replicate 256 0)))) hbr₁ rfl hshort
  obtain ⟨br, p, hend, -⟩ := read_exhausted (s := (u.moved br₂ q₂).goto (.read 32 0 (.count i F))) hbr₂ rfl hlen
    (congrArg Stream.term h.stream)
  have hexec := command_of_reaches h posOk_decompress (hheader.trans (hcount.trans hend)) (quiescent_idle rfl)
  rw [endError_of_header rfl] at hexec
  refine ⟨_, hexec, ?_, rfl, rfl, rfl, ⟨rfl, rfl, rfl, rfl⟩⟩
  cases x with
  | eos => exact raise_ended .headerCorruption _
  | fail => exact raise_ended .streamReadFailure _

/-! ### The explicit-tree header -/

/-- The block is about to read the length field of an explicit-tree header, the bits r are unread, and nothing is written yet (R240,
R176). -/
structure TreeHeaderNext (r : Bits) (s : State) : Prop where
  phase   : s.phase = .busy (.read 32 0 .treeLen)
  reader  : s.br.k < 8
  unread  : s.unread = r
  errcode : s.errcode = 0
  nout    : s.bw.nout = 0

/-- A read of the header decoder has fewer bits than it needs (R176). -/
def ReadsShort (s : State) : Prop :=
  ∃ n k t, Reaches s t ∧ SameWritten s t ∧ t.phase = .busy (.read n 0 k) ∧ eosError k = .headerCorruption ∧ t.br.k < 8 ∧
    t.unread.length < n ∧ t.inCur.term = s.inCur.term

/-- The bits r hold no 32-bit length field with as many bits after it as it declares. -/
def Undelivered (r : Bits) : Prop :=
  ∀ (T : Nat) (body rest : Bits), T < 2 ^ 32 → body.length = T → r ≠ bin 32 T ++ body ++ rest

/-- The length field and what follows it are told apart. -/
theorem lengthField_inj {T T' : Nat} {x y : Bits} (hT : T < 2 ^ 32) (hT' : T' < 2 ^ 32) (h : bin 32 T ++ x = bin 32 T' ++ y) :
    T = T' ∧ x = y := by
  obtain ⟨hlength, hrest⟩ := List.append_inj h (by simp)
  exact ⟨bin_injective hT hT' hlength, hrest⟩

theorem CutShort.readsShort {r : Bits} {s : State} (h : CutShort r s) : ReadsShort s := by
  obtain ⟨n, k, t, hreach, hwritten, hphase, heos, hbr, hlen, hterm, -⟩ := h
  exact ⟨n, k, t, hreach, hwritten, hphase, heos, hbr, hlen, hterm⟩

theorem CutShort.undelivered {r : Bits} {s : State} (h : CutShort r s) : Undelivered r := by
  obtain ⟨-, -, -, -, -, -, -, -, -, -, T', c, hT', rfl, hshort⟩ := h
  intro T body rest hT hbody heq
  rw [List.append_assoc] at heq
  obtain ⟨rfl, rfl⟩ := lengthField_inj hT' hT heq
  rw [List.length_append] at hshort
  omega

theorem undelivered_of_length_lt {r : Bits} (h : r.length < 32) : Undelivered r := by
  rintro T body rest - - rfl
  simp at h

/-- R176, R178: with the length field T read, TAKE(1) tests its bound before the first token. -/
theorem treeLenRead_eq (T : Nat) (s : State) : treeLenRead T s =
    if T = 0 then raise .headerCorruption s
    else s.goto (.read 1 0 (.token { T := T, c := 0, ni := 0, seen := [], stack := [] })) := by
  simp [treeLenRead, takeField]

/-- R177, R178: the header decoder, whatever the terminator: a header that is not valid is found corrupt within the bits it declares, or
they are not all there and a read is short of bits. -/
theorem treeHeader_corrupt_or_short {r : Bits} {s : State} (h : TreeHeaderNext r s) (hinvalid : ¬ ValidTreeHeader r) :
    FoundCorrupt r s ∨ (ReadsShort s ∧ Undelivered r) := by
  rcases Nat.lt_or_ge r.length 32 with hlen | hlen
  · exact .inr ⟨⟨32, .treeLen, s, .refl s, ⟨rfl, rfl⟩, h.phase, rfl, h.reader, h.unread.symm ▸ hlen, rfl⟩, undelivered_of_length_lt hlen⟩
  let T := val (r.take 32)
  have hT : T < 2 ^ 32 := val_take_lt 32 r
  have hsplit : r = bin 32 T ++ r.drop 32 := by rw [← val_take hlen, List.take_append_drop]
  obtain ⟨br, q, hfield, hunread, hbr⟩ := read_field hT h.reader h.phase (h.unread.trans hsplit)
  replace hfield : Reaches s (treeLenRead T ((s.moved br q).goto (.read 0 T .treeLen))) := hfield
  rw [treeLenRead_eq] at hfield
  split at hfield
  · refine .inl ⟨_, hfield, ⟨rfl, rfl⟩, hbr, T, [], hT, Nat.zero_le T, ?_⟩
    rw [List.append_nil]
    exact hsplit.trans (congrArg _ hunread.symm)
  · next hpos =>
    let p : ParseState := { T := T, c := 0, ni := 0, seen := [], stack := [] }
    have hat : ParseAt r ((s.moved br q).goto (.read 1 0 (.token p))) p :=
      { consumed := by rw [show serOpen p.stack = [] from rfl, List.append_nil]; exact hsplit.trans (congrArg _ hunread.symm)
        T := hT, c := rfl, room := Nat.pos_of_ne_zero hpos, nd := .nil, seen := fun _ => .rfl }
    rcases parse_total r _ _ p (Nat.le_refl _) hbr rfl hat with hcorrupt | hvalid | hcut
    · exact .inl (.of_reaches hfield ⟨rfl, rfl⟩ hcorrupt)
    · exact absurd hvalid hinvalid
    · exact .inr ⟨(hcut.of_reaches hfield ⟨rfl, rfl⟩ rfl).readsShort, hcut.undelivered⟩

/-! ### How the command ends -/

/-- Where a corrupt header ends the command (R279), and what it has read. -/
theorem FoundCorrupt.ended {r : Bits} {s t : State} (h : FoundCorrupt r s) (hnout : s.bw.nout = 0) (ht : Reaches s t)
    (hrest : t.quiescent = true) : Ended t 3 0 ∧ t.out = s.out ∧
      ∃ (T : Nat) (c : Bits), T < 2 ^ 32 ∧ c.length ≤ T ∧ r = bin 32 T ++ c ++ t.unread := by
  obtain ⟨w, hraise, ⟨hout, hbw⟩, -, hread⟩ := h
  obtain rfl := ht.unique hraise hrest (quiescent_idle rfl)
  have hended := raise_ended .headerCorruption w
  rw [hbw, hnout] at hended
  exact ⟨hended, hout, hread⟩

/-- Where a read that is short of bits ends the command (R271, R273), with everything read. -/
theorem ReadsShort.ended {s t : State} {x : Terminator} (h : ReadsShort s) (hterm : s.inCur.term = some x) (hnout : s.bw.nout = 0)
    (ht : Reaches s t) (hrest : t.quiescent = true) : Ended t (headerError x).code 0 ∧ t.out = s.out ∧ t.unread = [] := by
  obtain ⟨n, k, w, hreach, ⟨hout, hbw⟩, hphase, heos, hbr, hlen, hterm'⟩ := h
  obtain ⟨br, p, hraise, hk⟩ := read_exhausted hbr hphase hlen (hterm'.trans hterm)
  rw [endError_of_header heos] at hraise
  obtain rfl := ht.unique (hreach.trans hraise) hrest (quiescent_idle rfl)
  have hended := raise_ended (headerError x) ((w.moved br []).goto p)
  rw [show ((w.moved br []).goto p).bw.nout = 0 from (congrArg _ hbw).trans hnout] at hended
  refine ⟨hended, hout, ?_⟩
  show bin br.k br.cur.toNat ++ bitsOf [] = []
  rw [hk]
  rfl

/-- Past a valid header nothing is HEADER_CORRUPTION (R177, R248). -/
theorem TreeHeaderNext.errcode_ne_of_valid {r : Bits} {s t : State} (h : TreeHeaderNext r s) (hvalid : ValidTreeHeader r)
    (ht : Reaches s t) (hrest : t.quiescent = true) : t.errcode ≠ 3 := by
  obtain ⟨u, rest, hnodup, heof, hr⟩ := hvalid
  obtain ⟨br, q, hheader, -, -⟩ := headerTree_reaches h.reader h.phase (h.unread.trans hr) hnodup heof
  obtain ⟨n, hn⟩ := hheader.continues ht hrest
  have hpast : PastHeader (startWalk u.unweighted (s.moved br q)) :=
    ⟨by show s.errcode ≠ 3; rw [h.errcode]; decide, trivial⟩
  have hpastEnd : PastHeader t := hn ▸ run_keeps PastHeader.step n hpast
  exact hpastEnd.1

/-! ### A header that could still go on -/

/-- s with the terminator of the running command's stream still to be supplied. -/
def State.unterminated (s : State) : State := { s with inCur := { bytes := s.inCur.bytes, term := none } }

/-- Supplying the terminator again gives back the state. -/
theorem unterminated_extended (s : State) : s.unterminated.extended [] s.inCur.term = s := by
  simp [State.unterminated, State.extended, Stream.supply]

theorem extended_inCur {s : State} (h : s.inCur.term = none) (b : List Byte) (x : Option Terminator) :
    (s.extended b x).inCur = { bytes := s.inCur.bytes ++ b, term := x } := by
  simp [State.extended, Stream.supply, h]

/-- R314: bytes supplied are unread bits behind those of the stream so far. -/
theorem extended_unread {s : State} (h : s.inCur.term = none) (b : List Byte) (x : Option Terminator) :
    (s.extended b x).unread = s.unread ++ bitsOf b := by
  show bin s.br.k s.br.cur.toNat ++ bitsOf (s.extended b x).inCur.bytes = _
  rw [extended_inCur h, bitsOf_append, State.unread, List.append_assoc]

/-- R314: what the block reaches with the stream so far it reaches with more of it. -/
theorem Reaches.extended {s t : State} (h : Reaches s t) (hterm : s.inCur.term = none) (b : List Byte) (x : Option Terminator) :
    Reaches (s.extended b x) (t.extended b x) := by
  obtain ⟨n, rfl⟩ := h
  exact run_extended b x n hterm

theorem TreeHeaderNext.extended {r : Bits} {s : State} (h : TreeHeaderNext r s) (hterm : s.inCur.term = none) (b : List Byte)
    (x : Option Terminator) : TreeHeaderNext (r ++ bitsOf b) (s.extended b x) where
  phase := h.phase
  reader := h.reader
  unread := h.unread ▸ extended_unread hterm b x
  errcode := h.errcode
  nout := h.nout

theorem ReadsShort.terminated {s : State} (h : ReadsShort s) (hterm : s.inCur.term = none) (x : Option Terminator) :
    ReadsShort (s.extended [] x) := by
  obtain ⟨n, k, t, hreach, hwritten, hphase, heos, hbr, hlen, hterm'⟩ := h
  have htermt := hterm'.trans hterm
  refine ⟨n, k, t.extended [] x, hreach.extended hterm [] x, hwritten, hphase, heos, hbr, ?_, ?_⟩
  · rwa [extended_unread htermt, bitsOf_nil, List.append_nil]
  · rw [extended_inCur htermt, extended_inCur hterm]

/-- What follows a valid header is not part of it (R179). -/
theorem ValidTreeHeader.append {r : Bits} (h : ValidTreeHeader r) (y : Bits) : ValidTreeHeader (r ++ y) := by
  obtain ⟨u, rest, hnodup, heof, rfl⟩ := h
  exact ⟨u, rest ++ y, hnodup, heof, List.append_assoc _ _ _⟩

/-- R178: the start of a valid header is not found corrupt, since the block would find it so with the rest supplied as well. -/
theorem TreeHeaderNext.not_foundCorrupt {r y : Bits} {s : State} (h : TreeHeaderNext r s) (hterm : s.inCur.term = none)
    (hvalid : ValidTreeHeader (r ++ y)) : ¬ FoundCorrupt r s := by
  rintro ⟨w, hraise, -⟩
  obtain ⟨b, hb⟩ := exists_bitsOf (padded_length_mod y)
  have hvalid' : ValidTreeHeader (r ++ bitsOf b) := by
    rw [hb, padded, ← List.append_assoc]
    exact hvalid.append _
  exact (h.extended hterm b none).errcode_ne_of_valid hvalid' (hraise.extended hterm b none) (quiescent_idle rfl) rfl

/-- R178: a header that is not valid, where a valid one could still go on, ends in a read that is short of bits. -/
theorem TreeHeaderNext.readsShort_of_goesOn {r y : Bits} {s : State} (h : TreeHeaderNext r s) (hinvalid : ¬ ValidTreeHeader r)
    (hvalid : ValidTreeHeader (r ++ y)) : ReadsShort s := by
  have hnext : TreeHeaderNext r s.unterminated := ⟨h.phase, h.reader, h.unread, h.errcode, h.nout⟩
  rcases treeHeader_corrupt_or_short hnext hinvalid with hcorrupt | ⟨hshort, -⟩
  · exact absurd hcorrupt (hnext.not_foundCorrupt rfl hvalid)
  · exact unterminated_extended s ▸ hshort.terminated rfl s.inCur.term

/-! ### The clauses of R177 and R178 -/

/-- R177: a header that is not valid is HEADER_CORRUPTION when the stream ends. -/
theorem TreeHeaderNext.ended_of_eos {r : Bits} {s t : State} (h : TreeHeaderNext r s) (hinvalid : ¬ ValidTreeHeader r)
    (hterm : s.inCur.term = some .eos) (ht : Reaches s t) (hrest : t.quiescent = true) : Ended t 3 0 ∧ t.out = s.out := by
  rcases treeHeader_corrupt_or_short h hinvalid with hcorrupt | ⟨hshort, -⟩
  · obtain ⟨hended, hout, -⟩ := hcorrupt.ended h.nout ht hrest
    exact ⟨hended, hout⟩
  · obtain ⟨hended, hout, -⟩ := hshort.ended hterm h.nout ht hrest
    exact ⟨hended, hout⟩

/-- R178: a header that is not valid is HEADER_CORRUPTION when the T bits it declares are there, and no bit after them is read. -/
theorem TreeHeaderNext.ended_of_declared {T : Nat} {body rest : Bits} {s t : State}
    (h : TreeHeaderNext (bin 32 T ++ body ++ rest) s) (hinvalid : ¬ ValidTreeHeader (bin 32 T ++ body ++ rest)) (hT : T < 2 ^ 32)
    (hbody : body.length = T) (ht : Reaches s t) (hrest : t.quiescent = true) :
    Ended t 3 0 ∧ t.out = s.out ∧ ∃ left, left <:+ body ∧ t.unread = left ++ rest := by
  rcases treeHeader_corrupt_or_short h hinvalid with hcorrupt | ⟨-, hundelivered⟩
  · obtain ⟨hended, hout, T', c, hT', hc, hread⟩ := hcorrupt.ended h.nout ht hrest
    rw [List.append_assoc, List.append_assoc] at hread
    obtain ⟨rfl, hfollows⟩ := lengthField_inj hT hT' hread
    obtain ⟨left, rfl⟩ : c <+: body :=
      List.prefix_of_prefix_length_le (hfollows ▸ List.prefix_append c _) (List.prefix_append body rest) (hbody ▸ hc)
    rw [List.append_assoc] at hfollows
    exact ⟨hended, hout, left, List.suffix_append c left, (List.append_cancel_left hfollows).symm⟩
  · exact absurd rfl (hundelivered T body rest hT hbody)

/-- R178: a header that is not valid and a stream that fails: STREAM_READ_FAILURE with everything read, or HEADER_CORRUPTION, and the
former where the length field is cut short or a valid header could go on. -/
theorem TreeHeaderNext.ended_of_fail {r : Bits} {s t : State} (h : TreeHeaderNext r s) (hinvalid : ¬ ValidTreeHeader r)
    (hterm : s.inCur.term = some .fail) (ht : Reaches s t) (hrest : t.quiescent = true) :
    t.out = s.out ∧ ((Ended t 1 0 ∧ t.unread = []) ∨ Ended t 3 0) ∧
      (r.length < 32 ∨ (∃ y, ValidTreeHeader (r ++ y)) → Ended t 1 0) := by
  rcases treeHeader_corrupt_or_short h hinvalid with hcorrupt | ⟨hshort, -⟩
  · obtain ⟨hended, hout, T, c, -, -, hread⟩ := hcorrupt.ended h.nout ht hrest
    refine ⟨hout, .inr hended, ?_⟩
    rintro (hlen | ⟨y, hy⟩)
    · rw [hread] at hlen
      simp at hlen
    · exact ((h.readsShort_of_goesOn hinvalid hy).ended hterm h.nout ht hrest).1
  · obtain ⟨hended, hout, hunread⟩ := hshort.ended hterm h.nout ht hrest
    exact ⟨hout, .inl ⟨hended, hunread⟩, fun _ => hended⟩

/-- R240: DECOMPRESS from its acceptance to the length field of the header behind the tree selector. -/
theorem decompress_treeHeaderNext {s : State} {st : Stream} {r : Bits} (h : Ready s st)
    (hbits : bitsOf st.bytes = bin 32 s.params.MAGIC_NUMBER.toNat ++ bin 32 s.params.SEL_TREE.toNat ++ r) :
    ∃ w, Reaches (takeStream (accept .decompress s)) w ∧ TreeHeaderNext r w ∧ w.out = s.out ∧ w.inCur.term = st.term := by
  obtain ⟨br, q, hreach, hunread, hbr⟩ :=
    decompress_header_reaches h (fun w hw => hw ▸ selectorRead_tree (hw ▸ h.inv.params)) hbits
  have hterm : s.inNext.term = st.term := congrArg Stream.term h.stream
  exact ⟨_, hreach, ⟨rfl, hbr, hunread, rfl, rfl⟩, rfl, hterm⟩

/-- R178: TAKE(n) tests its bound before its read. -/
theorem takeField_of_lt {n : Nat} {p : ParseState} (h : p.T < p.c + n) (k : ParseState → ReadCont) (s : State) :
    takeField n k p s = raise .headerCorruption s := if_pos h

theorem tokenRead_internal_of_lt {p : ParseState} (h : p.T < p.c + 2) (s : State) : tokenRead p 0 s = raise .headerCorruption s := by
  rw [tokenRead, if_pos rfl]
  split
  · rfl
  · exact takeField_of_lt (by show p.T < p.c + 1 + 1; omega) .token s

theorem tokenRead_leaf_of_lt {p : ParseState} {v : Nat} (hv : v ≠ 0) (h : p.T < p.c + 10) (s : State) :
    tokenRead p v s = raise .headerCorruption s := by
  rw [tokenRead, if_neg hv]
  exact takeField_of_lt (by show p.T < p.c + 1 + 9; omega) .leafValue s

/-- The block step after a ReadBits is the line that called it (R64). -/
theorem run_one_readDone {s : State} {v : Nat} {k : ReadCont} (h : s.phase = .busy (.read 0 v k)) : run 1 s = readDone k v s := by
  rw [run_succ, run_zero, blockStep_busy h]
  rfl

/-- Settles O44: the command runs to the length field (decompress_treeHeaderNext) and from there to its end as the header, the terminator
and the declared length say; TAKE's bound is the next block step's own test. -/
theorem onlyValidTreeHeadersAreAccepted : Obligations.OnlyValidTreeHeadersAreAccepted := by
  refine ⟨fun s bytes term r h hbits => ?_, fun s hphase => run_one_readDone hphase,
    fun s p hphase hroom => (run_one_readDone hphase).trans (tokenRead_internal_of_lt hroom s),
    fun s v p hphase hv hroom => (run_one_readDone hphase).trans (tokenRead_leaf_of_lt hv hroom s)⟩
  obtain ⟨w, hheader, hnext, hout, hterm⟩ := decompress_treeHeaderNext h hbits
  have hrest := run_horizon_quiescent (accepted_inv h.inv posOk_decompress)
  have hend := hheader.continues ⟨_, rfl⟩ hrest
  refine ⟨_, command_eq h .decompress, (decompress_run _ (within_busy rfl rfl)).1, (run_accepted_frame _ _ s).1,
    fun hvalid => hnext.errcode_ne_of_valid hvalid hend hrest,
    fun hinvalid heos => hout ▸ hnext.ended_of_eos hinvalid (hterm.trans heos) hend hrest,
    fun hinvalid T body rest hT hbody hr => ?_,
    fun hinvalid hfail => hout ▸ hnext.ended_of_fail hinvalid (hterm.trans hfail) hend hrest⟩
  subst hr
  exact hout ▸ hnext.ended_of_declared hinvalid hT hbody hend hrest

end Sys2Proof.Machine

/-! PREPROCESS that fails, and COMPRESS by what it finds of the plan: none, one that skips it, or one it writes the stream of; with the
sizes of a valid plan (R212, R213, R215, R219, R221 to R223). -/

namespace Sys2Proof.Machine

/-! ### Runs that end -/

theorem reaches_of_blockStep_eq {s t : State} (h : blockStep s = t) : Reaches s t := h ▸ .step

/-! ### PREPROCESS that fails -/

/-- R110, R271: COUNT finds a FAIL terminator in place of the next byte. -/
theorem count_fail_blockStep {s : State} {fmt : HeaderFormat} {n : DWord} (hphase : s.phase = .busy (.count fmt n))
    (hbytes : s.inCur.bytes = []) (hterm : s.inCur.term = some .fail) : blockStep s = raise .streamReadFailure s := by
  rw [blockStep_busy hphase]
  simp only [posStep, countStep, inByte_fail hbytes hterm]

/-- R110, R112: COUNT meets a byte whose count is at the ceiling; the bytes r after it stay unread. -/
theorem count_ceiling_blockStep {s : State} {fmt : HeaderFormat} {n : DWord} {b : Byte} {r : List Byte}
    (hphase : s.phase = .busy (.count fmt n)) (hbytes : s.inCur.bytes = b :: r)
    (hfull : freqOf s.plan.freq b = BitVec.allOnes 32) : blockStep s = raise .capacityExceeded (s.setBytes r) := by
  rw [blockStep_busy hphase]
  simp only [posStep, countStep, inByte_cons hbytes]
  exact if_pos hfull

/-- R112: the count of a byte is at the ceiling when it has occurred 2^32 − 1 times. -/
theorem freqOf_countOf_eq_allOnes {bs : List Byte} {b : Byte} (h : bs.count b = 2 ^ 32 - 1) :
    freqOf (countOf bs) b = BitVec.allOnes 32 := by
  apply BitVec.eq_of_toNat_eq
  rw [freqOf_countOf b (by omega), h, BitVec.toNat_allOnes]

/-- R215, R271: a FAIL terminator after bytes that fit the counts. -/
theorem preprocess_fail_reaches {s : State} {fmt : HeaderFormat} {bs : List Byte} (h : Ready s ⟨bs, some .fail⟩)
    (hfit : CountsFit bs) :
    let u := takeStream (accept (.preprocess fmt) s)
    Reaches u (raise .streamReadFailure (counted fmt 0 bs [] (startCount fmt u))) := by
  intro u
  have hcount := preprocess_count_reaches (fmt := fmt) (r := []) (by rwa [List.append_nil]) hfit
  exact hcount.trans (reaches_of_blockStep_eq (count_fail_blockStep rfl rfl (congrArg Stream.term h.stream)))

/-- R215, R278: the (2^32)-th occurrence of a byte value. -/
theorem preprocess_ceiling_reaches {s : State} {fmt : HeaderFormat} {pre post : List Byte} {b : Byte} {term : Option Terminator}
    (h : Ready s ⟨pre ++ b :: post, term⟩) (hfit : CountsFit pre) (hfull : pre.count b = 2 ^ 32 - 1) :
    let u := takeStream (accept (.preprocess fmt) s)
    Reaches u (raise .capacityExceeded ((counted fmt 0 pre (b :: post) (startCount fmt u)).setBytes post)) :=
  (preprocess_count_reaches h hfit).trans
    (reaches_of_blockStep_eq (count_ceiling_blockStep rfl rfl (freqOf_countOf_eq_allOnes hfull)))

/-- Settles O34: COUNT's loop ends in the error entry (preprocess_fail_reaches, preprocess_ceiling_reaches), with the plan that its
first line made invalid. -/
theorem preprocessErrorsLeaveNoPlan : Obligations.PreprocessErrorsLeaveNoPlan := by
  refine ⟨fun s fmt bs h hfit => ?_, fun s fmt pre post b term h hfit hfull => ?_⟩
  · exact ⟨_, command_of_reaches h (posOk_preprocess fmt) (preprocess_fail_reaches h hfit) (quiescent_idle rfl),
      raise_ended .streamReadFailure _, rfl, congrArg (Stream.mk []) (congrArg Stream.term h.stream), rfl, rfl,
      ⟨rfl, rfl, rfl, rfl⟩⟩
  · exact ⟨_, command_of_reaches h (posOk_preprocess fmt) (preprocess_ceiling_reaches h hfit hfull) (quiescent_idle rfl),
      raise_ended .capacityExceeded _, rfl, congrArg (Stream.mk post) (congrArg Stream.term h.stream), rfl, rfl,
      ⟨rfl, rfl, rfl, rfl⟩⟩

/-! ### The sizes of a valid plan -/

/-- R26: a valid plan is one PREPROCESS makes, of a table and the sum of its counts. -/
theorem State.Inv.plan_eq_planOf {s : State} (h : s.Inv) (hvalid : s.plan.valid = true) :
    ∃ fmt F, s.plan = planOf fmt F (BitVec.ofNat 64 (total F)) :=
  ⟨s.plan.fmt, s.plan.freq, h.plan hvalid⟩

/-- R211, R219: 8 times the sum of the counts, exact in 64 bits. -/
theorem planOf_origBits_toNat (fmt : HeaderFormat) (F : FreqTable) :
    (planOf fmt F (BitVec.ofNat 64 (total F))).origBits.toNat = 8 * total F := by
  have hle := total_le F
  have hwidth : (8 : DWord).toNat = 8 := rfl
  simp only [planOf, BitVec.toNat_mul, BitVec.toNat_ofNat, hwidth]
  omega

/-- R213: the projection is whole bytes behind the 64 bits of magic number and selector and the header. -/
theorem planOf_projBits_bounds (fmt : HeaderFormat) (F : FreqTable) (n : DWord) :
    (planOf fmt F n).projBits.toNat % 8 = 0 ∧ 64 + (planOf fmt F n).hdr.length ≤ (planOf fmt F n).projBits.toNat := by
  rw [projBits_toNat]
  exact (projected_bounds fmt F).2

/-- R92, R172: the header's length by its format; the smallest tree serializes to 10 bits behind the 32 of the length field. -/
theorem planOf_hdr_length (fmt : HeaderFormat) (F : FreqTable) (n : DWord) :
    (fmt = .counts → (planOf fmt F n).hdr.length = 8192) ∧ (fmt = .tree → 42 ≤ (planOf fmt F n).hdr.length) :=
  (headerOf_length fmt F).2

/-- R219: the projection is below 2^52. -/
theorem planOf_projBits_lt (fmt : HeaderFormat) (F : FreqTable) (n : DWord) : (planOf fmt F n).projBits.toNat < 2 ^ 52 := by
  have hle := total_le F
  obtain ⟨hbound, -, -⟩ := projected_bounds fmt F
  rw [projBits_toNat]
  omega

/-- Settles O35: the bounds of the projection (planOf_projBits_bounds) with the least length of each header (planOf_hdr_length); 106
bits of an explicit-tree plan are rounded up to 112. -/
theorem projectedSizeBounds : Obligations.ProjectedSizeBounds := by
  intro s h hvalid
  obtain ⟨fmt, F, hplan⟩ := h.plan_eq_planOf hvalid
  rw [hplan]
  obtain ⟨hmod, hle⟩ := planOf_projBits_bounds fmt F (BitVec.ofNat 64 (total F))
  obtain ⟨hcounts, htree⟩ := planOf_hdr_length fmt F (BitVec.ofNat 64 (total F))
  refine ⟨hmod, hle, fun hfmt => ?_, fun hfmt => ?_⟩
  · have := hcounts hfmt
    omega
  · have := htree hfmt
    omega

/-- Settles O36: a valid plan is planOf's, and each of its sizes is the exact one, far below 2^62, so that the difference is exact too
(savings_toInt). -/
theorem planWidthsNeverOverflow : Obligations.PlanWidthsNeverOverflow := by
  intro s h hvalid
  obtain ⟨fmt, F, hplan⟩ := h.plan_eq_planOf hvalid
  rw [hplan]
  have htotal := total_le F
  have horig := planOf_origBits_toNat fmt F
  have hproj := planOf_projBits_lt fmt F (BitVec.ofNat 64 (total F))
  refine ⟨horig, ?_, dataBits_le F, ?_, projBits_toNat fmt F _, hproj, savings_toInt ?_ ?_⟩
  · omega
  · show 256 * total F < 2 ^ 51
    omega
  · omega
  · omega

/-! ### COMPRESS without a plan, and COMPRESS skipped -/

theorem startCompress_of_not_valid {s : State} {force : Bool} (hvalid : s.plan.valid = false) :
    startCompress force s = raise .noPlan s := if_pos hvalid

theorem startCompress_of_skips {s : State} {force : Bool} (hvalid : s.plan.valid = true) (hskip : skips force s.plan = true) :
    startCompress force s = s.goto (.ret 0) := by
  rw [startCompress, if_neg (by simp [hvalid]), if_pos hskip]

/-- R223: without a plan the first block step is the error entry. -/
theorem compress_reaches_noPlan {s : State} {force : Bool} (hvalid : s.plan.valid = false) :
    let u := takeStream (accept (.compress force) s)
    Reaches u (raise .noPlan u) :=
  reaches_of_blockStep_eq (startCompress_of_not_valid hvalid)

/-- Settles O37: the first block step is the error entry (compress_reaches_noPlan), before any port access. -/
theorem compressWithoutPlan : Obligations.CompressWithoutPlan := by
  intro s st force h hvalid
  exact ⟨_, command_of_reaches h (posOk_compress force) (compress_reaches_noPlan hvalid) (quiescent_idle rfl),
    raise_ended .noPlan _, h.stream, rfl, rfl, rfl, ⟨rfl, rfl, rfl, rfl⟩⟩

/-- R221: "exceeds" is strict. -/
theorem skips_of_exceeds {p : Plan} (h : p.origBits < p.projBits) : skips false p = true := by
  simp [skips, h]

/-- R221: a COMPRESS that is skipped goes from its first line to its return. -/
theorem compress_skipped_reaches {s : State} {force : Bool} (hvalid : s.plan.valid = true) (hskip : skips force s.plan = true) :
    let u := takeStream (accept (.compress force) s)
    Reaches u (complete 0 0 u) := by
  intro u
  have hstart : blockStep u = u.goto (.ret 0) := startCompress_of_skips hvalid hskip
  exact .of_step (hstart ▸ .step)

/-! ### COMPRESS that writes -/

/-- R220, R222: what a COMPRESS that is not skipped delivers is as long as the padded stream, and RESULT is its number of
bits. -/
theorem compress_delivers {s : State} {bs : List Byte} {force : Bool} (h : Ready s ⟨bs, some .eos⟩) (hvalid : s.plan.valid = true)
    (hcoded : Coded s.plan bs) (hforce : s.plan.projBits ≤ s.plan.origBits ∨ force = true) :
    ∃ t w, exec (.compress force) s = .next t ∧ t.out = s.out ++ w ∧
      8 * w.length = (padded (streamBits s.params s.plan bs)).length ∧
      Ended t 0 (BitVec.ofNat 64 (padded (streamBits s.params s.plan bs)).length) ∧ t.plan = s.plan := by
  obtain ⟨t, w, pad, hexec, hout, hbits, hpad, hended, -, hplan, -⟩ := compressWritesTheStream s bs force h hvalid hcoded hforce
  replace hbits : bitsOf w = padded (streamBits s.params s.plan bs) := by
    rw [hbits, hpad, padded, streamBits_length]
    rfl
  have hlen : 8 * w.length = (padded (streamBits s.params s.plan bs)).length := by rw [← hbits, bitsOf_length]
  exact ⟨t, w, hexec, hout, hlen, hlen ▸ hended, hplan⟩

/-- R94, R152: each byte adds a code of at most 256 bits to the data. -/
theorem dataOf_planOf_length_le (fmt : HeaderFormat) (F : FreqTable) (n : DWord) (bs : List Byte) :
    (dataOf (planOf fmt F n) bs).length ≤ 256 * bs.length := by
  induction bs with
  | nil => exact Nat.le_refl 0
  | cons b bs ih =>
    have hcode : (codeBits (planOf fmt F n).code (Symbol.ofByte b)).length ≤ 256 := codeBits_length_le F (Symbol.ofByte b)
    calc (dataOf (planOf fmt F n) (b :: bs)).length
      _ = (codeBits (planOf fmt F n).code (Symbol.ofByte b)).length + (dataOf (planOf fmt F n) bs).length := by
          rw [dataOf, List.flatMap_cons, List.length_append, ← dataOf]
      _ ≤ 256 + 256 * bs.length := Nat.add_le_add hcode ih
      _ = 256 * (b :: bs).length := by rw [List.length_cons]; omega

/-- R90, R213: a stream of fewer than 2^50 bytes is coded in 64 bits or more, and in fewer than 2^64. -/
theorem padded_stream_length_bounds {s : State} (h : s.Inv) (hvalid : s.plan.valid = true) {bs : List Byte}
    (hshort : bs.length < 2 ^ 50) :
    64 ≤ (padded (streamBits s.params s.plan bs)).length ∧ (padded (streamBits s.params s.plan bs)).length < 2 ^ 64 := by
  obtain ⟨fmt, F, hplan⟩ := h.plan_eq_planOf hvalid
  rw [hplan]
  have hhdr : (planOf fmt F (BitVec.ofNat 64 (total F))).hdr.length ≤ 8192 := (headerOf_length fmt F).1
  have hdata := dataOf_planOf_length_le fmt F (BitVec.ofNat 64 (total F)) bs
  have heof : (codeBits (planOf fmt F (BitVec.ofNat 64 (total F))).code pseudoEof).length ≤ 256 := codeBits_length_le F pseudoEof
  rw [roundUp8_length, streamBits_length, roundUp8]
  omega

/-- Settles O38: the skip is compress_skipped_reaches; otherwise the stream is delivered (compress_delivers), and the number of its bits
is neither 0 nor wraps (padded_stream_length_bounds). -/
theorem forcePolicy : Obligations.ForcePolicy := by
  refine ⟨fun s st force h hvalid hskip => ?_, fun s bs force h hvalid hcoded hshort hforce => ?_⟩
  · obtain ⟨hexceeds, rfl⟩ := hskip
    exact ⟨_, command_of_reaches h (posOk_compress false) (compress_skipped_reaches hvalid (skips_of_exceeds hexceeds))
        (quiescent_idle rfl),
      ⟨rfl, rfl, rfl, rfl, rfl, rfl⟩, h.stream, rfl, rfl, rfl, ⟨rfl, rfl, rfl, rfl⟩⟩
  · obtain ⟨t, w, hexec, hout, hlen, hended, -⟩ := compress_delivers h hvalid hcoded hforce
    obtain ⟨hmin, hmax⟩ := padded_stream_length_bounds h.inv hvalid hshort
    refine ⟨t, _, hexec, hended, fun hzero => ?_, ?_⟩
    · have hnat := congrArg BitVec.toNat hzero
      rw [BitVec.toNat_ofNat, Nat.mod_eq_of_lt hmax] at hnat
      change _ = 0 at hnat
      omega
    · rw [hout, List.length_append]
      omega

/-- R224: bytes whose counts the plan holds have codes in it. -/
theorem coded_of_counts {p : Plan} {bs : List Byte} (h : ∀ b, (freqOf p.freq b).toNat = bs.count b) : Coded p bs := by
  intro b hb hzero
  have hcount := h b
  rw [hzero] at hcount
  exact (List.count_pos_iff.2 hb).ne hcount

/-- R212: PROJ_BITS is the projection in 64 bits. -/
theorem State.Inv.projBits_eq {s : State} (h : s.Inv) (hvalid : s.plan.valid = true) :
    s.plan.projBits = BitVec.ofNat 64 (projected s.plan.freq s.plan.code s.plan.hdr) := by
  obtain ⟨fmt, F, hplan⟩ := h.plan_eq_planOf hvalid
  rw [hplan]
  rfl

/-- Settles O41: RESULT is the number of bits delivered (compress_delivers), which is the projection when the plan's counts are those
of the bytes (padded_stream_length). -/
theorem compressResultIsTheProjection : Obligations.CompressResultIsTheProjection := by
  intro s bs force h hvalid hcounts hforce
  obtain ⟨t, -, hexec, -, -, hended, hplan⟩ := compress_delivers h hvalid (coded_of_counts hcounts) hforce
  rw [padded_stream_length hcounts, ← h.inv.projBits_eq hvalid] at hended
  exact ⟨t, hexec, hended, hplan⟩

end Sys2Proof.Machine

/-! DECOMPRESS on magic number, header and codes: what it decodes (R240 to R247), how it ends when the stream is not one of these or is
exhausted before the EOF code (R241, R242, R248), and the round trip through the three commands (R251). -/

namespace Sys2Proof.Machine

/-! ### The symbol decode loop -/

/-- DECOMPRESS, accepted in s, at node n of the tree in its symbol loop, with bs delivered and r after the reader br unread (R240 step 4,
R246). -/
def walkingAt (tree n : Tree) (bs : List Byte) (br : BitReader) (r : List Byte) (s : State) : State :=
  { (((takeStream (accept .decompress s)).moved br r).wrote (s.out ++ bs)
      { acc := [], nout := BitVec.ofNat 64 (8 * bs.length) }).goto .walk with
    dec := { tree := tree, node := n, nsym := BitVec.ofNat 64 bs.length } }

/-- R240, R246: DECOMPRESS from its acceptance through the header and the codes of bs, and down a path from the root after them. -/
theorem decompress_path_reaches {s : State} {bytes bs : List Byte} {term : Option Terminator} {h path rest : Bits} {tree n : Tree}
    {code : Byte → Bits} (hready : Ready s ⟨bytes, term⟩) (hheader : Describes s.params h tree)
    (hcodes : ∀ b ∈ bs, ∃ w, tree.follow (code b) = some (.leaf (Symbol.ofByte b) w)) (hpath : tree.follow path = some n)
    (hbits : bitsOf bytes = bin 32 s.params.MAGIC_NUMBER.toNat ++ h ++ bs.flatMap code ++ (path ++ rest)) :
    ∃ br r, Reaches (takeStream (accept .decompress s)) (walkingAt tree n bs br r s) ∧
      (walkingAt tree n bs br r s).unread = rest ∧ br.k < 8 := by
  obtain ⟨br₁, r₁, hsymbols, hunread₁, hbr₁⟩ := decompress_symbols_reaches hready hheader hcodes hbits
  obtain ⟨br, r, hwalk, hunread, hbr⟩ := walk_path (s := walkingAt tree tree bs br₁ r₁ s) hbr₁ rfl rfl hpath hunread₁
  exact ⟨br, r, hsymbols.trans hwalk, hunread, hbr⟩

/-- Settles O42: the codes and the EOF code are walked down to their leaves (decompress_path_reaches), and at the PSEUDO_EOF leaf the
command completes (walk_eof). -/
theorem decompressDecodes : Obligations.DecompressDecodes := by
  rintro s bytes bs term h rest tree code eof hready hheader hcodes ⟨w, heof⟩ hbits
  rw [List.append_assoc _ eof] at hbits
  obtain ⟨br, r, hwalk, hunread, hbr⟩ := decompress_path_reaches hready hheader hcodes heof hbits
  have hend := walk_eof (s := walkingAt tree (.leaf pseudoEof w) bs br r s) rfl rfl
  exact ⟨_, command_of_reaches hready posOk_decompress (hwalk.trans hend) (quiescent_idle rfl), rfl, ⟨rfl, rfl, rfl, rfl, rfl, rfl⟩,
    rfl, rfl, rfl, hunread, hbr, congrArg Stream.term hready.stream, rfl, ⟨rfl, rfl, rfl, rfl⟩⟩

/-! ### Data cut short -/

/-- R246: at an internal node the next bit is read. -/
theorem walk_node_blockStep {s : State} {l r : Tree} {w : DWord} (hphase : s.phase = .busy .walk) (hnode : s.dec.node = .node l r w) :
    blockStep s = s.goto (.read 1 0 .dataBit) := by
  rw [blockStep_busy hphase]
  simp only [posStep, walkStep, hnode]

/-- R248, R271: at an internal node with no bit left the terminator ends the command. -/
theorem walk_node_exhausted {s : State} {l r : Tree} {w : DWord} {x : Terminator} (hphase : s.phase = .busy .walk)
    (hnode : s.dec.node = .node l r w) (hbr : s.br.k < 8) (hunread : s.unread = []) (hterm : s.inCur.term = some x) :
    ∃ br p, Reaches s (raise (endError .dataBit x) ((s.moved br []).goto p)) := by
  obtain ⟨br, p, hend, -⟩ := read_exhausted (s := s.goto (.read 1 0 .dataBit)) hbr rfl
    (by show s.unread.length < 1; simp [hunread]) hterm
  exact ⟨br, p, .of_step (walk_node_blockStep hphase hnode ▸ hend)⟩

/-- Settles O46: the walk is at the internal node that tail leads to (decompress_path_reaches), where no bit is left
(walk_node_exhausted). -/
theorem truncatedDataIsReported : Obligations.TruncatedDataIsReported := by
  rintro s bytes bs x h tail tree code hready hheader hcodes ⟨l, r, w, htail⟩ hbits
  rw [← List.append_nil tail] at hbits
  obtain ⟨br₁, r₁, hwalk, hunread, hbr₁⟩ := decompress_path_reaches hready hheader hcodes htail hbits
  obtain ⟨br, p, hend⟩ := walk_node_exhausted (s := walkingAt tree (.node l r w) bs br₁ r₁ s) rfl rfl hbr₁ hunread
    (congrArg Stream.term hready.stream)
  refine ⟨_, command_of_reaches hready posOk_decompress (hwalk.trans hend) (quiescent_idle rfl), rfl, ?_, rfl, rfl,
    ⟨rfl, rfl, rfl, rfl⟩⟩
  cases x with
  | eos => exact raise_ended .truncatedStream _
  | fail => exact raise_ended .streamReadFailure _

/-! ### Magic number and selector -/

/-- A value of 32 bits that is not that of the word w makes another word. -/
theorem ofNat_ne_word {v : Nat} {w : Word} (hv : v < 2 ^ 32) (h : v ≠ w.toNat) : BitVec.ofNat 32 v ≠ w := by
  rintro rfl
  exact h (by rw [BitVec.toNat_ofNat, Nat.mod_eq_of_lt hv])

/-- R241: a magic number that does not match. -/
theorem magicRead_of_ne {v : Nat} {s : State} (hv : v < 2 ^ 32) (h : v ≠ s.params.MAGIC_NUMBER.toNat) :
    magicRead v s = raise .formatMismatch s := if_pos (ofNat_ne_word hv h)

/-- R242: a selector that matches neither format. -/
theorem selectorRead_of_ne {v : Nat} {s : State} (hv : v < 2 ^ 32) (hcounts : v ≠ s.params.SEL_COUNTS.toNat)
    (htree : v ≠ s.params.SEL_TREE.toNat) : selectorRead v s = raise .formatMismatch s := by
  rw [selectorRead, if_neg (ofNat_ne_word hv hcounts), if_neg (ofNat_ne_word hv htree)]

/-- DECOMPRESS, accepted in s, comes to the ReadBits(32) that returns to k, with the whole bytes left unread (R240 steps 1 and 2). -/
def WordNext (s : State) (k : ReadCont) (left : List Byte) : Prop :=
  let u := takeStream (accept .decompress s)
  ∃ br r, Reaches u ((u.moved br r).goto (.read 32 0 k)) ∧ (u.moved br r).unread = bitsOf left ∧ br.k < 8

/-- DECOMPRESS, accepted in s, comes to the error entry of e, with all but the bytes left of its stream read and nothing else changed
(R279). -/
def FailsWith (s : State) (e : Err) (left : List Byte) : Prop :=
  let u := takeStream (accept .decompress s)
  ∃ br p, Reaches u (raise e ((u.moved br left).goto p)) ∧ br.k = 0

/-- R65: the first four bytes and the bits behind them. -/
theorem bitsOf_eq_word_append {bytes : List Byte} (h : 4 ≤ bytes.length) :
    bitsOf bytes = bin 32 (val ((bitsOf bytes).take 32)) ++ bitsOf (bytes.drop 4) := by
  rw [← val_take (by rw [bitsOf_length]; omega), bitsOf_drop, List.take_append_drop]

/-- R240: the magic number is read first. -/
theorem magic_next {s : State} {bytes : List Byte} {term : Option Terminator} (h : Ready s ⟨bytes, term⟩) :
    WordNext s .magic bytes := by
  let u := takeStream (accept .decompress s)
  obtain ⟨hstart, -, hunread⟩ := decompress_start s
  rw [h.stream] at hunread
  exact ⟨u.br, u.inCur.bytes, hstart, hunread, Nat.zero_lt_succ 7⟩

/-- R240, R241: the selector is read behind a magic number that matches. -/
theorem selector_next {s : State} {bytes : List Byte} {term : Option Terminator} (h : Ready s ⟨bytes, term⟩)
    (hlen : 4 ≤ bytes.length) (hmagic : val ((bitsOf bytes).take 32) = s.params.MAGIC_NUMBER.toNat) : WordNext s .selector (bytes.drop 4) := by
  let u := takeStream (accept .decompress s)
  obtain ⟨hstart, -, hunread⟩ := decompress_start s
  rw [h.stream, bitsOf_eq_word_append hlen, hmagic] at hunread
  obtain ⟨br, r, hread, hrest, hbr⟩ := magic_reaches (s := u) (Nat.zero_lt_succ 7) hunread
  exact ⟨br, r, hstart.trans hread, hrest, hbr⟩

/-- R241, R242: a word that the line that reads it takes for a format error; the bytes behind it stay unread. -/
theorem WordNext.mismatch {s : State} {k : ReadCont} {left : List Byte} (h : WordNext s k left) (hlen : 4 ≤ left.length)
    (hraise : ∀ w : State, w.params = s.params → readDone k (val ((bitsOf left).take 32)) w = raise .formatMismatch w) :
    FailsWith s .formatMismatch (left.drop 4) := by
  let u := takeStream (accept .decompress s)
  obtain ⟨br₁, r₁, hnext, hunread, hbr₁⟩ := h
  rw [bitsOf_eq_word_append hlen] at hunread
  obtain ⟨br, r, hread, hrest, hbr⟩ :=
    read_field (s := (u.moved br₁ r₁).goto (.read 32 0 k)) (val_take_lt 32 (bitsOf left)) hbr₁ rfl hunread
  obtain ⟨hk, rfl⟩ : br.k = 0 ∧ r = left.drop 4 := unread_bytes hbr hrest
  rw [hraise] at hread
  · exact ⟨br, _, hnext.trans hread, hk⟩
  · rfl

/-- R64, R241, R242: a stream that ends inside the word. -/
theorem WordNext.short {s : State} {k : ReadCont} {bytes left : List Byte} {x : Terminator} (h : WordNext s k left)
    (hready : Ready s ⟨bytes, some x⟩) (hlen : left.length < 4) : FailsWith s (endError k x) [] := by
  let u := takeStream (accept .decompress s)
  obtain ⟨br₁, r₁, hnext, hunread, hbr₁⟩ := h
  have hfew : (u.moved br₁ r₁).unread.length < 32 := by
    rw [hunread, bitsOf_length]
    omega
  obtain ⟨br, p, hend, hk⟩ := read_exhausted (s := (u.moved br₁ r₁).goto (.read 32 0 k)) hbr₁ rfl hfew
    (congrArg Stream.term hready.stream)
  exact ⟨br, p, hnext.trans hend, hk⟩

/-- R241: a magic number that does not match. -/
theorem magic_mismatch {s : State} {bytes : List Byte} {term : Option Terminator} (h : Ready s ⟨bytes, term⟩)
    (hlen : 4 ≤ bytes.length) (hmagic : val ((bitsOf bytes).take 32) ≠ s.params.MAGIC_NUMBER.toNat) :
    FailsWith s .formatMismatch (bytes.drop 4) :=
  (magic_next h).mismatch hlen fun _ hw => magicRead_of_ne (val_take_lt 32 _) (hw ▸ hmagic)

/-- R242: behind a magic number that matches, a selector that matches neither format. -/
theorem selector_mismatch {s : State} {bytes : List Byte} {term : Option Terminator} (h : Ready s ⟨bytes, term⟩)
    (hlen : 8 ≤ bytes.length) (hmagic : val ((bitsOf bytes).take 32) = s.params.MAGIC_NUMBER.toNat)
    (hcounts : val (((bitsOf bytes).drop 32).take 32) ≠ s.params.SEL_COUNTS.toNat)
    (htree : val (((bitsOf bytes).drop 32).take 32) ≠ s.params.SEL_TREE.toNat) :
    FailsWith s .formatMismatch (bytes.drop 8) := by
  rw [← bitsOf_drop bytes 4] at hcounts htree
  have hfails := (selector_next h (by omega) hmagic).mismatch (by rw [List.length_drop]; omega)
    fun _ hw => selectorRead_of_ne (val_take_lt 32 _) (hw ▸ hcounts) (hw ▸ htree)
  rwa [List.drop_drop] at hfails

/-- R241, R242, R271: a stream that ends inside the magic number, or inside the selector behind one that matches. -/
theorem format_short {s : State} {bytes : List Byte} {x : Terminator} (h : Ready s ⟨bytes, some x⟩)
    (hshort : bytes.length < 4 ∨ (bytes.length < 8 ∧ val ((bitsOf bytes).take 32) = s.params.MAGIC_NUMBER.toNat)) :
    FailsWith s (endError .magic x) [] := by
  rcases Nat.lt_or_ge bytes.length 4 with hlen | hlen
  · exact (magic_next h).short h hlen
  · obtain ⟨hlen', hmagic⟩ := hshort.resolve_left (by omega)
    have hsame : endError .selector x = endError .magic x := by cases x <;> rfl
    exact hsame ▸ (selector_next h hlen hmagic).short h (by rw [List.length_drop]; omega)

/-- R279: how a DECOMPRESS that fails in this way ends. -/
theorem FailsWith.ended {s : State} {bytes left : List Byte} {term : Option Terminator} {e : Err} (hfails : FailsWith s e left)
    (h : Ready s ⟨bytes, term⟩) :
    ∃ t, exec (.decompress false) s = .next t ∧ Ended t e.code 0 ∧ t.inCur = ⟨left, term⟩ ∧ t.unread = bitsOf left ∧
      t.out = s.out ∧ t.dec = s.dec ∧ t.plan = s.plan ∧ OutsideKept s t := by
  obtain ⟨br, p, hreach, hk⟩ := hfails
  refine ⟨_, command_of_reaches h posOk_decompress hreach (quiescent_idle rfl), raise_ended e _,
    congrArg (Stream.mk left) (congrArg Stream.term h.stream), ?_, rfl, rfl, rfl, ⟨rfl, rfl, rfl, rfl⟩⟩
  show bin br.k br.cur.toNat ++ bitsOf left = bitsOf left
  rw [hk]
  rfl

/-- Settles O43: in each case the command comes to its error entry with no more read than the two fields (magic_mismatch,
selector_mismatch, format_short). -/
theorem decompressChecksMagicAndSelector : Obligations.DecompressChecksMagicAndSelector := by
  rintro s bytes left term code h (⟨hlen, hmagic, rfl, rfl⟩ | ⟨hlen, hmagic, hcounts, htree, rfl, rfl⟩ | ⟨hshort, hterm, rfl⟩)
  · exact (magic_mismatch h hlen hmagic).ended h
  · exact (selector_mismatch h hlen hmagic hcounts htree).ended h
  · rcases hterm with ⟨rfl, rfl⟩ | ⟨rfl, rfl⟩ <;> exact (format_short h hshort).ended h

/-! ### The tree a decoder rebuilds -/

/-- The tree DECOMPRESS rebuilds from the header of a plan of the counts F (R175, R176, R180). -/
def rebuilt (F : FreqTable) : HeaderFormat → Tree
  | .counts => build F
  | .tree   => (build F).unweighted

theorem describes_rebuilt (p : Params) (F : FreqTable) (fmt : HeaderFormat) :
    Describes p (bin 32 (selectorOf p fmt).toNat ++ headerOf fmt F (build F)) (rebuilt F fmt) := by
  cases fmt with
  | counts => exact .inr ⟨F, rfl, rfl⟩
  | tree => exact .inl ⟨build F, build_leaves_nodup F, build_eofTree F, rfl, rfl⟩

/-- GEN looks at no weight (R150). -/
theorem genInto_unweighted (t : Tree) (p : Bits) (code : CodeTable) : genInto t.unweighted p code = genInto t p code := by
  induction t generalizing p code with
  | leaf s w => rfl
  | node l r w hl hr => rw [Tree.unweighted, genInto, genInto, hl, hr]

theorem genCodes_rebuilt (F : FreqTable) (fmt : HeaderFormat) : genCodes (rebuilt F fmt) = genCodes (build F) := by
  cases fmt with
  | counts => rfl
  | tree => exact genInto_unweighted (build F) [] _

theorem rebuilt_leaves (F : FreqTable) (fmt : HeaderFormat) : (rebuilt F fmt).leaves = (build F).leaves := by
  cases fmt with
  | counts => rfl
  | tree => exact unweighted_leaves (build F)

/-- R151, R180: the codes COMPRESS writes are the paths in the tree DECOMPRESS rebuilds. -/
theorem rebuilt_follow_codeBits {F : FreqTable} (fmt : HeaderFormat) {x : Symbol} (hx : x ∈ (build F).leaves) :
    ∃ w, (rebuilt F fmt).follow (codeBits (genCodes (build F)) x) = some (.leaf x w) := by
  obtain ⟨q, w, -, hcode, hpath⟩ := genCodes_of_mem (t := rebuilt F fmt) (rebuilt_leaves F fmt ▸ build_leaves_nodup F)
    (rebuilt_leaves F fmt ▸ hx)
  rw [genCodes_rebuilt] at hcode
  exact ⟨w, hcode ▸ hpath⟩

/-! ### The round trip -/

/-- R311: a command that has completed leaves the block ready for the next one, once its stream is presented. -/
theorem Ready.next {i : Instr} {s t : State} {st : Stream} (h : Ready s st) (hexec : exec i s = .next t) (hidle : t.phase = .idle)
    (hkept : OutsideKept s t) (st' : Stream) : Ready { t with inNext := st' } st' := by
  obtain ⟨t', hexec', hinv⟩ := exec_answersInv h.inv i
  obtain rfl : t = t' := Host.Outcome.next.inj (hexec.symm.trans hexec')
  exact ⟨around_inv hinv t.rdata t.events t.pace st', hidle, hkept.pace.trans h.alone, rfl⟩

/-- R251, R180: DECOMPRESS on the stream of a plan that PREPROCESS made, whatever follows it. -/
theorem decompress_planned {s : State} {w bs : List Byte} {term : Option Terminator} {fmt : HeaderFormat} {F : FreqTable}
    {rest : Bits} (h : Ready s ⟨w, term⟩) (hcoded : ∀ b ∈ bs, freqOf F b ≠ 0)
    (hbits : bitsOf w = bin 32 s.params.MAGIC_NUMBER.toNat ++ bin 32 (selectorOf s.params fmt).toNat ++ headerOf fmt F (build F)
      ++ (bs.flatMap fun b => codeBits (genCodes (build F)) (Symbol.ofByte b)) ++ codeBits (genCodes (build F)) pseudoEof ++ rest) :
    ∃ t, exec (.decompress false) s = .next t ∧ t.out = s.out ++ bs ∧ Ended t 0 (BitVec.ofNat 64 (8 * bs.length)) ∧
      genCodes t.dec.tree = genCodes (build F) := by
  rw [List.append_assoc (bin 32 s.params.MAGIC_NUMBER.toNat)] at hbits
  obtain ⟨t, hexec, hout, hended, -, htree, -⟩ := decompressDecodes s w bs term _ rest (rebuilt F fmt) _ _ h
    (describes_rebuilt s.params F fmt)
    (fun b hb => rebuilt_follow_codeBits fmt (ofByte_mem_build_leaves_iff.2 (hcoded b hb)))
    (rebuilt_follow_codeBits fmt (build_eofTree F)) hbits
  exact ⟨t, hexec, hout, hended, htree ▸ genCodes_rebuilt F fmt⟩

/-- Settles O47: PREPROCESS makes the plan of bs, COMPRESS writes the stream of that plan, and that stream decodes to bs
(decompress_planned). -/
theorem roundTripReproducesTheInput : Obligations.RoundTripReproducesTheInput := by
  intro s fmt bs h hfit
  obtain ⟨t₁, v, hexec₁, hended₁, hvalid, hfmt, hcounts, -, htree, hcode, hhdr, -, -, -, -, -, -, hkept₁⟩ :=
    preprocessMakesThePlan s fmt bs h hfit
  have hready₂ := h.next hexec₁ hended₁.idle hkept₁ ⟨bs, some .eos⟩
  have hcoded : Coded t₁.plan bs := coded_of_counts hcounts
  obtain ⟨t₂, w, pad, hexec₂, hout₂, hbits, -, hended₂, -, -, -, hkept₂⟩ :=
    compressWritesTheStream _ bs true hready₂ hvalid hcoded (.inr rfl)
  have hready₃ := hready₂.next hexec₂ hended₂.idle hkept₂ ⟨w, some .eos⟩
  have hparams : t₂.params = t₁.params := hkept₂.params
  have hstream : bitsOf w = bin 32 t₂.params.MAGIC_NUMBER.toNat ++ bin 32 (selectorOf t₂.params fmt).toNat
      ++ headerOf fmt t₁.plan.freq (build t₁.plan.freq)
      ++ (bs.flatMap fun b => codeBits (genCodes (build t₁.plan.freq)) (Symbol.ofByte b))
      ++ codeBits (genCodes (build t₁.plan.freq)) pseudoEof ++ List.replicate pad false := by
    rw [hparams, ← htree, ← hcode, ← hhdr, ← hfmt]
    exact hbits
  obtain ⟨t₃, hexec₃, hout₃, hended₃, hcodes⟩ := decompress_planned hready₃ hcoded hstream
  exact ⟨t₁, hexec₁, t₂, w, hexec₂, hout₂, hended₂.errcode, t₃, hexec₃, hout₃, hended₃, by rw [hcodes, hcode, htree]⟩

end Sys2Proof.Machine

/-! The errors of a command: the error entry and its codes, the one place STREAM_READ_FAILURE is raised at, and COMPRESS ended by an
error of its stream (R64, R85, R224, R270, R271, R277, R279). -/

namespace Sys2Proof.Machine

/-! ### The error entry -/

/-- Settles O14: the table of R270. -/
theorem errorCodesOfTheTable : Obligations.ErrorCodesOfTheTable := ⟨rfl, rfl, rfl, rfl, rfl, rfl, rfl, rfl⟩

theorem Err.code_ne_zero (e : Err) : e.code ≠ 0 := by cases e <;> decide

/-- R271: code 1 is that of STREAM_READ_FAILURE alone. -/
@[simp] theorem Err.code_eq_one {e : Err} : e.code = 1#4 ↔ e = .streamReadFailure := by cases e <;> decide

/-- Settles O13: raise_ended, with no code 0 in the table, and the error entry touches nothing but the status and the pending bits. -/
theorem errorEntry : Obligations.ErrorEntry := fun s e =>
  ⟨raise_ended e s, bne_iff_ne.2 (Err.code_ne_zero e), rfl, rfl, rfl, rfl, rfl, rfl, rfl, rfl, rfl, rfl, rfl⟩

/-! ### Block steps that do not end with code 1 -/

section

variable {s : State} (h : s.errcode ≠ 1)
include h

theorem countByte_errcode_ne_one (fmt : HeaderFormat) (n : DWord) (b : Byte) : (countByte fmt n b s).errcode ≠ 1 := by
  unfold countByte
  split
  · simp
  · exact h

theorem startCompress_errcode_ne_one (force : Bool) : (startCompress force s).errcode ≠ 1 := by
  unfold startCompress
  split
  · simp
  · split <;> exact h

theorem symbolByte_errcode_ne_one (b : Byte) : (symbolByte b s).errcode ≠ 1 := by
  unfold symbolByte
  split
  · simp
  · exact h

theorem walkStep_errcode_ne_one : (walkStep s).errcode ≠ 1 := by
  unfold walkStep
  split
  · split <;> exact h
  · exact h

theorem emitDone_errcode_ne_one (k : EmitCont) : (emitDone k s).errcode ≠ 1 := by cases k <;> exact h

/-- R178: TAKE's own error is HEADER_CORRUPTION. -/
theorem takeField_errcode_ne_one (n : Nat) (k : ParseState → ReadCont) (p : ParseState) : (takeField n k p s).errcode ≠ 1 := by
  unfold takeField
  split
  · simp
  · exact h

theorem parseDone_errcode_ne_one (root : Tree) (p : ParseState) : (parseDone root p s).errcode ≠ 1 := by
  unfold parseDone
  dsimp only
  split
  · simp
  · split
    · simp
    · exact h

/-- R175 to R178, R241, R242: what is read raises FORMAT_MISMATCH or HEADER_CORRUPTION at most. -/
theorem readDone_errcode_ne_one (k : ReadCont) (v : Nat) : (readDone k v s).errcode ≠ 1 := by
  cases k with
  | magic =>
    simp only [readDone, magicRead]
    split
    · simp
    · exact h
  | selector =>
    simp only [readDone, selectorRead]
    split
    · exact h
    · split
      · exact h
      · simp
  | count i F =>
    simp only [readDone, countRead]
    split <;> exact h
  | treeLen => exact takeField_errcode_ne_one h 1 .token _
  | token p =>
    simp only [readDone, tokenRead]
    split
    · split
      · simp
      · exact takeField_errcode_ne_one h 1 .token _
    · exact takeField_errcode_ne_one h 9 .leafValue _
  | leafValue p =>
    simp only [readDone, leafValueRead]
    split
    · split
      · simp
      · split
        · exact parseDone_errcode_ne_one h _ _
        · exact takeField_errcode_ne_one h 1 .token _
    · simp
  | dataBit =>
    simp only [readDone, dataBitRead]
    split <;> exact h

theorem countStep_errcode_ne_one (fmt : HeaderFormat) (n : DWord) (hread : ¬ (s.inCur.bytes = [] ∧ s.inCur.term = some .fail)) :
    (countStep fmt n s).errcode ≠ 1 := by
  unfold countStep
  rcases inByte_cases s with ⟨b, r, -, e⟩ | ⟨-, -, e⟩ | ⟨hbytes, hterm, -⟩ | ⟨-, -, e⟩
  · rw [e]
    exact countByte_errcode_ne_one (s := s.setBytes r) h fmt n b
  · rw [e]
    exact h
  · exact absurd ⟨hbytes, hterm⟩ hread
  · rw [e]
    exact h

theorem symbolStep_errcode_ne_one (hread : ¬ (s.inCur.bytes = [] ∧ s.inCur.term = some .fail)) : (symbolStep s).errcode ≠ 1 := by
  unfold symbolStep
  rcases inByte_cases s with ⟨b, r, -, e⟩ | ⟨-, -, e⟩ | ⟨hbytes, hterm, -⟩ | ⟨-, -, e⟩
  · rw [e]
    exact symbolByte_errcode_ne_one (s := s.setBytes r) h b
  · rw [e]
    exact h
  · exact absurd ⟨hbytes, hterm⟩ hread
  · rw [e]
    exact h

theorem readBit_errcode_ne_one (n v : Nat) (k : ReadCont)
    (hread : ¬ (s.br.k = 0 ∧ s.inCur.bytes = [] ∧ s.inCur.term = some .fail)) : (readBit n v k s).errcode ≠ 1 := by
  unfold readBit
  split
  · next hk =>
    rcases inByte_cases s with ⟨b, r, -, e⟩ | ⟨-, -, e⟩ | ⟨hbytes, hterm, -⟩ | ⟨-, -, e⟩
    · rw [e]
      exact h
    · rw [e]
      cases k <;> simp [eosError]
    · exact absurd ⟨hk, hbytes, hterm⟩ hread
    · rw [e]
      exact h
  · exact h

end

/-! ### Reads that meet a FAIL terminator -/

/-- R63, R271: position p is at an InByte(), no byte remains, and the terminator is FAIL. -/
def AtFailedRead (s : State) (p : Pos) : Prop := p.fetches s.br.k = true ∧ s.inCur.bytes = [] ∧ s.inCur.term = some .fail

/-- R64, R110, R220: whatever line called InByte(), it raises STREAM_READ_FAILURE on FAIL. -/
theorem AtFailedRead.posStep_eq {s : State} {p : Pos} (h : AtFailedRead s p) : posStep p s = raise .streamReadFailure s := by
  obtain ⟨hfetches, hbytes, hterm⟩ := h
  have hfail := inByte_fail hbytes hterm
  match p, hfetches with
  | .count _ _, _ => simp only [posStep, countStep, hfail]
  | .symbols, _ => simp only [posStep, symbolStep, hfail]
  | .read (_ + 1) _ _, hfetches =>
    have hk : s.br.k = 0 := of_decide_eq_true hfetches
    simp only [posStep, readBit, hk, hfail, if_true]

/-- R271: no other block step ends with code 1. -/
theorem posStep_errcode_ne_one {s : State} {p : Pos} (h : s.errcode ≠ 1) (hread : ¬ AtFailedRead s p) :
    (posStep p s).errcode ≠ 1 := by
  match p, hread with
  | .preprocess _, _ => exact h
  | .count fmt n, hread => exact countStep_errcode_ne_one h fmt n fun hfail => hread ⟨rfl, hfail⟩
  | .compress force, _ => exact startCompress_errcode_ne_one h force
  | .symbols, hread => exact symbolStep_errcode_ne_one h fun hfail => hread ⟨rfl, hfail⟩
  | .decompress, _ => exact h
  | .read 0 v k, _ => exact readDone_errcode_ne_one h k v
  | .read (n + 1) v k, hread =>
    exact readBit_errcode_ne_one h n v k fun ⟨hk, hfail⟩ => hread ⟨decide_eq_true hk, hfail⟩
  | .walk, _ => exact walkStep_errcode_ne_one h
  | .emit [] k, _ => exact emitDone_errcode_ne_one h k
  | .emit (b :: r) k, _ =>
    rw [posStep, emitBit_frame]
    exact h
  | .ret _, _ => exact (by decide : (0 : BitVec 4) ≠ 1)

/-- R271: from a running command of the invariant, whose ERRCODE is 0, code 1 comes of a failed read. -/
theorem atFailedRead_of_errcode {s : State} {p : Pos} (h : s.errcode = 0) (hone : (posStep p s).errcode = 1) :
    AtFailedRead s p := by
  by_contra hread
  exact posStep_errcode_ne_one (by rw [h]; decide) hread hone

/-- Settles O15: a failed read is the error entry (AtFailedRead.posStep_eq), and nothing else makes ERRCODE 1
(atFailedRead_of_errcode). -/
theorem readFailureExactlyAtAFailTerminator : Obligations.ReadFailureExactlyAtAFailTerminator := by
  intro s p h hphase
  obtain ⟨hrunning, -⟩ := h.status.running (busy_of_busy hphase)
  have hstep : run 1 s = posStep p s := by rw [run_succ, run_zero, blockStep_busy hphase]
  rw [hstep]
  have hraises : AtFailedRead s p → posStep p s = raise .streamReadFailure s := AtFailedRead.posStep_eq
  have honly : (posStep p s).errcode = 1 → AtFailedRead s p := atFailedRead_of_errcode hrunning
  exact ⟨⟨fun hread => ⟨hraises hread, by rw [hraises hread]; rfl⟩, fun ⟨_, hone⟩ => honly hone⟩, fun hone => hraises (honly hone)⟩

/-! ### COMPRESS ended by its stream -/

/-- COMPRESS, accepted in s, codes the bytes pre and then comes to the error entry of e, with the bytes left of its stream unread
(R220, R279). -/
def CompressFails (s : State) (pre : List Byte) (force : Bool) (e : Err) (left : List Byte) : Prop :=
  let u := takeStream (accept (.compress force) s)
  ∃ o w, Reaches u (raise e ((u.setBytes left).wrote o w)) ∧ Wrote u (streamHead s.params s.plan ++ dataOf s.plan pre) o w

/-- R224: the symbol loop meets a byte without a code, which is read. -/
theorem symbols_uncoded_blockStep {s : State} {b : Byte} {r : List Byte} (hphase : s.phase = .busy .symbols)
    (hbytes : s.inCur.bytes = b :: r) (hfreq : freqOf s.plan.freq b = 0) : blockStep s = raise .planMismatch (s.setBytes r) := by
  rw [blockStep_busy hphase]
  simp only [posStep, symbolStep, inByte_cons hbytes]
  exact if_pos hfreq

section

variable {s : State} {pre : List Byte} {force : Bool} (hvalid : s.plan.valid = true) (hcoded : Coded s.plan pre)
  (hforce : s.plan.projBits ≤ s.plan.origBits ∨ force = true)
include hvalid hcoded hforce

/-- R224, R277: a byte whose FREQ is 0, behind bytes that have codes. -/
theorem compress_uncoded_fails {b : Byte} {post : List Byte} {term : Option Terminator} (h : Ready s ⟨pre ++ b :: post, term⟩)
    (hfreq : freqOf s.plan.freq b = 0) : CompressFails s pre force .planMismatch post := by
  obtain ⟨o, w, hsymbols, hwrote⟩ := compress_symbols_reaches h hvalid hcoded hforce
  exact ⟨o, w, hsymbols.trans (reaches_of_blockStep_eq (symbols_uncoded_blockStep rfl rfl hfreq)), hwrote⟩

/-- R271: a FAIL terminator behind bytes that have codes. -/
theorem compress_failTerminator_fails (h : Ready s ⟨pre, some .fail⟩) : CompressFails s pre force .streamReadFailure [] := by
  rw [← List.append_nil pre] at h
  obtain ⟨o, w, hsymbols, hwrote⟩ := compress_symbols_reaches h hvalid hcoded hforce
  have hread : AtFailedRead ((((takeStream (accept (.compress force) s)).setBytes []).wrote o w).goto .symbols) .symbols :=
    ⟨rfl, rfl, congrArg Stream.term h.stream⟩
  exact ⟨o, w, hsymbols.trans (reaches_of_blockStep_eq hread.posStep_eq), hwrote⟩

end

/-- R277, R279: how a COMPRESS that fails in this way ends; the pending bits are those behind the last whole byte. -/
theorem CompressFails.ended {s : State} {pre left : List Byte} {force : Bool} {e : Err} {st : Stream}
    (hfails : CompressFails s pre force e left) (h : Ready s st) :
    ∃ t w pending, exec (.compress force) s = .next t ∧ t.out = s.out ++ w ∧
      bitsOf w ++ pending = streamHead s.params s.plan ++ dataOf s.plan pre ∧ pending.length < 8 ∧
      Ended t e.code (BitVec.ofNat 64 (8 * w.length)) ∧ t.plan = s.plan ∧ t.dec = s.dec ∧ t.inCur.bytes = left ∧
      OutsideKept s t := by
  obtain ⟨o, ⟨pending, nout⟩, hreach, hwrote⟩ := hfails
  obtain ⟨w, rfl, hbits, hpending, rfl⟩ := hwrote.shape
  refine ⟨_, w, pending, command_of_reaches h (posOk_compress force) hreach (quiescent_idle rfl), rfl, hbits.symm, hpending, ?_,
    rfl, rfl, rfl, ⟨rfl, rfl, rfl, rfl⟩⟩
  exact ⟨rfl, rfl, rfl, rfl, BitVec.zero_add _, rfl⟩

/-- Settles O40: after the codes of pre the command comes to its error entry (compress_uncoded_fails, compress_failTerminator_fails),
which ends it with what was delivered so far (CompressFails.ended). -/
theorem compressErrorsKeepWhatWasDelivered : Obligations.CompressErrorsKeepWhatWasDelivered := by
  rintro s pre force ⟨bytes, term⟩ code h hvalid hcoded hforce (⟨b, post, rfl, hfreq, rfl⟩ | ⟨hstream, rfl⟩)
  · have hleft : (pre ++ b :: post).drop (pre.length + 1) = post := by simp
    exact hleft.symm ▸ (compress_uncoded_fails hvalid hcoded hforce h hfreq).ended h
  · obtain ⟨rfl, rfl⟩ := Stream.mk.inj hstream
    have hleft : bytes.drop (bytes.length + 1) = [] := List.drop_eq_nil_of_le (Nat.le_succ _)
    exact hleft.symm ▸ (compress_failTerminator_fails hvalid hcoded hforce h).ended h

end Sys2Proof.Machine

/-! What the host sees of a command that runs, waits or is abandoned: the command ends or waits for its stream, the same whatever the pace
and however the stream is supplied, and the reset input drops it (R85, R300, R301, R314, R320, R321). -/

namespace Sys2Proof.Machine

/-! ### The reset input -/

theorem step_reset {s : State} {p : Option Nat} {rest : List Timed} (h : s.events = { event := .reset, pace := p } :: rest) :
    step s = .next (resetBlock { s with events := rest, pace := p }) := step_cons h

/-- Settles O58: whatever the block was doing, the step is resetBlock. -/
theorem resetAbandonsTheCommand : Obligations.ResetAbandonsTheCommand := fun _ _ _ =>
  ⟨_, step_reset rfl, rfl, rfl, status_eq_zero rfl rfl rfl rfl, rfl, rfl, rfl, rfl, rfl, rfl, rfl, rfl, rfl, rfl⟩

/-! ### Where a command ends or waits -/

theorem Reaches.inv {s t : State} (ht : Reaches s t) (h : s.Inv) : t.Inv := by
  obtain ⟨n, rfl⟩ := ht
  exact run_inv n h

theorem Reaches.pace {s t : State} (ht : Reaches s t) : t.pace = s.pace := by
  obtain ⟨n, rfl⟩ := ht
  obtain ⟨-, -, hpace, -⟩ := run_surroundings n s
  exact hpace

/-- R320: a command given the block to itself goes on until no block step changes anything. -/
theorem command_reaches_rest {s t : State} {st : Stream} {p : Pos} (h : Ready s st) (hp : ∀ u, PosOk u p)
    (hcommand : command p s = .next t) : Reaches (takeStream (accept p s)) t ∧ t.quiescent = true := by
  obtain rfl := Host.Outcome.next.inj ((command_eq h p).symm.trans hcommand)
  exact ⟨⟨_, rfl⟩, run_horizon_quiescent (accepted_inv h.inv hp)⟩

/-- R24, R63, R85: where block steps take an accepted command, the terminator of its stream is still to be read, and it has completed or
shows no error. -/
theorem Reaches.accepted_status {s t : State} {st : Stream} {p : Pos} (h : Ready s st) (ht : Reaches (takeStream (accept p s)) t) :
    t.inCur.term = st.term ∧ (t.busy = false → t.done = true) ∧ (t.busy = true → t.err = false ∧ t.errcode = 0) := by
  obtain ⟨n, rfl⟩ := ht
  obtain ⟨hterm, hstatus⟩ := run_status n (s := takeStream (accept p s)) rfl
  refine ⟨hterm.trans (congrArg Stream.term h.stream), ?_⟩
  rcases hstatus with ⟨hidle, hdone⟩ | ⟨hbusy, herrcode, -, -, herr⟩
  · exact ⟨fun _ => hdone, by simp [busy_of_idle hidle]⟩
  · exact ⟨by simp [hbusy], fun _ => ⟨herr, herrcode⟩⟩

/-- R83: the ill-formed DECOMPRESS completes at once. -/
theorem exec_illFormed {s : State} (hidle : s.phase = .idle) : exec (.decompress true) s = .next (illegalCommand s) := by
  rw [exec_decompress_true, if_neg (by simp [busy_of_idle hidle])]

/-- Settles O53: a command rests only where it is IDLE, since the terminator of its stream is supplied (idle_of_quiescent); so it has
completed. -/
theorem everyCommandCompletes : Obligations.EveryCommandCompletes := by
  intro s i bytes x h
  rcases exec_cases i with ⟨p, hp, -, hcommand⟩ | rfl
  · obtain ⟨t, ht, -⟩ := command_answersInv h.inv hp
    obtain ⟨hreach, hrest⟩ := command_reaches_rest h hp ht
    obtain ⟨hterm, hdone, -⟩ := hreach.accepted_status h
    have hidle := idle_of_quiescent hrest (by simp [hterm])
    exact ⟨t, (hcommand s).trans ht, hidle, hdone (busy_of_idle hidle)⟩
  · exact ⟨_, exec_illFormed h.idle, rfl, rfl⟩

/-- Settles O54: a command that is not IDLE where it rests is at a read of an exhausted stream (quiescent_busy). -/
theorem waitsOnlyForItsStream : Obligations.WaitsOnlyForItsStream := by
  intro s t i st h hexec hbusy
  rcases exec_cases i with ⟨p, hp, -, hcommand⟩ | rfl
  · obtain ⟨hreach, hrest⟩ := command_reaches_rest h hp ((hcommand s).symm.trans hexec)
    obtain ⟨hterm, -, hstatus⟩ := hreach.accepted_status h
    obtain ⟨herr, herrcode⟩ := hstatus hbusy
    obtain ⟨q, hq⟩ := busy_eq_true.1 hbusy
    obtain ⟨-, hbytes, hnone⟩ := (quiescent_busy hq).1 hrest
    exact ⟨hterm.symm.trans hnone, by rw [← hbytes, ← hnone], herr, herrcode, run_of_quiescent hrest⟩
  · obtain rfl := Host.Outcome.next.inj ((exec_illFormed h.idle).symm.trans hexec)
    cases hbusy

/-! ### The stream in two parts -/

theorem Ready.presenting {s : State} {st : Stream} (h : Ready s st) (st' : Stream) : Ready { s with inNext := st' } st' :=
  ⟨around_inv h.inv s.rdata s.events s.pace st', h.idle, h.alone, rfl⟩

/-- R314: block steps that a command makes on the first part of its stream it makes too when the rest is presented with it. -/
theorem Reaches.accepted_extended {s t : State} {p : Pos} {a : List Byte} (h : Ready s ⟨a, none⟩)
    (ht : Reaches (takeStream (accept p s)) t) (b : List Byte) (term : Option Terminator) :
    Reaches (takeStream (accept p { s with inNext := ⟨a ++ b, term⟩ })) (t.extended b term) := by
  have hterm : (takeStream (accept p s)).inCur.term = none := congrArg Stream.term h.stream
  have hwhole : (takeStream (accept p s)).extended b term = takeStream (accept p { s with inNext := ⟨a ++ b, term⟩ }) := by
    simp [State.extended, takeStream, accept, h.stream, Stream.supply]
  exact hwhole ▸ ht.extended hterm b term

/-- R314, R321: the rest of a stream supplied to a waiting block, which then has the block to itself. -/
theorem act_supply {s : State} (hbusy : s.busy = true) (hpace : s.pace = none) (b : List Byte) (term : Option Terminator) :
    act (.supply b term) s = .next (run (horizon (s.extended b term)) (s.extended b term)) := by
  have hsupply : supplyMore b term s = s.extended b term := if_pos hbusy
  rw [act, hsupply, progress_of_none (s := s.extended b term) hpace]

/-- Settles O55: given the whole stream the command passes the state t extended by the rest (Reaches.accepted_extended). If t waits,
both go on from there to where block steps change nothing; if t is IDLE, the command has ended there. -/
theorem splitSupplyIsTheSameAsWhole : Obligations.SplitSupplyIsTheSameAsWhole := by
  intro s t i a b term h hexec
  rcases exec_cases i with ⟨p, hp, -, hcommand⟩ | rfl
  · obtain ⟨hreach, -⟩ := command_reaches_rest h hp ((hcommand s).symm.trans hexec)
    obtain ⟨hterm, -⟩ := hreach.accepted_status h
    have hready := h.presenting ⟨a ++ b, term⟩
    have hwhole := hreach.accepted_extended h b term
    rw [hcommand]
    refine ⟨fun hbusy => ?_, fun hidle _ => ?_⟩
    · have hinv : (t.extended b term).Inv := withInCur_inv (hreach.inv (accepted_inv h.inv hp)) _
      rw [act_supply hbusy (hreach.pace.trans h.alone)]
      exact (command_of_reaches hready hp (hwhole.trans ⟨_, rfl⟩) (run_horizon_quiescent hinv)).symm
    · have hextended : t.extended b term = { t with inCur := ⟨t.inCur.bytes ++ b, term⟩ } := by
        simp [State.extended, Stream.supply, hterm]
      rw [← hextended]
      exact command_of_reaches hready hp hwhole (quiescent_idle (busy_eq_false.1 hidle))
  · obtain rfl := Host.Outcome.next.inj ((exec_illFormed h.idle).symm.trans hexec)
    exact ⟨nofun, fun _ => nofun⟩

/-! ### The pace -/

/-- R321: no block step looks at the pace. -/
theorem run_pace (n : Nat) (s : State) (p : Option Nat) : run n { s with pace := p } = { run n s with pace := p } := by
  obtain ⟨hrdata, hevents, -, hnext⟩ := run_surroundings n s
  rw [show ({ s with pace := p } : State) = s.around s.rdata s.events p s.inNext from rfl, run_around, State.around,
    ← hrdata, ← hevents, ← hnext]

/-- A command at a pace of k makes its first k block steps. -/
theorem command_of_pace {s : State} {k : Nat} (hidle : s.busy = false) (hpace : s.pace = some k) (p : Pos) :
    command p s = .next (run k (takeStream (accept p s))) := by
  simp [command, hidle, progress_of_some (s := takeStream (accept p s)) hpace]

/-- Settles O56: the first k block steps are on the way to the command's end, and block steps go on to it from there
(Reaches.continues). -/
theorem paceDoesNotMatter : Obligations.PaceDoesNotMatter := by
  intro s t i st k h hexec
  rcases exec_cases i with ⟨p, hp, -, hcommand⟩ | rfl
  · obtain ⟨⟨n, hn⟩, hrest⟩ := command_reaches_rest h hp ((hcommand s).symm.trans hexec)
    have hend : Reaches (takeStream (accept p { s with pace := some k })) { t with pace := some k } :=
      ⟨n, hn ▸ run_pace n (takeStream (accept p s)) (some k)⟩
    have hinv := accepted_inv (around_inv h.inv s.rdata s.events (some k) s.inNext) hp
    have hpaced := command_of_pace (s := { s with pace := some k }) (busy_of_idle h.idle) rfl p
    refine ⟨_, (hcommand _).trans hpaced, ?_⟩
    exact (Reaches.continues ⟨k, rfl⟩ hend hrest).horizon (run_inv k hinv) hrest
  · obtain rfl := Host.Outcome.next.inj ((exec_illFormed h.idle).symm.trans hexec)
    exact ⟨_, exec_illFormed (s := { s with pace := some k }) h.idle, run_of_quiescent (quiescent_idle rfl) _⟩

end Sys2Proof.Machine
